-- ==== Sys2Proof/Word.lean ====
section
/-!
DEFINITION. The word types of the block, the named operands of its commands (30 R92), the error codes of a
command (60 R280), and the one piece of plain arithmetic every family uses (00 R9).
-/

namespace Sys2Proof

/-- A 32-bit register, command word or bus value (10 R21, 30 R90). -/
abbrev Word := BitVec 32

/-- A 16-bit length, bit length or permutation entry (10 R21, R36). -/
abbrev Half := BitVec 16

/-- A byte, and a symbol of the Reed–Solomon code (44 R200). -/
abbrev Byte := BitVec 8

/-- One bit of a bit sequence (00 R10). -/
abbrev Bit := BitVec 1

/-- The two convolutional encoders, the operand SEL of CONV_RESET and CONV_PARITY (30 R92, 41 R140). -/
inductive Encoder where
  | a   -- SEL = 0, polynomial 0b1011
  | b   -- SEL = 1, polynomial 0b1111
  deriving DecidableEq, Repr

/-- The two packet tags, the operand SEL of TX_DONE (30 R92, 45 R248). -/
inductive Tag where
  | p   -- SEL = 0
  | w   -- SEL = 1
  deriving DecidableEq, Repr

/-- The ways a command fails, in the order of their priority (60 R280, R282). -/
inductive CmdError where
  | illegalOpcode
  | reservedField
  | length
  | shortInput
  deriving DecidableEq, Repr

/-- The number of bytes that hold `n` bits (00 R9). -/
def ceil8 (n : Nat) : Nat := (n + 7) / 8

end Sys2Proof
end

