-- ==== Sys2Proof/Config.lean ====
section
/-!
DEFINITION. What is fixed for the life of a block (10 R38): the constants the source gives (00 R7), the
parameters it leaves open as fields of `Config` (00 R8), and the draws, the values no rule fixes (00 R11), as
constants without a body. The default value of every parameter is `standardConfig` in Machine/Params.lean.
-/

namespace Sys2Proof

/-- How one AND term of an encoder step is reduced to a bit, PARITY_READING (41 R142). -/
inductive ParityReading where
  | xorBits
  | nonZero
  | bitI
  deriving DecidableEq, Repr

/-- The byte order of the W length header, LEN_ORDER (45 R241). -/
inductive LenOrder where
  | littleEndian
  | bigEndian
  deriving DecidableEq, Repr

/-- The open parameters of the block (00 R8). -/
structure Config where
  /-- PARITY_READING -/
  parityReading : ParityReading
  /-- ILV_FN: the permutation of [0, L) the generator yields for a length L (40 R120, R121) -/
  ilvFn : Nat → List Nat
  /-- RS_POLY: the field polynomial, nine bits with the leading one -/
  rsPoly : Nat
  /-- RS_ALPHA: the primitive element -/
  rsAlpha : Byte
  /-- RS_FCR: the first root's exponent -/
  rsFcr : Nat
  /-- RS_TERM: the separator byte -/
  rsTerm : Byte
  /-- LEN_ORDER -/
  lenOrder : LenOrder
  /-- IN_SIZE, bytes -/
  inSize : Nat
  /-- OUT_SIZE, bytes -/
  outSize : Nat
  /-- BIT_CAP, bits -/
  bitCap : Nat
  /-- PERM_CAP, entries -/
  permCap : Nat
  /-- TURBO_MAX_TEXT, bytes -/
  turboMaxText : Nat
  /-- CNT_WIDTH, bits, at most the 32 a counter register holds -/
  cntWidth : Nat
  /-- HOST_ADDR_W, bits of a host byte address -/
  hostAddrW : Nat
  /-- HOST_DATA_W, bits of the host's data word -/
  hostDataW : Nat

/-- ILV_SEED (00 R7, 40 R120). -/
def ilvSeed : Nat := 42

/-- PA, the hardwired polynomial of encoder A (00 R7, 10 R35). -/
def polyA : BitVec 4 := 0b1011

/-- PB, the hardwired polynomial of encoder B (00 R7, 10 R35). -/
def polyB : BitVec 4 := 0b1111

/-- TAG_P, "P:!" (45 R240). -/
def tagP : List Byte := [0x50, 0x3A, 0x21]

/-- TAG_W, "W:!" (45 R240). -/
def tagW : List Byte := [0x57, 0x3A, 0x21]

/-- What IN[k] holds after the reset numbered `boot` (70 R310 b): a draw, free (log 3). -/
opaque Config.resetIn : (boot k : Nat) → Byte

/-- What OUT[k] holds after the reset numbered `boot` (70 R310 b): a draw, free (log 3). -/
opaque Config.resetOut : (boot k : Nat) → Byte

/-- What BITMEM[i] holds after the reset numbered `boot` (70 R310 b): a draw, free (log 3). -/
opaque Config.resetBit : (boot i : Nat) → Bit

/-- What PERM[i] holds after the reset numbered `boot` (70 R310 b): a draw, free (log 3). -/
opaque Config.resetPerm : (boot i : Nat) → Half

/-- The `n`-th byte drawn by the Reed–Solomon decoder beyond its bound (44 R206): a draw, free (log 4). -/
opaque Config.drawByte : (n : Nat) → Byte

end Sys2Proof
end

