-- ==== Sys2Proof/Syntax.lean ====
section
/-!
DEFINITION. The twelve commands of the block, one constructor per row of spec/opcode_table.json (30 R93), each
with the operand fields its row uses (30 R91).
-/

namespace Sys2Proof

/-- A command (30 R93). -/
inductive Instr where
  /-- ILV_GEN, IMM16 = L (40 R122) -/
  | ilvGen (len : Half)
  /-- CONV_RESET, SEL (41 R144) -/
  | convReset (sel : Encoder)
  /-- CONV_PARITY, SEL and BIT (41 R145) -/
  | convParity (sel : Encoder) (bit : Bit)
  /-- TURBO_ENC (42 R161) -/
  | turboEnc
  /-- PACK (43 R182) -/
  | pack
  /-- UNPACK (43 R183) -/
  | unpack
  /-- RS_ENC (44 R204) -/
  | rsEnc
  /-- RS_DEC (44 R207) -/
  | rsDec
  /-- FRAME_P (45 R242) -/
  | frameP
  /-- FRAME_W (45 R243) -/
  | frameW
  /-- PARSE (45 R244) -/
  | parse
  /-- TX_DONE, SEL and BIT, the send result (45 R248) -/
  | txDone (tag : Tag) (ok : Bit)
  deriving DecidableEq, Repr

end Sys2Proof
end

