-- ==== Sys2Proof/WellFormed.lean ====
section
/-!
DEFINITION. Well-formedness. An operand of a command has a type that admits exactly the values its field of the
command word admits (30 R91), so the one check left on a command is that the permutation asked for fits PERM. The
parameters of 00 R8 are plain numbers, so a configuration is checked: every length a command accepts must stay
inside the buffers (20 R71).
-/

namespace Sys2Proof

/-- The operands of a command are ones a block with these parameters takes: ILV_GEN never fails (40 R122), so a
length must fit PERM (10 R36). Every command is well formed for `standardConfig`. -/
def Instr.wf (cfg : Config) : Instr → Bool
  | .ilvGen len => len.toNat ≤ cfg.permCap
  | .convReset _ => true
  | .convParity _ _ => true
  | .turboEnc => true
  | .pack => true
  | .unpack => true
  | .rsEnc => true
  | .rsDec => true
  | .frameP => true
  | .frameW => true
  | .parse => true
  | .txDone _ _ => true

/-- Every codeword TURBO_ENC accepts fits BITMEM, PERM and the 16-bit BIT_LEN, and its text fits IN (42 R161). -/
def Config.turboFits (cfg : Config) : Bool :=
  24 * cfg.turboMaxText ≤ 65535 && 24 * cfg.turboMaxText ≤ cfg.bitCap && 8 * cfg.turboMaxText ≤ cfg.permCap &&
    cfg.turboMaxText ≤ cfg.inSize

/-- Every bit length and every permutation length of 16 bits fits BITMEM and PERM (43 R183, 40 R122). -/
def Config.lengthsFit (cfg : Config) : Bool :=
  65535 ≤ cfg.bitCap && 65535 ≤ cfg.permCap

/-- An RS frame fits IN, and the longest W packet, 3 + 2 + 8192 bytes, fits OUT (10 R36). -/
def Config.packetsFit (cfg : Config) : Bool :=
  128 ≤ cfg.inSize && 8197 ≤ cfg.outSize

/-- The buffers fit the windows the host map leaves between their base addresses (20 R60; that these stand and the ends
follow the sizes: log 12). -/
def Config.mapFits (cfg : Config) : Bool :=
  cfg.inSize ≤ 0x10000 && cfg.outSize ≤ 0x20000 && cfg.bitCap ≤ 0x40000 && cfg.permCap ≤ 0x40000

/-- RS_POLY has degree 8 (44 R200). -/
def Config.polyDegree8 (cfg : Config) : Bool :=
  0x100 ≤ cfg.rsPoly && cfg.rsPoly < 0x200

/-- A counter fits its 32-bit register (10 R21, 45 R249). -/
def Config.countersFit (cfg : Config) : Bool :=
  cfg.cntWidth ≤ 32

/-- Every address of the map has HOST_ADDR_W bits, and a register moves in one transaction (20 R60, R61). -/
def Config.busFits (cfg : Config) : Bool :=
  0x80000 + 2 * cfg.permCap ≤ 2 ^ cfg.hostAddrW && 32 ≤ cfg.hostDataW

/-- The parameters describe a block (00 R8). -/
def Config.wf (cfg : Config) : Bool :=
  cfg.turboFits && cfg.lengthsFit && cfg.packetsFit && cfg.mapFits && cfg.polyDegree8 && cfg.countersFit &&
    cfg.busFits

/-- ILV_FN has the property every admissible generator has (40 R121 a, c): it yields each index of [0, L) exactly
once. R121 b and d hold of any function of the length. -/
def Config.ilvAdmissible (cfg : Config) : Prop :=
  ∀ len, len ≤ 65535 → (cfg.ilvFn len).Perm (List.range len)

end Sys2Proof
end

