-- ==== Sys2Proof/Decode.lean ====
section
/-!
DEFINITION. Decoding a command word (30 R97), total on all 32-bit words and refusing by name (30 R95), and the
encoder, written from the word layout of 30 R90 and the opcode map of 30 R93.
-/

namespace Sys2Proof

/-- The bits a command may set freely besides its opcode, by opcode (30 R97). -/
def freeBits (opc : Byte) : Word :=
  if opc = 0x01 then 0xFFFF0000
  else if opc = 0x02 then 0x00000100
  else if opc = 0x03 ∨ opc = 0x0C then 0x00000300
  else 0x00000000

/-- The encoder a SEL bit names (30 R92). -/
def selEncoder (sel : Bit) : Encoder := if sel = 0 then .a else .b

/-- The tag a SEL bit names (30 R92). -/
def selTag (sel : Bit) : Tag := if sel = 0 then .p else .w

/-- The command of a legal opcode with the fields SEL = v[8], BIT = v[9], IMM16 = v[31:16] (30 R93, R97). -/
def commandOf (v : Word) : Except CmdError Instr :=
  let sel : Bit := v.extractLsb' 8 1
  let bit : Bit := v.extractLsb' 9 1
  match (v.extractLsb' 0 8).toNat with
  | 0x01 => .ok (.ilvGen (v.extractLsb' 16 16))
  | 0x02 => .ok (.convReset (selEncoder sel))
  | 0x03 => .ok (.convParity (selEncoder sel) bit)
  | 0x04 => .ok .turboEnc
  | 0x05 => .ok .pack
  | 0x06 => .ok .unpack
  | 0x07 => .ok .rsEnc
  | 0x08 => .ok .rsDec
  | 0x09 => .ok .frameP
  | 0x0A => .ok .frameW
  | 0x0B => .ok .parse
  | 0x0C => .ok (.txDone (selTag sel) bit)
  | _ => .error .illegalOpcode

/-- Decoding (30 R97): the opcode is checked first, then the reserved bits. -/
def decode (v : Word) : Except CmdError Instr :=
  let opc : Byte := v.extractLsb' 0 8
  if opc = 0x00 ∨ 0x0C < opc then .error .illegalOpcode
  else if v &&& ~~~(0x000000FF#32 ||| freeBits opc) ≠ 0 then .error .reservedField
  else commandOf v

/-- The decoder on the words of spec/opcode_table.json: a row of at most 32 bits is one command word. -/
def decodeTableWord (nbits w : Nat) : Option Instr :=
  if 32 < nbits then none
  else
    match decode (BitVec.ofNat 32 (w % 2 ^ nbits)) with
    | .ok i => some i
    | .error _ => none

/-- SEL of an encoder operand (30 R92). -/
def encoderSel : Encoder → Bit
  | .a => 0
  | .b => 1

/-- SEL of a tag operand (30 R92). -/
def tagSel : Tag → Bit
  | .p => 0
  | .w => 1

/-- The word with the given fields and RSV = 0 (30 R90). -/
def cmdWord (opc : Byte) (sel bit : Bit) (imm : Half) : Word :=
  imm ++ (0 : BitVec 6) ++ bit ++ sel ++ opc

/-- The word of a command (30 R90, R93, R94). -/
def encode : Instr → Word
  | .ilvGen len => cmdWord 0x01 0 0 len
  | .convReset sel => cmdWord 0x02 (encoderSel sel) 0 0
  | .convParity sel bit => cmdWord 0x03 (encoderSel sel) bit 0
  | .turboEnc => cmdWord 0x04 0 0 0
  | .pack => cmdWord 0x05 0 0 0
  | .unpack => cmdWord 0x06 0 0 0
  | .rsEnc => cmdWord 0x07 0 0 0
  | .rsDec => cmdWord 0x08 0 0 0
  | .frameP => cmdWord 0x09 0 0 0
  | .frameW => cmdWord 0x0A 0 0 0
  | .parse => cmdWord 0x0B 0 0 0
  | .txDone tag ok => cmdWord 0x0C (tagSel tag) ok 0

/-- The table's match value of a command's row (30 R94). -/
def Instr.tableMatch : Instr → Word
  | .ilvGen _ => 0x00000001
  | .convReset _ => 0x00000002
  | .convParity _ _ => 0x00000003
  | .turboEnc => 0x00000004
  | .pack => 0x00000005
  | .unpack => 0x00000006
  | .rsEnc => 0x00000007
  | .rsDec => 0x00000008
  | .frameP => 0x00000009
  | .frameW => 0x0000000A
  | .parse => 0x0000000B
  | .txDone _ _ => 0x0000000C

/-- The table's mask of a command's row: the bits that must equal the match (30 R94). -/
def Instr.tableMask : Instr → Word
  | .ilvGen _ => 0x0000FFFF
  | .convReset _ => 0xFFFFFEFF
  | .convParity _ _ => 0xFFFFFCFF
  | .turboEnc => 0xFFFFFFFF
  | .pack => 0xFFFFFFFF
  | .unpack => 0xFFFFFFFF
  | .rsEnc => 0xFFFFFFFF
  | .rsDec => 0xFFFFFFFF
  | .frameP => 0xFFFFFFFF
  | .frameW => 0xFFFFFFFF
  | .parse => 0xFFFFFFFF
  | .txDone _ _ => 0xFFFFFCFF

end Sys2Proof
end

