-- ==== Sys2Proof/Machine/State.lean ====
section
/-!
DEFINITION. The state of the block and of the host's side of its bus, as plain data (10 R21, R36, R37), the ways a
step can stop, and the state after reset (70 R310).
-/

namespace Sys2Proof.Machine

/-- A buffer of `w`-bit elements (10 R36): the elements written since reset, as pairs of an index and a value with
strictly rising indices. For `w = 8` it is a list of `Host.Cell`. An index not listed has not been written since
reset and holds its reset draw (70 R310 b, log 3). -/
abbrev Buf (w : Nat) := List (Nat × BitVec w)

/-- STATUS (10 R21, R23): the outcome of the most recent command. -/
structure Status where
  /-- ERR [3:0] (10 R24) -/
  err : BitVec 4
  /-- WARN_LEN [4] (10 R25) -/
  warnLen : BitVec 1
  /-- PCLASS [7:5] (10 R26) -/
  pclass : BitVec 3
  deriving DecidableEq, Repr

/-- The width of a host transaction (20 R60). -/
inductive Width where
  | w8
  | w16
  | w32
  deriving DecidableEq, Repr

/-- One transaction of the host on the host address space (00 R11, 20 R60), at a byte address, a number that the block
decodes if it has HOST_ADDR_W bits (log 5). A write of width `w` carries the low `w` bits of `v` (log 10). -/
inductive HostTxn where
  | read (w : Width) (a : Nat)
  | write (w : Width) (a : Nat) (v : Word)
  deriving DecidableEq, Repr

/-- What reaches the block from outside: a host transaction (20 R76) or the platform's reset (70 R310). -/
inductive HostEvent where
  | txn (t : HostTxn)
  | reset
  deriving DecidableEq, Repr

/-- Why a step stops. -/
inductive Fault where
  /-- Raised by `transact` for a host transaction the map does not admit (20 R66): unmapped, of the wrong width,
  misaligned, a write to a read-only place, or a read of CMD. The spec itself makes it a fault of the host step.
  Safe: the run has no next state, and R322 makes every claim take "no bus error" as a premise. -/
  | busError
  deriving DecidableEq, Repr

/-- Why a step has no meaning. -/
inductive Refusal where
  /-- Raised by `exec` for an instruction without a meaning. No arm of `exec` raises it: every command is modelled.
  Safe: such a step has no next state. -/
  | notModelled (mnemonic : String)
  deriving DecidableEq, Repr

/-- The state of the block (10 R21, R36), with the model's own fields `boot`, `draws`, `host` and `resp`. -/
structure State where
  /-- IN (10 R36) -/
  inBuf : Buf 8
  /-- OUT (10 R36) -/
  outBuf : Buf 8
  /-- BITMEM (10 R36) -/
  bitMem : Buf 1
  /-- PERM (10 R36) -/
  permBuf : Buf 16
  /-- STATUS (10 R23) -/
  status : Status
  /-- RESULT.PARITY (10 R27) -/
  parity : Bit
  /-- IN_LEN.LEN (10 R28) -/
  inLen : Half
  /-- OUT_LEN.LEN (10 R29) -/
  outLen : Half
  /-- BIT_LEN.LEN (10 R30) -/
  bitLen : Half
  /-- PKT_BITS.BITS (10 R31) -/
  pktBits : Half
  /-- PERM_LEN.LEN (10 R32) -/
  permLen : Half
  /-- CNT_P.COUNT (10 R33) -/
  cntP : Word
  /-- CNT_W.COUNT (10 R33) -/
  cntW : Word
  /-- ENC_STATE.SA (10 R34) -/
  sa : BitVec 3
  /-- ENC_STATE.SB (10 R34) -/
  sb : BitVec 3
  /-- How many block resets came before: the number of the reset whose draws the unwritten elements hold (log 3). -/
  boot : Nat
  /-- How many bytes RS_DEC has drawn (log 4). -/
  draws : Nat
  /-- The events the host and the platform have still to issue, the next one first (20 R72, log 1). -/
  host : List HostEvent
  /-- What the host got back from its latest transaction: the value of a read, nothing for a write (20 R76). -/
  resp : Option Word
  deriving DecidableEq, Repr

/-- The block right after power-on (70 R310): every register at the reset value of 10 R21, every buffer element at
its draw, no command in progress, and no host transaction issued. -/
def State.reset : State where
  inBuf := []
  outBuf := []
  bitMem := []
  permBuf := []
  status := { err := 0, warnLen := 0, pclass := 0 }
  parity := 0
  inLen := 0
  outLen := 0
  bitLen := 0
  pktBits := 0
  permLen := 0
  cntP := 0
  cntW := 0
  sa := 0
  sb := 0
  boot := 0
  draws := 0
  host := []
  resp := none

end Sys2Proof.Machine
end

