-- ==== Sys2Proof/Machine/Operands.lean ====
section
/-!
DEFINITION. The shapes in which commands take their operands: a byte as bits (00 R10, 42 R160), bits as bytes
(43 R180, R181), and the length header of a W packet (45 R241).
-/

namespace Sys2Proof.Machine

/-- The eight bits of a byte, most significant first: c[7], c[6], …, c[0] (00 R10). -/
def byteBits (c : Byte) : List Bit :=
  [c.extractLsb' 7 1, c.extractLsb' 6 1, c.extractLsb' 5 1, c.extractLsb' 4 1,
    c.extractLsb' 3 1, c.extractLsb' 2 1, c.extractLsb' 1 1, c.extractLsb' 0 1]

/-- The bit sequence of a text: `u[8k + j] = t[k][7 - j]` (42 R160). -/
def textBits (t : List Byte) : List Bit := t.flatMap byteBits

/-- One packed byte: bit j of `bits` at position 7 - j, and 0 where there is no bit j (43 R180). -/
def packByte (bits : List Bit) : Byte :=
  bits.getD 0 0 ++ bits.getD 1 0 ++ bits.getD 2 0 ++ bits.getD 3 0 ++
    bits.getD 4 0 ++ bits.getD 5 0 ++ bits.getD 6 0 ++ bits.getD 7 0

/-- The first `k` packed bytes of a bit sequence: bit i goes to byte i div 8 at position 7 - (i mod 8) (43 R180). -/
def packBytes : (k : Nat) → List Bit → List Byte
  | 0, _ => []
  | k + 1, bits => packByte (bits.take 8) :: packBytes k (bits.drop 8)

/-- `BitsToBytes` of a bit sequence: ceil8 of its length many bytes, the unused trailing bits 0 (43 R180). -/
def bitsToBytes (bits : List Bit) : List Byte := packBytes (ceil8 bits.length) bits

/-- `BytesToBits`: the first `n` bits of the bytes in the same order (43 R181). -/
def bytesToBits (bytes : List Byte) (n : Nat) : List Bit := (textBits bytes).take n

/-- `HdrBytes` of a bit length (45 R241). -/
def hdrBytes (order : LenOrder) (b : Half) : List Byte :=
  match order with
  | .littleEndian => [b.extractLsb' 0 8, b.extractLsb' 8 8]
  | .bigEndian => [b.extractLsb' 8 8, b.extractLsb' 0 8]

/-- `Hdr` of two header bytes (45 R241). -/
def hdr (order : LenOrder) (h0 h1 : Byte) : Half :=
  match order with
  | .littleEndian => h1 ++ h0
  | .bigEndian => h0 ++ h1

end Sys2Proof.Machine
end

