-- ==== Sys2Proof/Machine/Flags.lean ====
section
/-!
DEFINITION. The STATUS a command leaves (10 R23–R26, 60 R280). The block has no condition codes (10 R39).
-/

namespace Sys2Proof.Machine

/-- The code of an error in STATUS.ERR (10 R24, 60 R280). -/
def errCode : CmdError → BitVec 4
  | .illegalOpcode => 1
  | .reservedField => 2
  | .length => 3
  | .shortInput => 4

/-- The verdict of a completed PARSE (10 R26). -/
inductive PClass where
  | p
  | w
  | unrec
  | short
  deriving DecidableEq, Repr

/-- The code of a verdict in STATUS.PCLASS (10 R26); 0 is NONE. -/
def classCode : PClass → BitVec 3
  | .p => 1
  | .w => 2
  | .unrec => 3
  | .short => 4

/-- STATUS after a command that completed without a report: (ERR, WARN_LEN, PCLASS) = (0, 0, 0) (10 R23). -/
def Status.ok : Status := { err := 0, warnLen := 0, pclass := 0 }

/-- STATUS after a failed command (60 R281). -/
def Status.failed (e : CmdError) : Status := { err := errCode e, warnLen := 0, pclass := 0 }

/-- STATUS after a completed RS_DEC, whose WARN_LEN reports IN_LEN ≠ 128 (44 R207). -/
def Status.decoded (inLen : Half) : Status :=
  { err := 0, warnLen := if inLen.toNat ≠ 128 then 1 else 0, pclass := 0 }

/-- STATUS after a completed PARSE (45 R244). -/
def Status.parsed (c : PClass) : Status := { err := 0, warnLen := 0, pclass := classCode c }

/-- STATUS as the host reads it: ERR [3:0], WARN_LEN [4], PCLASS [7:5], 0 [31:8] (10 R21). -/
def Status.word (st : Status) : Word :=
  (0 : BitVec 24) ++ st.pclass ++ st.warnLen ++ st.err

end Sys2Proof.Machine
end

