-- ==== Sys2Proof/Machine/Ops.lean ====
section
/-!
DEFINITION. The named operations over the buffers and registers that every command uses: reading and writing runs
of elements by index (20 R71), the end of a command in STATUS and the error that ends one (60 R281), the counters
(45 R249), and the host's view of the registers (20 R61).
-/

namespace Sys2Proof.Machine

/-- The value written to index `k` since reset, if any. -/
def Buf.find {w : Nat} : Buf w → Nat → Option (BitVec w)
  | [], _ => none
  | (a, v) :: rest, k => if a = k then some v else Buf.find rest k

/-- The cells of the consecutive elements `vals` from index `base` on. -/
def Buf.cells {w : Nat} : Nat → List (BitVec w) → Buf w
  | _, [] => []
  | base, v :: vals => (base, v) :: Buf.cells (base + 1) vals

/-- Write the elements `vals` to the indices from `base` on; every other element keeps its value (10 R36). -/
def Buf.write {w : Nat} (b : Buf w) (base : Nat) (vals : List (BitVec w)) : Buf w :=
  b.filter (fun c => c.1 < base) ++ Buf.cells base vals ++ b.filter (fun c => base + vals.length ≤ c.1)

/-- The indices rise strictly. -/
def Buf.rising {w : Nat} : Buf w → Bool
  | [] => true
  | [_] => true
  | c :: d :: rest => c.1 < d.1 && Buf.rising (d :: rest)

/-- The canonical form of a buffer of `cap` elements: the indices rise strictly and none is outside (10 R36). -/
def Buf.wf {w : Nat} (cap : Nat) (b : Buf w) : Bool :=
  Buf.rising b && b.all (fun c => c.1 < cap)

/-- IN[k] (00 R11): the last value written, else the reset draw. -/
def State.inAt (s : State) (k : Nat) : Byte := (Buf.find s.inBuf k).getD (Config.resetIn s.boot k)

/-- OUT[k] (00 R11). -/
def State.outAt (s : State) (k : Nat) : Byte := (Buf.find s.outBuf k).getD (Config.resetOut s.boot k)

/-- BITMEM[i] (00 R11). -/
def State.bitAt (s : State) (i : Nat) : Bit := (Buf.find s.bitMem i).getD (Config.resetBit s.boot i)

/-- PERM[i] (00 R11). -/
def State.permAt (s : State) (i : Nat) : Half := (Buf.find s.permBuf i).getD (Config.resetPerm s.boot i)

/-- IN[0..n-1]. -/
def State.inBytes (s : State) (n : Nat) : List Byte := (List.range n).map s.inAt

/-- OUT[0..n-1]. -/
def State.outBytes (s : State) (n : Nat) : List Byte := (List.range n).map s.outAt

/-- BITMEM[0..n-1]. -/
def State.bits (s : State) (n : Nat) : List Bit := (List.range n).map s.bitAt

/-- PERM[0..n-1]. -/
def State.permEntries (s : State) (n : Nat) : List Half := (List.range n).map s.permAt

/-- `IN[base + j] <- vals[j]` (00 R11). -/
def State.writeIn (s : State) (base : Nat) (vals : List Byte) : State :=
  { s with inBuf := Buf.write s.inBuf base vals }

/-- `OUT[base + j] <- vals[j]` (00 R11). -/
def State.writeOut (s : State) (base : Nat) (vals : List Byte) : State :=
  { s with outBuf := Buf.write s.outBuf base vals }

/-- `BITMEM[base + j] <- vals[j]` (00 R11). -/
def State.writeBits (s : State) (base : Nat) (vals : List Bit) : State :=
  { s with bitMem := Buf.write s.bitMem base vals }

/-- `PERM[base + j] <- vals[j]` (00 R11). -/
def State.writePerm (s : State) (base : Nat) (vals : List Half) : State :=
  { s with permBuf := Buf.write s.permBuf base vals }

/-- The end of a command: STATUS is written whole (10 R23). -/
def State.finish (s : State) (st : Status) : State := { s with status := st }

/-- `raise Error(code)` (00 R11, 60 R281): the error ends the command before its first write, and STATUS is all it
writes. This is the block's only exception, and there is no return from it (60 R286, R287). -/
def State.raise (s : State) (e : CmdError) : State := s.finish (Status.failed e)

/-- The shift register of an encoder (10 R34, 41 R140). -/
def State.encoder (s : State) : Encoder → BitVec 3
  | .a => s.sa
  | .b => s.sb

/-- Write the shift register of one encoder; the other keeps its value (41 R140). -/
def State.setEncoder (s : State) (sel : Encoder) (v : BitVec 3) : State :=
  match sel with
  | .a => { s with sa := v }
  | .b => { s with sb := v }

/-- A counter plus one, modulo 2 to the CNT_WIDTH (45 R249). -/
def counterSucc (cfg : Config) (c : Word) : Word := BitVec.ofNat 32 ((c.toNat + 1) % 2 ^ cfg.cntWidth)

/-- Count one message of a tag (45 R249). -/
def State.count (s : State) (cfg : Config) (tag : Tag) : State :=
  match tag with
  | .p => { s with cntP := counterSucc cfg s.cntP }
  | .w => { s with cntW := counterSucc cfg s.cntW }

/-- A 16-bit field [15:0] as a register reads it, 0 [31:16] (10 R21). -/
def lenWord (v : Half) : Word := v.setWidth 32

/-- ENC_STATE as the host reads it: SA [2:0], 0 [3], SB [6:4], 0 [31:7] (10 R21). -/
def encStateWord (sa sb : BitVec 3) : Word := (0 : BitVec 25) ++ sb ++ (0 : BitVec 1) ++ sa

/-- POLY as the host reads it: PA [3:0] and PB [7:4], hardwired, 0 [31:8] (10 R21, R35). -/
def polyWord : Word := (0 : BitVec 24) ++ polyB ++ polyA

end Sys2Proof.Machine
end

