-- ==== Sys2Proof/Machine/Params.lean ====
section
/-!
DEFINITION. The default value of every open parameter (00 R8), among them the reference interleaver generator
(40 R120).
-/

namespace Sys2Proof.Machine

/-- One step of the Park–Miller generator (40 R120). -/
def minstd (x : Nat) : Nat := (16807 * x) % (2 ^ 31 - 1)

/-- The loop of `IlvPerm` for i = n down to 1 (40 R120): each turn draws X, then swaps P[i] and P[X mod (i + 1)]. -/
def ilvLoop : (n x : Nat) → Array Nat → Array Nat
  | 0, _, p => p
  | i + 1, x, p => ilvLoop i (minstd x) (p.swapIfInBounds (i + 1) (minstd x % (i + 2)))

/-- The reference generator `IlvPerm(L)`, the default of ILV_FN (40 R120). -/
def ilvPerm (len : Nat) : List Nat := (ilvLoop (len - 1) ilvSeed (List.range len).toArray).toList

/-- The block with every open parameter at its default value (00 R8). -/
def standardConfig : Config where
  parityReading := .xorBits
  ilvFn := ilvPerm
  rsPoly := 0x11D
  rsAlpha := 0x02
  rsFcr := 0
  rsTerm := 0x2C
  lenOrder := .littleEndian
  inSize := 8197
  outSize := 8197
  bitCap := 65535
  permCap := 65535
  turboMaxText := 2730
  cntWidth := 32
  hostAddrW := 20
  hostDataW := 32

end Sys2Proof.Machine
end

