-- ==== Sys2Proof/Machine/Framer.lean ====
section
/-!
DEFINITION. The packet dispatcher and framer and the message counters (45_dispatcher.md): FRAME_P, FRAME_W, PARSE
and TX_DONE.
-/

namespace Sys2Proof.Machine

/-- FRAME_P (45 R242): reads OUT[0..127] whatever OUT_LEN is. -/
def State.frameP (s : State) : State :=
  { s.writeOut 0 (tagP ++ s.outBytes 128) with outLen := 131, status := Status.ok }

/-- FRAME_W under any parameters (45 R243). -/
def State.frameW (cfg : Config) (s : State) : State :=
  let k := ceil8 s.pktBits.toNat
  { s.writeOut 0 (tagW ++ hdrBytes cfg.lenOrder s.pktBits ++ s.outBytes k) with
    outLen := BitVec.ofNat 16 (5 + k)
    status := Status.ok }

/-- The verdict on a raw packet: its class, its payload and, for a W packet, its bit length (45 R244). -/
inductive Verdict where
  | p (payload : List Byte)
  | w (payload : List Byte) (bitLength : Half)
  | unrec
  | short
  deriving DecidableEq, Repr

/-- Classify a raw packet (45 R244): P by its tag; W by its tag with room for the header and for the payload the
header announces; SHORT where a W packet lacks either; UNREC otherwise. -/
def classify (cfg : Config) (x : List Byte) : Verdict :=
  if x.take 3 = tagP then .p (x.drop 3)
  else if x.take 3 = tagW then
    match x.drop 3 with
    | h0 :: h1 :: payload =>
      let b := hdr cfg.lenOrder h0 h1
      if payload.length < ceil8 b.toNat then .short else .w (payload.take (ceil8 b.toNat)) b
    | _ => .short
  else .unrec

/-- What PARSE writes for a verdict (45 R244–R246). -/
def State.deliver (cfg : Config) (s : State) : Verdict → State
  | .p payload =>
    ({ s.writeIn 0 payload with inLen := BitVec.ofNat 16 payload.length }.count cfg .p).finish (Status.parsed .p)
  | .w payload b =>
    ({ s.writeIn 0 payload with inLen := BitVec.ofNat 16 payload.length, pktBits := b }.count cfg .w).finish
      (Status.parsed .w)
  | .unrec => s.finish (Status.parsed .unrec)
  | .short => s.finish (Status.parsed .short)

/-- PARSE under any parameters (45 R244). -/
def State.parse (cfg : Config) (s : State) : State :=
  if cfg.inSize < s.inLen.toNat then s.raise .length
  else s.deliver cfg (classify cfg (s.inBytes s.inLen.toNat))

/-- TX_DONE under any parameters (45 R248). -/
def State.txDone (cfg : Config) (s : State) (tag : Tag) (ok : Bit) : State :=
  (if ok = 1 then s.count cfg tag else s).finish Status.ok

/-- FRAME_P (45 R242). -/
def execFrameP (s : State) : Host.Outcome State Fault Refusal :=
  .next s.frameP

/-- FRAME_W (45 R243). -/
def execFrameW (s : State) : Host.Outcome State Fault Refusal :=
  .next (s.frameW standardConfig)

/-- PARSE (45 R244). -/
def execParse (s : State) : Host.Outcome State Fault Refusal :=
  .next (s.parse standardConfig)

/-- TX_DONE (45 R248). -/
def execTxDone (tag : Tag) (ok : Bit) (s : State) : Host.Outcome State Fault Refusal :=
  .next (s.txDone standardConfig tag ok)

end Sys2Proof.Machine
end

