-- ==== Sys2Proof/Machine/Interleaver.lean ====
section
/-!
DEFINITION. The interleaver permutation generator (40_interleaver.md): the writing of a permutation to PERM, which
ILV_GEN and TURBO_ENC share (R122, R123), and ILV_GEN. The reference generator of R120 is in Machine/Params.lean.
-/

namespace Sys2Proof.Machine

/-- `PERM[k] <- P[k]` for every k below the length, and `PERM_LEN <- L` (40 R122). -/
def State.storePerm (s : State) (p : List Nat) (len : Half) : State :=
  { s.writePerm 0 (p.map (BitVec.ofNat 16)) with permLen := len }

/-- ILV_GEN under any parameters (40 R122). -/
def State.ilvGen (cfg : Config) (s : State) (len : Half) : State :=
  (s.storePerm (cfg.ilvFn len.toNat) len).finish Status.ok

/-- ILV_GEN (40 R122): it never fails. -/
def execIlvGen (len : Half) (s : State) : Host.Outcome State Fault Refusal :=
  .next (s.ilvGen standardConfig len)

end Sys2Proof.Machine
end

