-- ==== Sys2Proof/Machine/Packing.lean ====
section
/-!
DEFINITION. The bit/byte packing codec (43_packing.md): PACK and UNPACK over `bitsToBytes` and `bytesToBits`.
-/

namespace Sys2Proof.Machine

/-- PACK (43 R182). -/
def State.pack (s : State) : State :=
  let n := s.bitLen.toNat
  { s.writeOut 0 (bitsToBytes (s.bits n)) with
    outLen := BitVec.ofNat 16 (ceil8 n)
    pktBits := s.bitLen
    status := Status.ok }

/-- UNPACK under any parameters (43 R183): the LENGTH check precedes the SHORT_INPUT check (60 R282). -/
def State.unpack (cfg : Config) (s : State) : State :=
  if cfg.inSize < s.inLen.toNat then s.raise .length
  else if s.inLen.toNat < ceil8 s.pktBits.toNat then s.raise .shortInput
  else
    { s.writeBits 0 (bytesToBits (s.inBytes (ceil8 s.pktBits.toNat)) s.pktBits.toNat) with
      bitLen := s.pktBits
      status := Status.ok }

/-- PACK (43 R182): no length error is possible. -/
def execPack (s : State) : Host.Outcome State Fault Refusal :=
  .next s.pack

/-- UNPACK (43 R183). -/
def execUnpack (s : State) : Host.Outcome State Fault Refusal :=
  .next (s.unpack standardConfig)

end Sys2Proof.Machine
end

