-- ==== Sys2Proof/Machine/Galois.lean ====
section
/-!
DEFINITION. The arithmetic of GF(2^8) (44 R200), and over it the solution of a homogeneous linear system, which
the Reed–Solomon decoder uses.
-/

namespace Sys2Proof.Machine

/-- Whether a number has the one bit of a mask set. Here and in `gfRound` the operations are those of Nat by name,
which the kernel evaluates fastest. -/
def hasBit (x mask : Nat) : Bool := Nat.ble 1 (Nat.land x mask)

/-- One turn of the loop of `gf_mul`, for one bit of b (44 R200): shift r, reduce by the field polynomial when bit 8
is set, and add a when the bit of b is set. -/
def gfRound (poly a r : Nat) (bBit : Bool) : Nat :=
  let shifted := Nat.shiftLeft r 1
  let reduced := bif hasBit shifted 0x100 then Nat.xor shifted poly else shifted
  bif bBit then Nat.xor reduced a else reduced

/-- `gf_mul(a, b)`, for bit = 7 down to 0 (44 R200). -/
def gfMul (poly : Nat) (a b : Byte) : Byte :=
  let x := a.toNat
  let y := b.toNat
  let r7 := gfRound poly x 0 (hasBit y 0x80)
  let r6 := gfRound poly x r7 (hasBit y 0x40)
  let r5 := gfRound poly x r6 (hasBit y 0x20)
  let r4 := gfRound poly x r5 (hasBit y 0x10)
  let r3 := gfRound poly x r4 (hasBit y 0x08)
  let r2 := gfRound poly x r3 (hasBit y 0x04)
  let r1 := gfRound poly x r2 (hasBit y 0x02)
  BitVec.ofNat 8 (gfRound poly x r1 (hasBit y 0x01))

/-- α^n: `gf_mul` by α applied n times to 1 (44 R200). -/
def gfPow (poly : Nat) (a : Byte) : Nat → Byte
  | 0 => 1
  | n + 1 => gfMul poly (gfPow poly a n) a

/-- x, x·q, x·q², …: n terms of a geometric sequence. -/
def gfGeometric (poly : Nat) (q : Byte) : (n : Nat) → (x : Byte) → List Byte
  | 0, _ => []
  | n + 1, x => x :: gfGeometric poly q n (gfMul poly x q)

/-- The inverse of a nonzero element, a^254, since the nonzero elements of the field form a group of order 255
(44 R200); 0 for 0. -/
def gfInv (poly : Nat) (a : Byte) : Byte :=
  let a2 := gfMul poly a a
  let a3 := gfMul poly a2 a
  let a6 := gfMul poly a3 a3
  let a7 := gfMul poly a6 a
  let a14 := gfMul poly a7 a7
  let a15 := gfMul poly a14 a
  let a30 := gfMul poly a15 a15
  let a31 := gfMul poly a30 a
  let a62 := gfMul poly a31 a31
  let a63 := gfMul poly a62 a
  let a126 := gfMul poly a63 a63
  let a127 := gfMul poly a126 a
  gfMul poly a127 a127

/-- Σ_j x[j]·y[j]. -/
def gfDot (poly : Nat) : List Byte → List Byte → Byte
  | x :: xs, y :: ys => gfMul poly x y ^^^ gfDot poly xs ys
  | _, _ => 0

/-- The value at x of the polynomial whose coefficients, highest first, are `cs` (44 R203), by Horner's rule. -/
def gfEvalHigh (poly : Nat) (cs : List Byte) (x : Byte) : Byte :=
  cs.foldl (fun acc c => gfMul poly acc x ^^^ c) 0

/-- The value at x of the polynomial whose coefficients, lowest first, are `cs`. -/
def gfEvalLow (poly : Nat) (cs : List Byte) (x : Byte) : Byte :=
  cs.foldr (fun c acc => gfMul poly acc x ^^^ c) 0

/-- Row b minus the multiple of the pivot row a that clears its first entry, without that entry. -/
def gfEliminate (poly : Nat) (a b : List Byte) : List Byte :=
  let q := gfMul poly (b.headD 0) (gfInv poly (a.headD 0))
  List.zipWith (fun x y => y ^^^ gfMul poly q x) a.tail b.tail

/-- A nonzero solution x of the homogeneous system Σ_j row[j]·x[j] = 0 in n unknowns, if there is one. The first
unknown is eliminated with a row in which it occurs; where it occurs in none, it alone is a solution. -/
def gfNullVec (poly : Nat) : (n : Nat) → (rows : List (List Byte)) → Option (List Byte)
  | 0, _ => none
  | n + 1, rows =>
    match rows.find? (fun row => row.headD 0 ≠ 0) with
    | none => some (1 :: List.replicate n 0)
    | some a =>
      match gfNullVec poly n (rows.map (gfEliminate poly a)) with
      | none => none
      | some x => some (gfMul poly (gfDot poly a.tail x) (gfInv poly (a.headD 0)) :: x)

end Sys2Proof.Machine
end

