-- ==== Sys2Proof/Machine/ReedSolomon.lean ====
section
/-!
DEFINITION. The Reed–Solomon encoder and decoder (44_reed_solomon.md): the generator polynomial, the ECC by long
division, the code, the decoder as a search for the codeword within 16 that checks what it finds, RS_ENC, RS_DEC.
-/

namespace Sys2Proof.Machine

/-- The product of a polynomial, coefficients highest first, and (x + c). -/
def mulRoot (poly : Nat) (g : List Byte) (c : Byte) : List Byte :=
  List.zipWith (· ^^^ ·) (g ++ [0]) (0 :: g.map (fun x => gfMul poly x c))

/-- The roots α^(RS_FCR + i), i = 0..31, of the generator polynomial (44 R201). -/
def rsRoots (cfg : Config) : List Byte :=
  gfGeometric cfg.rsPoly cfg.rsAlpha 32 (gfPow cfg.rsPoly cfg.rsAlpha cfg.rsFcr)

/-- G[0..32], the generator polynomial, highest coefficient first (44 R201). -/
def rsGen (cfg : Config) : List Byte := (rsRoots cfg).foldl (mulRoot cfg.rsPoly) [1]

/-- Add the terms `ds` to the leading entries of `r`. -/
def xorInto : (ds r : List Byte) → List Byte
  | d :: ds, x :: r => (x ^^^ d) :: xorInto ds r
  | _, r => r

/-- One turn of the long division (44 R203): the leading coefficient c is cleared by c·g and dropped. `g` is the
generator without its leading 1. -/
def rsDivStep (poly : Nat) (g : List Byte) : List Byte → List Byte
  | [] => []
  | c :: r => if c = 0 then r else xorInto (g.map (fun x => gfMul poly x c)) r

/-- n turns of the long division (44 R203). -/
def rsDivide (poly : Nat) (g : List Byte) : Nat → List Byte → List Byte
  | 0, r => r
  | n + 1, r => rsDivide poly g n (rsDivStep poly g r)

/-- The remainder by g(x) of a polynomial of 128 coefficients, highest first: 32 coefficients (44 R203). -/
def rsRemainder (cfg : Config) (r : List Byte) : List Byte := rsDivide cfg.rsPoly (rsGen cfg).tail 96 r

/-- `Pad96(t, n)` for a text t of n bytes (44 R202). -/
def pad96 (cfg : Config) (t : List Byte) : List Byte :=
  if t.length ≤ 95 then t ++ cfg.rsTerm :: List.replicate (95 - t.length) 0 else t.take 96

/-- `RsEcc(m)` (44 R203). -/
def rsEcc (cfg : Config) (m : List Byte) : List Byte := rsRemainder cfg (m ++ List.replicate 32 0)

/-- Membership in the code: 128 bytes with C(x) ≡ 0 mod g(x) (44 R205). -/
def isCodeword (cfg : Config) (c : List Byte) : Bool :=
  c.length = 128 && rsRemainder cfg c = List.replicate 32 0

/-- The number of positions at which two frames differ (44 R205). -/
def distance : List Byte → List Byte → Nat
  | x :: xs, y :: ys => (if x ≠ y then 1 else 0) + distance xs ys
  | _, _ => 0

/-- The syndromes S[i] = R(α^(RS_FCR + i)), i = 0..31, of a received word. -/
def rsSyndromes (cfg : Config) (r : List Byte) : List Byte := (rsRoots cfg).map (gfEvalHigh cfg.rsPoly r)

/-- α^(127 - p), the power of the position p in a frame: byte p is the coefficient of x^(127 - p) (44 R203). -/
def rsLocators (cfg : Config) : List Byte := (gfGeometric cfg.rsPoly cfg.rsAlpha 128 1).reverse

/-- The linear system whose nonzero solutions Λ, lowest coefficient first, vanish at every error's locator:
Σ_j Λ[j]·S[i + j] = 0 for i = 0..15. -/
def rsKeyRows (s : List Byte) : List (List Byte) := (List.range 16).map (fun i => (s.drop i).take 17)

/-- The locators at which Λ vanishes, with their positions. -/
def rsErrorSites (cfg : Config) (lam : List Byte) : List (Nat × Byte) :=
  ((List.range 128).zip (rsLocators cfg)).filter (fun site => gfEvalLow cfg.rsPoly lam site.2 = 0)

/-- The linear system for the error values at the sites: y[0]·S[i] + Σ_p y[p]·X_p^(RS_FCR + i) = 0, i = 0..31. -/
def rsValueRows (cfg : Config) (s : List Byte) (sites : List (Nat × Byte)) : List (List Byte) :=
  let columns := sites.map (fun site =>
    gfGeometric cfg.rsPoly site.2 32 (gfPow cfg.rsPoly site.2 cfg.rsFcr))
  (List.range 32).map (fun i => s.getD i 0 :: columns.map (fun col => col.getD i 0))

/-- The received word with the given errors added at their positions, which rise. -/
def rsRepair : (p : Nat) → (errors : List (Nat × Byte)) → List Byte → List Byte
  | _, _, [] => []
  | _, [], r => r
  | p, (q, e) :: errors, x :: r =>
    if p = q then (x ^^^ e) :: rsRepair (p + 1) errors r else x :: rsRepair (p + 1) ((q, e) :: errors) r

/-- The word the error sites and values point at: the only frame that can be a codeword within distance 16. -/
def rsCandidate (cfg : Config) (r : List Byte) : Option (List Byte) :=
  let s := rsSyndromes cfg r
  match gfNullVec cfg.rsPoly 17 (rsKeyRows s) with
  | none => none
  | some lam =>
    let sites := rsErrorSites cfg lam
    match gfNullVec cfg.rsPoly (sites.length + 1) (rsValueRows cfg s sites) with
    | some (y0 :: ys) =>
      let scale := gfInv cfg.rsPoly y0
      some (rsRepair 0 (List.zipWith (fun site y => (site.1, gfMul cfg.rsPoly y scale)) sites ys) r)
    | _ => none

/-- The message of the codeword within distance 16 of r, if there is one (44 R206, first branch). The candidate is
returned only after it is checked to be such a codeword. -/
def rsNearest (cfg : Config) (r : List Byte) : Option (List Byte) :=
  match rsCandidate cfg r with
  | none => none
  | some c => if isCodeword cfg c && distance r c ≤ 16 then some (c.take 96) else none

/-- The 96 bytes drawn when no codeword is within distance 16: the next bytes of the draw (44 R206, log 4). -/
def rsDrawn (draws : Nat) : List Byte := (List.range 96).map (fun k => Config.drawByte (draws + k))

/-- `RsDecode(r)`, with the number of draws taken so far, and the number after it (44 R206). -/
def rsDecode (cfg : Config) (draws : Nat) (r : List Byte) : List Byte × Nat :=
  match rsNearest cfg r with
  | some m => (m, draws)
  | none => (rsDrawn draws, draws + 96)

/-- RS_ENC under any parameters (44 R204). -/
def State.rsEnc (cfg : Config) (s : State) : State :=
  if cfg.inSize < s.inLen.toNat then s.raise .length
  else
    let m := pad96 cfg (s.inBytes s.inLen.toNat)
    { s.writeOut 0 (m ++ rsEcc cfg m) with outLen := 128, status := Status.ok }

/-- RS_DEC under any parameters (44 R207). -/
def State.rsDec (cfg : Config) (s : State) : State :=
  if cfg.inSize < s.inLen.toNat then s.raise .length
  else
    let y := rsDecode cfg s.draws (s.inBytes 128)
    { s.writeOut 0 y.1 with outLen := 96, draws := y.2, status := Status.decoded s.inLen }

/-- RS_ENC (44 R204). -/
def execRsEnc (s : State) : Host.Outcome State Fault Refusal :=
  .next (s.rsEnc standardConfig)

/-- RS_DEC (44 R207). -/
def execRsDec (s : State) : Host.Outcome State Fault Refusal :=
  .next (s.rsDec standardConfig)

end Sys2Proof.Machine
end

