-- ==== Sys2Proof/Machine/ConvEncoder.lean ====
section
/-!
DEFINITION. The convolutional encoders A and B (41_conv_encoder.md): one step of the shift register under each
parity reading (R141, R142), a run of steps, CONV_RESET and CONV_PARITY.
-/

namespace Sys2Proof.Machine

/-- The XOR of all bits of a term, popcount(t) mod 2 (41 R142, XORBITS). -/
def xorOfBits (t : Byte) : Bit :=
  t.extractLsb' 0 1 ^^^ t.extractLsb' 1 1 ^^^ t.extractLsb' 2 1 ^^^ t.extractLsb' 3 1 ^^^
    t.extractLsb' 4 1 ^^^ t.extractLsb' 5 1 ^^^ t.extractLsb' 6 1 ^^^ t.extractLsb' 7 1

/-- `reduce_i(t)` (41 R142). -/
def reduceTerm (reading : ParityReading) (i : Nat) (t : Byte) : Bit :=
  match reading with
  | .xorBits => xorOfBits t
  | .nonZero => if t ≠ 0 then 1 else 0
  | .bitI => t.extractLsb' i 1

/-- The working value {S, b} (41 R141). -/
def workingValue (st : BitVec 3) (b : Bit) : BitVec 4 := st ++ b

/-- The AND term of index i: the working value against the polynomial shifted left by i, in 8 bits (41 R141). -/
def convTerm (g w : BitVec 4) (i : Nat) : Byte := w.setWidth 8 &&& (g.setWidth 8 <<< i)

/-- The parity bit of one step, the XOR of the four reduced terms (41 R141). -/
def convParityBit (reading : ParityReading) (g w : BitVec 4) : Bit :=
  reduceTerm reading 0 (convTerm g w 0) ^^^ reduceTerm reading 1 (convTerm g w 1) ^^^
    reduceTerm reading 2 (convTerm g w 2) ^^^ reduceTerm reading 3 (convTerm g w 3)

/-- `ConvStep(S, g, b)`: the parity bit and the next state, the low three bits of the working value (41 R141). -/
def convStep (reading : ParityReading) (st : BitVec 3) (g : BitVec 4) (b : Bit) : Bit × BitVec 3 :=
  (convParityBit reading g (workingValue st b), (workingValue st b).setWidth 3)

/-- The parity bits of an encoder fed a bit sequence in order (42 R161, steps 3 and 5). -/
def convParities (reading : ParityReading) (g : BitVec 4) : BitVec 3 → List Bit → List Bit
  | _, [] => []
  | st, b :: bits => (convStep reading st g b).1 :: convParities reading g (convStep reading st g b).2 bits

/-- The state of an encoder after a bit sequence (41 R141). -/
def convFinal (reading : ParityReading) (g : BitVec 4) (st : BitVec 3) (bits : List Bit) : BitVec 3 :=
  bits.foldl (fun st b => (convStep reading st g b).2) st

/-- The hardwired polynomial of an encoder (10 R35, 41 R140). -/
def encoderPoly : Encoder → BitVec 4
  | .a => polyA
  | .b => polyB

/-- CONV_RESET (41 R144). -/
def State.convReset (s : State) (sel : Encoder) : State :=
  (s.setEncoder sel 0).finish Status.ok

/-- CONV_PARITY under any parameters (41 R145). -/
def State.convParity (cfg : Config) (s : State) (sel : Encoder) (bit : Bit) : State :=
  let r := convStep cfg.parityReading (s.encoder sel) (encoderPoly sel) bit
  { s.setEncoder sel r.2 with parity := r.1, status := Status.ok }

/-- CONV_RESET (41 R144). -/
def execConvReset (sel : Encoder) (s : State) : Host.Outcome State Fault Refusal :=
  .next (s.convReset sel)

/-- CONV_PARITY (41 R145). -/
def execConvParity (sel : Encoder) (bit : Bit) (s : State) : Host.Outcome State Fault Refusal :=
  .next (s.convParity standardConfig sel bit)

end Sys2Proof.Machine
end

