-- ==== Sys2Proof/Machine/Turbo.lean ====
section
/-!
DEFINITION. The turbo-style rate-1/3 encoder (42_turbo_codec.md). There is no decoder (R167).
-/

namespace Sys2Proof.Machine

/-- `permuted[i] = original[interleaver[i]]` (42 R161, step 4). -/
def permuteBits (u : List Bit) (p : List Nat) : List Bit :=
  let original := u.toArray
  p.map (fun j => original.getD j 0)

/-- The output triples in original order (42 R161, step 6). -/
def triples : List Bit → List Bit → List Bit → List Bit
  | u :: us, p :: ps, q :: qs => u :: p :: q :: triples us ps qs
  | _, _, _ => []

/-- The codeword of a bit sequence u under an interleaver permutation p, both encoders starting from 0 (42 R161,
R162). -/
def turboCodeword (cfg : Config) (u : List Bit) (p : List Nat) : List Bit :=
  triples u (convParities cfg.parityReading polyA 0 u) (convParities cfg.parityReading polyB 0 (permuteBits u p))

/-- TURBO_ENC of a text of n bytes that the length check passed, under any parameters (42 R161). -/
def State.turboStore (cfg : Config) (s : State) (n : Nat) : State :=
  let u := textBits (s.inBytes n)
  let p := cfg.ilvFn (8 * n)
  let t := (s.writeBits 0 (turboCodeword cfg u p)).storePerm p (BitVec.ofNat 16 (8 * n))
  { t with
    bitLen := BitVec.ofNat 16 (3 * (8 * n))
    sa := convFinal cfg.parityReading polyA 0 u
    sb := convFinal cfg.parityReading polyB 0 (permuteBits u p)
    status := Status.ok }

/-- TURBO_ENC under any parameters (42 R161). -/
def State.turboEnc (cfg : Config) (s : State) : State :=
  if cfg.turboMaxText < s.inLen.toNat then s.raise .length
  else s.turboStore cfg s.inLen.toNat

/-- TURBO_ENC (42 R161). -/
def execTurboEnc (s : State) : Host.Outcome State Fault Refusal :=
  .next (s.turboEnc standardConfig)

end Sys2Proof.Machine
end

