-- ==== Sys2Proof/Machine/Commands.lean ====
section
/-!
DEFINITION. The commands under any parameters (00 R8, 10 R38), as the bus runs them: the meanings `exec` has under the
default parameters, with the configuration as an argument.
-/

namespace Sys2Proof.Machine

/-- The command `i` on a block with the parameters `cfg`. At `standardConfig` it is `exec i`
(`execWith_standardConfig` in Laws/Exec.lean). -/
def execWith (cfg : Config) (i : Instr) (s : State) : Host.Outcome State Fault Refusal :=
  match i with
  | .ilvGen len => .next (s.ilvGen cfg len)
  | .convReset sel => .next (s.convReset sel)
  | .convParity sel bit => .next (s.convParity cfg sel bit)
  | .turboEnc => .next (s.turboEnc cfg)
  | .pack => .next s.pack
  | .unpack => .next (s.unpack cfg)
  | .rsEnc => .next (s.rsEnc cfg)
  | .rsDec => .next (s.rsDec cfg)
  | .frameP => .next s.frameP
  | .frameW => .next (s.frameW cfg)
  | .parse => .next (s.parse cfg)
  | .txDone tag ok => .next (s.txDone cfg tag ok)

end Sys2Proof.Machine
end

