-- ==== Sys2Proof/Machine/Bus.lean ====
section
/-!
DEFINITION. The host address space (20_memory.md): the map, the admitted accesses, what a read returns and a write
does, the bus error, the execution of a command word written to CMD, the platform's reset, and the events of the
host and the platform, one per step.
-/

namespace Sys2Proof.Machine

/-- The registers of the map, one per 4 bytes from 0x00000 on (10 R21). -/
inductive Reg where
  | cmd
  | status
  | result
  | inLen
  | outLen
  | bitLen
  | pktBits
  | permLen
  | cntP
  | cntW
  | encState
  | poly
  deriving DecidableEq, Repr

/-- The register at a word index (10 R21). -/
def regAt : Nat → Option Reg
  | 0 => some .cmd
  | 1 => some .status
  | 2 => some .result
  | 3 => some .inLen
  | 4 => some .outLen
  | 5 => some .bitLen
  | 6 => some .pktBits
  | 7 => some .permLen
  | 8 => some .cntP
  | 9 => some .cntW
  | 10 => some .encState
  | 11 => some .poly
  | _ => none

/-- What an address names: a register or one element of a buffer (20 R60). -/
inductive Place where
  | reg (r : Reg)
  | input (k : Nat)
  | output (k : Nat)
  | bit (i : Nat)
  | perm (i : Nat)
  deriving DecidableEq, Repr

/-- The bits a transaction of a width moves (20 R60). -/
def Width.bits : Width → Nat
  | .w8 => 8
  | .w16 => 16
  | .w32 => 32

/-- The map's table (20 R60): the place an access of a width at an address reaches, or none where the address is
unmapped, the width is not the region's, or the address is not aligned to it (20 R66). DESIGN CHOICE: the table gives
the ends of the default sizes; here a buffer's region begins at the table's address and ends with the last element of
a block's own IN_SIZE, OUT_SIZE, BIT_CAP or PERM_CAP (log 12). -/
def placeAt (cfg : Config) (w : Width) (n : Nat) : Option Place :=
  match w with
  | .w32 => if n % 4 = 0 then (regAt (n / 4)).map .reg else none
  | .w16 => if n % 2 = 0 ∧ 0x80000 ≤ n ∧ n < 0x80000 + 2 * cfg.permCap then some (.perm ((n - 0x80000) / 2)) else none
  | .w8 =>
    if 0x10000 ≤ n ∧ n < 0x10000 + cfg.inSize then some (.input (n - 0x10000))
    else if 0x20000 ≤ n ∧ n < 0x20000 + cfg.outSize then some (.output (n - 0x20000))
    else if 0x40000 ≤ n ∧ n < 0x40000 + cfg.bitCap then some (.bit (n - 0x40000))
    else none

/-- The place a transaction reaches: one on the map, with an address of HOST_ADDR_W bits, in a data word of
HOST_DATA_W bits (20 R60; log 5). -/
def locate (cfg : Config) (w : Width) (a : Nat) : Option Place :=
  if a < 2 ^ cfg.hostAddrW ∧ w.bits ≤ cfg.hostDataW then placeAt cfg w a else none

/-- The value of a register on the bus, or none for CMD, which cannot be read (10 R21, R22; 20 R61). -/
def State.readReg (s : State) : Reg → Option Word
  | .cmd => none
  | .status => some s.status.word
  | .result => some (s.parity.setWidth 32)
  | .inLen => some (lenWord s.inLen)
  | .outLen => some (lenWord s.outLen)
  | .bitLen => some (lenWord s.bitLen)
  | .pktBits => some (lenWord s.pktBits)
  | .permLen => some (lenWord s.permLen)
  | .cntP => some s.cntP
  | .cntW => some s.cntW
  | .encState => some (encStateWord s.sa s.sb)
  | .poly => some polyWord

/-- What a host read of a place returns (20 R61–R65). -/
def State.readPlace (s : State) : Place → Option Word
  | .reg r => s.readReg r
  | .input k => some ((s.inAt k).setWidth 32)
  | .output k => some ((s.outAt k).setWidth 32)
  | .bit i => some ((s.bitAt i).setWidth 32)
  | .perm i => some ((s.permAt i).setWidth 32)

/-- The execution of a command word (10 R22, 30 R97): the command it decodes to, or the decoding error in STATUS. -/
def execWord (cfg : Config) (v : Word) (s : State) : Host.Outcome State Fault Refusal :=
  match decode v with
  | .ok i => execWith cfg i s
  | .error e => .next (s.raise e)

/-- What a host write to a register does: CMD executes a command; the RW registers store their 16-bit field; every
other register is read-only (10 R21, 20 R61). -/
def State.writeReg (cfg : Config) (s : State) (v : Word) : Reg → Host.Outcome State Fault Refusal
  | .cmd => execWord cfg v s
  | .inLen => .next { s with inLen := v.setWidth 16 }
  | .bitLen => .next { s with bitLen := v.setWidth 16 }
  | .pktBits => .next { s with pktBits := v.setWidth 16 }
  | .status => .fault .busError
  | .result => .fault .busError
  | .outLen => .fault .busError
  | .permLen => .fault .busError
  | .cntP => .fault .busError
  | .cntW => .fault .busError
  | .encState => .fault .busError
  | .poly => .fault .busError

/-- What a host write to a place does (20 R61–R65): OUT and PERM are read-only, BITMEM stores bit 0. -/
def State.writePlace (cfg : Config) (s : State) (v : Word) : Place → Host.Outcome State Fault Refusal
  | .reg r => s.writeReg cfg v r
  | .input k => .next (s.writeIn k [v.setWidth 8])
  | .bit i => .next (s.writeBits i [v.setWidth 1])
  | .output _ => .fault .busError
  | .perm _ => .fault .busError

/-- One host transaction (20 R60–R66): a read answers in `resp` and changes nothing of the block; an access the map
does not admit is a bus error. -/
def transact (cfg : Config) (s : State) : HostTxn → Host.Outcome State Fault Refusal
  | .read w a =>
    match (locate cfg w a).bind s.readPlace with
    | some v => .next { s with resp := some v }
    | none => .fault .busError
  | .write w a v =>
    match locate cfg w a with
    | some place => s.writePlace cfg v place
    | none => .fault .busError

/-- The block reset during a run (70 R310): every register at its reset value and fresh draws in every buffer. The
events still to come and the draws already taken are the environment's and stay (log 2). -/
def State.restart (s : State) : State :=
  { State.reset with boot := s.boot + 1, draws := s.draws, host := s.host }

/-- Take the next event off the queue; the answer of the transaction before it is gone (20 R72). -/
def State.takeEvent (s : State) (rest : List HostEvent) : State := { s with host := rest, resp := none }

/-- One event: the next one in the order the host issues them (20 R72). With none left the block holds its state
(60 R294, 70 R322). -/
def runEvent (cfg : Config) (s : State) : Host.Outcome State Fault Refusal :=
  match s.host with
  | [] => .next s
  | .reset :: rest => .next (s.takeEvent rest).restart
  | .txn t :: rest => transact cfg (s.takeEvent rest) t

end Sys2Proof.Machine
end

