-- ==== Sys2Proof/Machine/Dispatch.lean ====
section
/-!
DEFINITION. The command each instruction executes (30 R93), one arm per constructor.
-/

namespace Sys2Proof.Machine

def exec (i : Instr) (s : State) : Host.Outcome State Fault Refusal :=
  match i with
  | .ilvGen len => Sys2Proof.Machine.execIlvGen len s
  | .convReset sel => Sys2Proof.Machine.execConvReset sel s
  | .convParity sel bit => Sys2Proof.Machine.execConvParity sel bit s
  | .turboEnc => Sys2Proof.Machine.execTurboEnc s
  | .pack => Sys2Proof.Machine.execPack s
  | .unpack => Sys2Proof.Machine.execUnpack s
  | .rsEnc => Sys2Proof.Machine.execRsEnc s
  | .rsDec => Sys2Proof.Machine.execRsDec s
  | .frameP => Sys2Proof.Machine.execFrameP s
  | .frameW => Sys2Proof.Machine.execFrameW s
  | .parse => Sys2Proof.Machine.execParse s
  | .txDone tag ok => Sys2Proof.Machine.execTxDone tag ok s

end Sys2Proof.Machine
end

