-- ==== Sys2Proof/Machine/Step.lean ====
section
/-!
DEFINITION. One step of the machine: one event of the host or the platform, and with a write to CMD one whole
command (00 R6, 20 R72).
-/

namespace Sys2Proof.Machine

/-- One step of the block with the default parameters (00 R8; log 9). -/
def step (s : State) : Host.Outcome State Fault Refusal := runEvent standardConfig s

/-- The command word `w` placed where the next step takes it: as the host's next transaction, a 32-bit write to CMD
at 0x00000 (10 R22). The block has no program counter and no program memory (10 R20; log 1). -/
def State.withFetchWord (s : State) (nbits w : Nat) : State :=
  { s with host := .txn (.write .w32 0x00000 (BitVec.ofNat 32 (w % 2 ^ nbits))) :: s.host }

end Sys2Proof.Machine
end

