-- ==== Sys2Proof/Safety.lean ====
section
/-!
DEFINITION. The terms in which claims speak of a good state and a safe transaction: which transactions the map
admits, written from the map itself (20 R60, R66), and what every state of a run has in common.
-/

namespace Sys2Proof.Machine

/-- The transactions the map admits (20 R60–R66), region by region: width, alignment, range and direction. -/
def admitted : HostTxn → Bool
  | .read .w32 a => a ≤ 0x0002F && a % 4 = 0 && a ≠ 0x00000
  | .write .w32 a _ => a = 0x00000 || a = 0x0000C || a = 0x00014 || a = 0x00018
  | .read .w8 a =>
    (0x10000 ≤ a && a ≤ 0x12004) || (0x20000 ≤ a && a ≤ 0x22004) ||
      (0x40000 ≤ a && a ≤ 0x4FFFE)
  | .write .w8 a _ => (0x10000 ≤ a && a ≤ 0x12004) || (0x40000 ≤ a && a ≤ 0x4FFFE)
  | .read .w16 a => 0x80000 ≤ a && a ≤ 0x9FFFD && a % 2 = 0
  | .write .w16 _ _ => false

/-- Every buffer is in the canonical form, with no index outside it (10 R36, 20 R71). -/
def State.buffersWf (s : State) : Bool :=
  Buf.wf 8197 s.inBuf && Buf.wf 8197 s.outBuf && Buf.wf 65535 s.bitMem && Buf.wf 65535 s.permBuf

/-- STATUS holds a combination a command writes (10 R23–R26): ERR at most 4, PCLASS at most 4, no warning and no
class beside an error, no class beside a warning. -/
def Status.legal (st : Status) : Bool :=
  st.err ≤ 4 && st.pclass ≤ 4 && (st.err = 0 || (st.warnLen = 0 && st.pclass = 0)) &&
    (st.warnLen = 0 || st.pclass = 0)

/-- What holds of every state of a run: canonical buffers, a legal STATUS, and OUT_LEN within OUT (10 R29, R36). -/
def State.wf (s : State) : Bool :=
  s.buffersWf && s.status.legal && s.outLen.toNat ≤ 8197

/-- PERM[0..PERM_LEN-1] is a permutation of [0, PERM_LEN) (10 R32, R36). -/
def State.permValid (s : State) : Prop :=
  ((s.permEntries s.permLen.toNat).map BitVec.toNat).Perm (List.range s.permLen.toNat)

/-- Bit i of the text in IN, most significant bit first per byte (42 R160). -/
def State.textBit (s : State) (i : Nat) : Bit := (s.inAt (i / 8)).extractLsb' (7 - i % 8) 1

end Sys2Proof.Machine
end

