-- ==== Sys2Proof/Certificates/Slice0/Obligations.lean ====
section
/-!
DEFINITION. The statements for the provers. A frame is written `t = { s with f := t.f, … }`: t differs from s in the
fields named and in no other. Where a statement says what a buffer holds after a command, it says it for every
index, through the model's read of one element.
-/

open Sys2Proof Sys2Proof.Machine

/-! ### Command words (30_encoding.md) -/

/-- 30 R90–R94: the word of a command, with every operand at every value, decodes to that command. -/
def Obligations.EncodedCommandsDecodeToThemselves : Prop :=
  ∀ i : Instr, decode (encode i) = .ok i

/-- 30 R94, R97: a command has one word; a word that decodes to it is that word. -/
def Obligations.DecodedWordsEncodeToThemselves : Prop :=
  ∀ (v : Word) (i : Instr), decode v = .ok i → encode i = v

/-- 30 R94, R95: which words are illegal, which have a reserved field set, and that every other word is a command
whose row of the table it matches. The rows are the match and mask values of R94. -/
def Obligations.EveryWordIsCommandIllegalOrReserved : Prop :=
  ∀ v : Word,
    let opc : Byte := v.extractLsb' 0 8
    (decode v = .error .illegalOpcode ↔ opc = 0x00 ∨ 0x0D ≤ opc) ∧
    (decode v = .error .reservedField ↔
      (0x01 ≤ opc ∧ opc ≤ 0x0C) ∧ ∀ i : Instr, v &&& i.tableMask ≠ i.tableMatch) ∧
    (∀ i, decode v = .ok i → v &&& i.tableMask = i.tableMatch) ∧
    decode v ≠ .error .length ∧ decode v ≠ .error .shortInput

/-- 30 R98: words of the syntax table decode to the commands they spell. -/
def Obligations.SyntaxTableWordsDecode : Prop :=
  decode 0x00080001 = .ok (.ilvGen 8) ∧ decode 0xFFFF0001 = .ok (.ilvGen 65535) ∧
  decode 0x00000002 = .ok (.convReset .a) ∧ decode 0x00000102 = .ok (.convReset .b) ∧
  decode 0x00000203 = .ok (.convParity .a 1) ∧ decode 0x00000103 = .ok (.convParity .b 0) ∧
  decode 0x00000004 = .ok .turboEnc ∧ decode 0x00000005 = .ok .pack ∧ decode 0x00000006 = .ok .unpack ∧
  decode 0x00000007 = .ok .rsEnc ∧ decode 0x00000008 = .ok .rsDec ∧ decode 0x00000009 = .ok .frameP ∧
  decode 0x0000000A = .ok .frameW ∧ decode 0x0000000B = .ok .parse ∧ decode 0x0000030C = .ok (.txDone .w 1) ∧
  decode 0x0000020C = .ok (.txDone .p 1)

/-! ### A step (00 R6, 10 R22, 20 R72) -/

/-- 20 R72, 10 R22, 30 R97, 60 R281, 20 R66: a step runs the host's next transaction, whatever it is, on the state
with that transaction taken off the host's queue and no answer. Where it is a 32-bit write to CMD of a word that
decodes to a command, that is the command's execution; a word that does not decode leaves its error code in STATUS; a
read of CMD, of any width, is a bus error. That the host's transactions stand in a queue of the state, with the latest
answer beside it, is the model's choice (log 1). -/
def Obligations.StepExecutesTheWordWrittenToCmd : Prop :=
  (∀ (s : State) (x : HostTxn) (rest : List HostEvent), s.host = .txn x :: rest →
    step s = transact standardConfig { s with host := rest, resp := none } x) ∧
  (∀ (s : State) (v : Word) (rest : List HostEvent), s.host = .txn (.write .w32 0x00000 v) :: rest →
    (∀ i : Instr, decode v = .ok i → step s = exec i { s with host := rest, resp := none }) ∧
    (∀ e : CmdError, decode v = .error e → step s = .next { s with
      host := rest, resp := none,
      status := { err := if e = .illegalOpcode then 1 else 2, warnLen := 0, pclass := 0 } })) ∧
  ∀ (s : State) (w : Width) (rest : List HostEvent), s.host = .txn (.read w 0x00000) :: rest →
    step s = .fault .busError

/-- 00 R8, 10 R38, 41 R142, R145: a block runs every command under its own parameters: a command word written to CMD
is the command under them, `exec` is the command under the default ones, and the parity a CONV_PARITY leaves is that
of the block's own reading. -/
def Obligations.CommandsRunUnderTheBlocksParameters : Prop :=
  ∀ (cfg : Config) (s : State), cfg.wf = true →
    (∀ i : Instr, transact cfg s (.write .w32 0x00000 (encode i)) = execWith cfg i s) ∧
    (∀ i : Instr, execWith standardConfig i s = exec i s) ∧
    ∀ (sel : Encoder) (bit : Bit), ∃ t, transact cfg s (.write .w32 0x00000 (encode (.convParity sel bit))) = .next t ∧
      t.parity = (convStep cfg.parityReading (s.encoder sel) (encoderPoly sel) bit).1 ∧
      t.encoder sel = (convStep cfg.parityReading (s.encoder sel) (encoderPoly sel) bit).2 ∧
      (∀ other, other ≠ sel → t.encoder other = s.encoder other) ∧
      t = { s with parity := t.parity, sa := t.sa, sb := t.sb, status := { err := 0, warnLen := 0, pclass := 0 } }

/-- 60 R281: every command word completes, and one that leaves an error in STATUS.ERR leaves WARN_LEN and PCLASS 0
and every other field as it was. -/
def Obligations.FailedCommandWordsWriteStatusOnly : Prop :=
  ∀ (v : Word) (s : State), ∃ t, execWord standardConfig v s = .next t ∧
    (t.status.err ≠ 0 → t = { s with status := { err := t.status.err, warnLen := 0, pclass := 0 } })

/-- 60 R280, R282: the code a command word leaves in STATUS.ERR, by cause and in the order of priority; with none of
the causes it is 0. -/
def Obligations.CommandWordsFailExactlyForTheListedCauses : Prop :=
  ∀ (v : Word) (s : State),
    let opc : Byte := v.extractLsb' 0 8
    let illegal := opc = 0x00 ∨ 0x0D ≤ opc
    let reserved := ∀ i : Instr, v &&& i.tableMask ≠ i.tableMatch
    let tooLong := ((opc = 0x06 ∨ opc = 0x07 ∨ opc = 0x08 ∨ opc = 0x0B) ∧ 8197 < s.inLen.toNat) ∨
      (opc = 0x04 ∧ 2730 < s.inLen.toNat)
    let tooShort := opc = 0x06 ∧ s.inLen.toNat < (s.pktBits.toNat + 7) / 8
    ∃ t, execWord standardConfig v s = .next t ∧
      (illegal → t.status.err = 1) ∧
      (¬ illegal → reserved → t.status.err = 2) ∧
      (¬ illegal → ¬ reserved → tooLong → t.status.err = 3) ∧
      (¬ illegal → ¬ reserved → ¬ tooLong → tooShort → t.status.err = 4) ∧
      (¬ illegal → ¬ reserved → ¬ tooLong → ¬ tooShort → t.status.err = 0)

/-- Log 7 (60 R294, 70 R322): with no event left the block holds its state. The model's choice. -/
def Obligations.StepWithoutEventsHoldsTheState : Prop :=
  ∀ s : State, s.host = [] → step s = .next s

/-- A step never refuses, and it faults only with the bus error of 20 R66. -/
def Obligations.StepsStopOnlyOnBusErrors : Prop :=
  ∀ s : State, (∃ t, step s = .next t) ∨
    (step s = .fault .busError ∧ ∃ t rest, s.host = .txn t :: rest ∧ admitted t = false)

/-! ### Reset (70_reset_and_hazards.md) -/

/-- 70 R310 (a), 10 R21: what the host reads of each readable register right after reset. -/
def Obligations.ResetRegistersReadTheirTableValues : Prop :=
  let reads (a : Nat) (v : Word) : Prop :=
    transact standardConfig State.reset (.read .w32 a) = .next { State.reset with resp := some v }
  reads 0x00004 0 ∧ reads 0x00008 0 ∧ reads 0x0000C 0 ∧ reads 0x00010 0 ∧ reads 0x00014 0 ∧ reads 0x00018 0 ∧
  reads 0x0001C 0 ∧ reads 0x00020 0 ∧ reads 0x00024 0 ∧ reads 0x00028 0 ∧ reads 0x0002C 0x000000FB

/-- 70 R310 (b), log 3: right after reset every buffer element is the draw of its index. The form of the draw, an
opaque function of the reset's number and the index, is the model's. -/
def Obligations.ResetBuffersHoldDraws : Prop :=
  ∀ k : Nat, State.reset.inAt k = Config.resetIn 0 k ∧ State.reset.outAt k = Config.resetOut 0 k ∧
    State.reset.bitAt k = Config.resetBit 0 k ∧ State.reset.permAt k = Config.resetPerm 0 k

/-- 70 R310, log 2: a reset during a run leaves every register at its reset value, every buffer element at a fresh
draw, and the events to come in the queue. That the platform's reset is an event of the queue is the model's choice.
-/
def Obligations.PlatformResetRestoresTheBlock : Prop :=
  ∀ (s : State) (rest : List HostEvent), s.host = .reset :: rest →
    ∃ t, step s = .next t ∧
      t = { State.reset with boot := s.boot + 1, draws := s.draws, host := rest } ∧
      ∀ k, t.inAt k = Config.resetIn (s.boot + 1) k ∧ t.outAt k = Config.resetOut (s.boot + 1) k ∧
        t.bitAt k = Config.resetBit (s.boot + 1) k ∧ t.permAt k = Config.resetPerm (s.boot + 1) k

/-! ### The host's transactions (20_memory.md) -/

/-- 20 R66: a transaction is a bus error exactly when the map does not admit it; an admitted one gives a next
state. -/
def Obligations.BusErrorsAreTheUnadmittedTransactions : Prop :=
  ∀ (s : State) (t : HostTxn),
    (admitted t = false → transact standardConfig s t = .fault .busError) ∧
    (admitted t = true → ∃ s', transact standardConfig s t = .next s')

/-- 10 R21, R35, 20 R61: what a register read returns, bit field by bit field; POLY reads 0xFB in every state. -/
def Obligations.RegisterReadsFollowTheLayout : Prop :=
  ∀ s : State,
    let reads (a : Nat) (v : Word) : Prop :=
      transact standardConfig s (.read .w32 a) = .next { s with resp := some v }
    reads 0x00004 ((0 : BitVec 24) ++ s.status.pclass ++ s.status.warnLen ++ s.status.err) ∧
    reads 0x00008 ((0 : BitVec 31) ++ s.parity) ∧ reads 0x0000C ((0 : Half) ++ s.inLen) ∧
    reads 0x00010 ((0 : Half) ++ s.outLen) ∧ reads 0x00014 ((0 : Half) ++ s.bitLen) ∧
    reads 0x00018 ((0 : Half) ++ s.pktBits) ∧ reads 0x0001C ((0 : Half) ++ s.permLen) ∧
    reads 0x00020 s.cntP ∧ reads 0x00024 s.cntW ∧
    reads 0x00028 ((0 : BitVec 25) ++ s.sb ++ (0 : BitVec 1) ++ s.sa) ∧ reads 0x0002C 0x000000FB

/-- 20 R62: an 8-bit read at 0x10000 + k returns IN[k]; an 8-bit write there stores IN[k] and leaves every other
element and every register, IN_LEN among them. That a narrow access's data stands in the low bits of the bus word,
with zeros above in an answer, is the model's reading (log 10). -/
def Obligations.HostAccessToIn : Prop :=
  ∀ (s : State) (k : Nat) (v : Word), k ≤ 8196 → let a : Nat := 0x10000 + k
    transact standardConfig s (.read .w8 a) = .next { s with resp := some ((s.inAt k).setWidth 32) } ∧
    ∃ t, transact standardConfig s (.write .w8 a v) = .next t ∧
      t.inAt k = v.extractLsb' 0 8 ∧ (∀ j, j ≠ k → t.inAt j = s.inAt j) ∧ t = { s with inBuf := t.inBuf }

/-- 20 R63: an 8-bit read at 0x20000 + k returns OUT[k]; a host write there is a bus error, and a host write anywhere
but to CMD leaves OUT as it is. That a narrow access's data stands in the low bits of the bus word, with zeros above
in an answer, is the model's reading (log 10). -/
def Obligations.HostAccessToOut : Prop :=
  (∀ (s : State) (k : Nat) (v : Word) (w : Width), k ≤ 8196 → let a : Nat := 0x20000 + k
    transact standardConfig s (.read .w8 a) = .next { s with resp := some ((s.outAt k).setWidth 32) } ∧
    transact standardConfig s (.write w a v) = .fault .busError) ∧
  ∀ (s t : State) (w : Width) (a : Nat) (v : Word), a ≠ 0x00000 →
    transact standardConfig s (.write w a v) = .next t → ∀ k, t.outAt k = s.outAt k

/-- 20 R65: a 16-bit read at 0x80000 + 2i returns PERM[i]; a host write there is a bus error. That a narrow access's
data stands in the low bits of the bus word, with zeros above in an answer, is the model's reading (log 10). -/
def Obligations.HostAccessToPerm : Prop :=
  ∀ (s : State) (i : Nat) (v : Word) (w : Width), i ≤ 65534 → let a : Nat := 0x80000 + 2 * i
    transact standardConfig s (.read .w16 a) = .next { s with resp := some ((s.permAt i).setWidth 32) } ∧
    transact standardConfig s (.write w a v) = .fault .busError

/-- 20 R64: an 8-bit read at 0x40000 + i returns BITMEM[i] as 0x00 or 0x01; an 8-bit write there stores bit 0 in
BITMEM[i], ignores the other bits, and leaves every other element and every register, BIT_LEN among them. That a
narrow access's data stands in the low bits of the bus word, with zeros above in an answer, is the model's reading
(log 10). -/
def Obligations.HostAccessToBitmem : Prop :=
  ∀ (s : State) (i : Nat) (v : Word), i ≤ 65534 → let a : Nat := 0x40000 + i
    transact standardConfig s (.read .w8 a) = .next { s with resp := some (if s.bitAt i = 1 then 1 else 0) } ∧
    ∃ t, transact standardConfig s (.write .w8 a v) = .next t ∧
      t.bitAt i = v.extractLsb' 0 1 ∧ (∀ j, j ≠ i → t.bitAt j = s.bitAt j) ∧ t = { s with bitMem := t.bitMem }

/-- 20 R61, 10 R21: a write to IN_LEN, BIT_LEN or PKT_BITS stores bits 15..0 and ignores the others. -/
def Obligations.HostWritesToLengthRegisters : Prop :=
  ∀ (s : State) (v : Word),
    transact standardConfig s (.write .w32 0x0000C v) = .next { s with inLen := v.extractLsb' 0 16 } ∧
    transact standardConfig s (.write .w32 0x00014 v) = .next { s with bitLen := v.extractLsb' 0 16 } ∧
    transact standardConfig s (.write .w32 0x00018 v) = .next { s with pktBits := v.extractLsb' 0 16 }

/-- 20 R68: no read has a side effect on the block, and reading again returns the same. -/
def Obligations.ReadsHaveNoSideEffect : Prop :=
  ∀ (s t : State) (w : Width) (a : Nat), transact standardConfig s (.read w a) = .next t →
    t = { s with resp := t.resp } ∧ transact standardConfig t (.read w a) = .next t

/-- 20 R68: a host write other than one to CMD has no effect beyond the element or the register at its address: a
write to IN[k] leaves every other element of IN, one to BITMEM[i] every other bit, and each of them, like a write to
IN_LEN, BIT_LEN or PKT_BITS, leaves everything else. No other place takes a write. -/
def Obligations.HostWritesHaveNoFurtherEffect : Prop :=
  ∀ (s t : State) (w : Width) (a : Nat) (v : Word), a ≠ 0x00000 →
    transact standardConfig s (.write w a v) = .next t →
      (∃ k, locate standardConfig w a = some (.input k) ∧ a = 0x10000 + k ∧
        (∀ j, j ≠ k → t.inAt j = s.inAt j) ∧ t = { s with inBuf := t.inBuf }) ∨
      (∃ i, locate standardConfig w a = some (.bit i) ∧ a = 0x40000 + i ∧
        (∀ j, j ≠ i → t.bitAt j = s.bitAt j) ∧ t = { s with bitMem := t.bitMem }) ∨
      (locate standardConfig w a = some (.reg .inLen) ∧ a = 0x0000C ∧ t = { s with inLen := t.inLen }) ∨
      (locate standardConfig w a = some (.reg .bitLen) ∧ a = 0x00014 ∧ t = { s with bitLen := t.bitLen }) ∨
      (locate standardConfig w a = some (.reg .pktBits) ∧ a = 0x00018 ∧ t = { s with pktBits := t.pktBits })

/-! ### ILV_GEN (40_interleaver.md) -/

/-- 40 R121 (a), (c): the reference generator yields each index of [0, L) exactly once. -/
def Obligations.ReferenceInterleaverIsABijection : Prop :=
  ∀ len : Nat, (ilvPerm len).Perm (List.range len)

/-- 40 R120: the trace of the reference generator for L = 8, which the spec computes from R120 as an inference of its
own (R124). -/
def Obligations.ReferenceInterleaverTraceOfEight : Prop :=
  (List.range 7).map (fun n => minstd^[n + 1] ilvSeed) =
    [705894, 1126542223, 1579310009, 565444343, 807934826, 421520601, 2095673201] ∧
  ilvPerm 8 = [4, 1, 0, 7, 3, 5, 2, 6]

/-- 40 R122: ILV_GEN completes for every length; PERM[0..L-1] gets ILV_FN(L), PERM_LEN gets L, and nothing else but
STATUS changes. -/
def Obligations.IlvGenStoresThePermutation : Prop :=
  ∀ (s : State) (len : Half), ∃ t, exec (.ilvGen len) s = .next t ∧
    (∀ k, k < len.toNat → (t.permAt k).toNat = (ilvPerm len.toNat).getD k 0) ∧
    (∀ k, len.toNat ≤ k → t.permAt k = s.permAt k) ∧
    t.permLen = len ∧ t.status = { err := 0, warnLen := 0, pclass := 0 } ∧
    t = { s with permBuf := t.permBuf, permLen := t.permLen, status := t.status }

/-- 10 R32, R36: whatever the next event is, a step keeps PERM[0..PERM_LEN-1] a permutation of [0, PERM_LEN). -/
def Obligations.StepsKeepPermAPermutation : Prop :=
  ∀ s t : State, s.permValid → step s = .next t → t.permValid

/-! ### CONV_RESET, CONV_PARITY (41_conv_encoder.md) -/

/-- 41 R141, R142: one encoder step under each parity reading, written from the pseudocode: the working value
{S, b}, its four AND terms with the shifted polynomial, their reduction to a bit, and the next state; XORBITS is the
default reading. -/
def Obligations.ConvStepFollowsTheParityReadings : Prop :=
  standardConfig.parityReading = .xorBits ∧
  ∀ (reading : ParityReading) (st : BitVec 3) (g : BitVec 4) (b : Bit),
    let w : BitVec 4 := st ++ b
    let t (i : Nat) : Byte := w.setWidth 8 &&& (g.setWidth 8 <<< i)
    let bit (i : Nat) : Nat :=
      match reading with
      | .xorBits => (List.range 8).countP (fun j => (t i).getLsbD j) % 2
      | .nonZero => if t i = 0 then 0 else 1
      | .bitI => if (t i).getLsbD i then 1 else 0
    (convStep reading st g b).1.toNat = (bit 0 + bit 1 + bit 2 + bit 3) % 2 ∧
    (convStep reading st g b).2 = w.extractLsb' 0 3

/-- 41 R141, R142: the closed forms of the parity bit under XORBITS and BITI, and the next state under every reading,
which the spec infers ("Closed forms", R143). -/
def Obligations.ConvStepHasItsClosedForms : Prop :=
  ∀ (st : BitVec 3) (b : Bit),
    (convStep .xorBits st polyA b).1 = b ^^^ st.extractLsb' 2 1 ∧
    (convStep .xorBits st polyB b).1 = b ^^^ st.extractLsb' 1 1 ∧
    (∀ g, g = polyA ∨ g = polyB →
      (convStep .bitI st g b).1 = b ^^^ st.extractLsb' 0 1 ^^^ st.extractLsb' 1 1 ^^^ st.extractLsb' 2 1) ∧
    ∀ (reading : ParityReading) (g : BitVec 4), (convStep reading st g b).2 = st.extractLsb' 0 2 ++ b

/-- The spec's inference "Sequence form" (41 R146): an encoder fed a sequence from state 0 returns u[n] ⊕ u[n-3] (A)
and u[n] ⊕ u[n-2] (B) under XORBITS, and its state after step n is {u[n-2], u[n-1], u[n]}, with u[k] = 0 for k < 0. -/
def Obligations.EncoderSequencesHaveTheirClosedForms : Prop :=
  ∀ (u : List Bit) (n : Nat), n < u.length →
    (convParities .xorBits polyA 0 u).getD n 0 = u.getD n 0 ^^^ (if 3 ≤ n then u.getD (n - 3) 0 else 0) ∧
    (convParities .xorBits polyB 0 u).getD n 0 = u.getD n 0 ^^^ (if 2 ≤ n then u.getD (n - 2) 0 else 0) ∧
    ∀ (reading : ParityReading) (g : BitVec 4), convFinal reading g 0 (u.take (n + 1)) =
      (if 2 ≤ n then u.getD (n - 2) 0 else 0) ++ (if 1 ≤ n then u.getD (n - 1) 0 else 0) ++ u.getD n 0

/-- 41 R144: CONV_RESET clears the register of the encoder named and changes nothing else but STATUS. -/
def Obligations.ConvResetClearsOneEncoder : Prop :=
  ∀ s : State,
    exec (.convReset .a) s = .next { s with sa := 0, status := { err := 0, warnLen := 0, pclass := 0 } } ∧
    exec (.convReset .b) s = .next { s with sb := 0, status := { err := 0, warnLen := 0, pclass := 0 } }

/-- 41 R145: CONV_PARITY steps the encoder named, in the spec's inferred closed form ("Closed forms", R143): its
register shifts the bit in, RESULT gets the parity bit of the default reading XORBITS, and nothing else but STATUS
changes. -/
def Obligations.ConvParityStepsOneEncoder : Prop :=
  ∀ (s : State) (bit : Bit),
    exec (.convParity .a bit) s = .next { s with
      sa := s.sa.extractLsb' 0 2 ++ bit, parity := bit ^^^ s.sa.extractLsb' 2 1,
      status := { err := 0, warnLen := 0, pclass := 0 } } ∧
    exec (.convParity .b bit) s = .next { s with
      sb := s.sb.extractLsb' 0 2 ++ bit, parity := bit ^^^ s.sb.extractLsb' 1 1,
      status := { err := 0, warnLen := 0, pclass := 0 } }

/-- 10 R27: CONV_PARITY leaves in RESULT the parity bit of its step, and no other command changes RESULT. -/
def Obligations.OnlyConvParityWritesResult : Prop :=
  ∀ (i : Instr) (s t : State), exec i s = .next t →
    (∀ sel bit, i = .convParity sel bit →
      t.parity = (convStep .xorBits (s.encoder sel) (encoderPoly sel) bit).1) ∧
    ((∀ sel bit, i ≠ .convParity sel bit) → t.parity = s.parity)

/-! ### TURBO_ENC (42_turbo_codec.md) -/

/-- 42 R161, 41 R141, R142, with the parities and the final states in the spec's inferred closed form ("Sequence
form", 41 R146): TURBO_ENC of a text of at most 2730 bytes completes and writes, for every bit i of the text, the
triple (u[i], parity 1, parity 2) under the default parameters, parity 2 over the interleaved bits; BIT_LEN = 24n;
PERM, PERM_LEN and the final encoder states; and nothing else but STATUS. A longer text is a LENGTH error. -/
def Obligations.TurboEncWritesTheCodeword : Prop :=
  (∀ s : State, 2730 < s.inLen.toNat →
    exec .turboEnc s = .next { s with status := { err := 3, warnLen := 0, pclass := 0 } }) ∧
  ∀ s : State, s.inLen.toNat ≤ 2730 →
    let n := s.inLen.toNat
    let p := fun i => (ilvPerm (8 * n)).getD i 0
    let u := s.textBit
    ∃ t, exec .turboEnc s = .next t ∧
      (∀ i, i < 8 * n →
        t.bitAt (3 * i) = u i ∧
        t.bitAt (3 * i + 1) = u i ^^^ (if 3 ≤ i then u (i - 3) else 0) ∧
        t.bitAt (3 * i + 2) = u (p i) ^^^ (if 2 ≤ i then u (p (i - 2)) else 0)) ∧
      (∀ j, 24 * n ≤ j → t.bitAt j = s.bitAt j) ∧ t.bitLen.toNat = 24 * n ∧
      (∀ k, k < 8 * n → (t.permAt k).toNat = p k) ∧ (∀ k, 8 * n ≤ k → t.permAt k = s.permAt k) ∧
      t.permLen.toNat = 8 * n ∧
      (n = 0 → t.sa = 0 ∧ t.sb = 0) ∧
      (0 < n → t.sa = u (8 * n - 3) ++ u (8 * n - 2) ++ u (8 * n - 1) ∧
        t.sb = u (p (8 * n - 3)) ++ u (p (8 * n - 2)) ++ u (p (8 * n - 1))) ∧
      t.status = { err := 0, warnLen := 0, pclass := 0 } ∧
      t = { s with
        bitMem := t.bitMem, bitLen := t.bitLen, permBuf := t.permBuf, permLen := t.permLen, sa := t.sa, sb := t.sb,
        status := t.status }

/-- The spec's inference "Determinism" (42 R165): two TURBO_ENC commands of the same text write the same codeword,
permutation and encoder states. -/
def Obligations.TurboEncDependsOnItsTextOnly : Prop :=
  ∀ s₁ s₂ : State, s₁.inLen = s₂.inLen → s₁.inLen.toNat ≤ 2730 →
    (∀ k, k < s₁.inLen.toNat → s₁.inAt k = s₂.inAt k) →
    ∃ t₁ t₂, exec .turboEnc s₁ = .next t₁ ∧ exec .turboEnc s₂ = .next t₂ ∧
      t₁.bitLen = t₂.bitLen ∧ (∀ j, j < t₁.bitLen.toNat → t₁.bitAt j = t₂.bitAt j) ∧
      t₁.permLen = t₂.permLen ∧ (∀ k, k < t₁.permLen.toNat → t₁.permAt k = t₂.permAt k) ∧
      t₁.sa = t₂.sa ∧ t₁.sb = t₂.sb

/-- The spec's inferences "Length" and "Systematic positions" (42 R163, R164), with the start state of 42 R162 and the
admissible generators of 40 R121: under all parameters of a block, with any admissible interleaver and any parity
reading, the codeword has 24 bits per byte of text and carries the text bits at every third position, and the encoders
start from 0. -/
def Obligations.TurboLawsHoldForEveryAdmissibleInterleaver : Prop :=
  ∀ (cfg : Config) (s : State), cfg.wf = true → cfg.ilvAdmissible → s.inLen.toNat ≤ cfg.turboMaxText →
    let n := s.inLen.toNat
    let t := s.turboEnc cfg
    t.status = { err := 0, warnLen := 0, pclass := 0 } ∧ t.bitLen.toNat = 24 * n ∧
    (∀ i, i < 8 * n → t.bitAt (3 * i) = s.textBit i) ∧
    ((t.permEntries (8 * n)).map BitVec.toNat).Perm (List.range (8 * n)) ∧ t.permLen.toNat = 8 * n ∧
    ∀ sa sb, ({ s with sa := sa, sb := sb } : State).turboEnc cfg = t

/-! ### PACK, UNPACK (43_packing.md) -/

/-- 43 R180, R182: PACK completes in every state; bit 8m + j goes to OUT[m] at position 7 - j, the trailing bits of
the last byte are 0; OUT_LEN = ceil8(BIT_LEN), PKT_BITS = BIT_LEN, and nothing else but STATUS changes. -/
def Obligations.PackStoresBitsMsbFirst : Prop :=
  ∀ s : State, let k := (s.bitLen.toNat + 7) / 8
    ∃ t, exec .pack s = .next t ∧
      (∀ m j, m < k → j < 8 →
        (t.outAt m).extractLsb' (7 - j) 1 = if 8 * m + j < s.bitLen.toNat then s.bitAt (8 * m + j) else 0) ∧
      (∀ m, k ≤ m → t.outAt m = s.outAt m) ∧
      t.outLen.toNat = k ∧ t.pktBits = s.bitLen ∧ t.status = { err := 0, warnLen := 0, pclass := 0 } ∧
      t = { s with outBuf := t.outBuf, outLen := t.outLen, pktBits := t.pktBits, status := t.status }

/-- 43 R181, R183: UNPACK of enough bytes completes; BITMEM[i] gets bit 7 - (i mod 8) of IN[i div 8] for i < PKT_BITS,
BIT_LEN = PKT_BITS, and nothing else but STATUS changes. More than 8197 bytes are a LENGTH error, else fewer bytes
than PKT_BITS needs a SHORT_INPUT error. -/
def Obligations.UnpackExtractsBitsMsbFirst : Prop :=
  (∀ s : State, 8197 < s.inLen.toNat →
    exec .unpack s = .next { s with status := { err := 3, warnLen := 0, pclass := 0 } }) ∧
  (∀ s : State, s.inLen.toNat ≤ 8197 → s.inLen.toNat < (s.pktBits.toNat + 7) / 8 →
    exec .unpack s = .next { s with status := { err := 4, warnLen := 0, pclass := 0 } }) ∧
  ∀ s : State, s.inLen.toNat ≤ 8197 → (s.pktBits.toNat + 7) / 8 ≤ s.inLen.toNat →
    ∃ t, exec .unpack s = .next t ∧
      (∀ i, i < s.pktBits.toNat → t.bitAt i = (s.inAt (i / 8)).extractLsb' (7 - i % 8) 1) ∧
      (∀ i, s.pktBits.toNat ≤ i → t.bitAt i = s.bitAt i) ∧
      t.bitLen = s.pktBits ∧ t.status = { err := 0, warnLen := 0, pclass := 0 } ∧
      t = { s with bitMem := t.bitMem, bitLen := t.bitLen, status := t.status }

/-- The spec's inference "Round trip" (43 R184): PACK, then any state in which the host has copied the packed bytes to
IN, set IN_LEN to their number and left PKT_BITS, then UNPACK: BITMEM[0..B-1] and BIT_LEN are what they were. -/
def Obligations.PackThenUnpackRestoresTheBits : Prop :=
  ∀ s t s' : State, exec .pack s = .next t →
    s'.inLen = t.outLen → (∀ k, k < t.outLen.toNat → s'.inAt k = t.outAt k) → s'.pktBits = t.pktBits →
    ∃ t', exec .unpack s' = .next t' ∧ t'.status.err = 0 ∧ t'.bitLen = s.bitLen ∧
      ∀ i, i < s.bitLen.toNat → t'.bitAt i = s.bitAt i

/-- The spec's inference "Reverse direction" (43 R185): unpacking bytes and packing the bits again gives the bytes
back, but for the unused low bits of the last byte, which become 0. -/
def Obligations.UnpackThenPackClearsTheUnusedBits : Prop :=
  ∀ (y : List Byte) (n : Nat), (n + 7) / 8 = y.length →
    (bitsToBytes (bytesToBits y n)).length = y.length ∧
    ∀ m j, m < y.length → j < 8 →
      ((bitsToBytes (bytesToBits y n)).getD m 0).extractLsb' (7 - j) 1 =
        if 8 * m + j < n then (y.getD m 0).extractLsb' (7 - j) 1 else 0

/-! ### RS_ENC, RS_DEC (44_reed_solomon.md) -/

/-- 44 R200, R201: the first powers of α and the generator polynomial under the default parameters, in the table the
spec computes as an inference of its own. -/
def Obligations.ReedSolomonTablesAreTheSpecs : Prop :=
  (List.range 16).map (gfPow 0x11D 0x02) =
    [0x01, 0x02, 0x04, 0x08, 0x10, 0x20, 0x40, 0x80, 0x1D, 0x3A, 0x74, 0xE8, 0xCD, 0x87, 0x13, 0x26] ∧
  rsGen standardConfig =
    [0x01, 0x74, 0x40, 0x34, 0xAE, 0x36, 0x7E, 0x10, 0xC2, 0xA2, 0x21, 0x21, 0x9D, 0xB0, 0xC5, 0xE1,
      0x0C, 0x3B, 0x37, 0xFD, 0xE4, 0x94, 0x2F, 0xB3, 0xB9, 0x18, 0x8A, 0xFD, 0x14, 0x8E, 0x37, 0xAC, 0x58]

/-- 44 R202, R204: RS_ENC of a text of at most 8197 bytes completes; OUT[0..95] is the text, cut at 96 bytes or ended
by the separator 0x2C and zeros, OUT[96..127] is its ECC, OUT_LEN = 128, and nothing else but STATUS changes. A longer
text is a LENGTH error. -/
def Obligations.RsEncWritesMessageAndEcc : Prop :=
  (∀ s : State, 8197 < s.inLen.toNat →
    exec .rsEnc s = .next { s with status := { err := 3, warnLen := 0, pclass := 0 } }) ∧
  ∀ s : State, s.inLen.toNat ≤ 8197 → let n := s.inLen.toNat
    ∃ t, exec .rsEnc s = .next t ∧
      (∀ k, k < 96 → t.outAt k = if k < n then s.inAt k else if k = n then 0x2C else 0) ∧
      (∀ j, j < 32 → t.outAt (96 + j) = (rsEcc standardConfig (t.outBytes 96)).getD j 0) ∧
      (∀ k, 128 ≤ k → t.outAt k = s.outAt k) ∧
      t.outLen = 128 ∧ t.status = { err := 0, warnLen := 0, pclass := 0 } ∧
      t = { s with outBuf := t.outBuf, outLen := t.outLen, status := t.status }

/-- 44 R203, R205: the frame RS_ENC leaves in OUT is a member of the code: C(x) ≡ 0 mod g(x), and C vanishes at every
root α^0, …, α^31 of g. -/
def Obligations.RsEncFramesAreCodewords : Prop :=
  ∀ s t : State, s.inLen.toNat ≤ 8197 → exec .rsEnc s = .next t →
    isCodeword standardConfig (t.outBytes 128) = true ∧
    ∀ i, i < 32 → gfEvalHigh 0x11D (t.outBytes 128) (gfPow 0x11D 0x02 i) = 0

/-- 44 R205: two distinct members of the code differ in at least 33 positions, a fact the spec takes from general
knowledge. -/
def Obligations.CodewordsDifferInThirtyThreePositions : Prop :=
  ∀ c d : List Byte, isCodeword standardConfig c = true → isCodeword standardConfig d = true → c ≠ d →
    33 ≤ distance c d

/-- 44 R206, R207, first branch: where a member of the code lies within distance 16 of IN[0..127], RS_DEC completes
and gives its message, draws nothing, reports IN_LEN ≠ 128 in WARN_LEN, and changes nothing else. -/
def Obligations.RsDecCorrectsSixteenErrors : Prop :=
  ∀ (s : State) (c : List Byte), s.inLen.toNat ≤ 8197 →
    isCodeword standardConfig c = true → distance (s.inBytes 128) c ≤ 16 →
    ∃ t, exec .rsDec s = .next t ∧
      (∀ k, k < 96 → t.outAt k = c.getD k 0) ∧ (∀ k, 96 ≤ k → t.outAt k = s.outAt k) ∧
      t.outLen = 96 ∧ t.status = { err := 0, warnLen := if s.inLen = 128 then 0 else 1, pclass := 0 } ∧
      t = { s with outBuf := t.outBuf, outLen := t.outLen, status := t.status }

/-- 44 R206, R207, second branch (log 4): where no member of the code lies within distance 16 of IN[0..127], RS_DEC
completes, OUT[0..95] are the next 96 draws, and the rest of its effect is the same. Nothing depends on what the
draws are; that they are numbered is the model's choice. -/
def Obligations.RsDecBeyondTheBoundDraws : Prop :=
  ∀ s : State, s.inLen.toNat ≤ 8197 →
    (∀ c, isCodeword standardConfig c = true → 16 < distance (s.inBytes 128) c) →
    ∃ t, exec .rsDec s = .next t ∧
      (∀ k, k < 96 → t.outAt k = Config.drawByte (s.draws + k)) ∧ (∀ k, 96 ≤ k → t.outAt k = s.outAt k) ∧
      t.outLen = 96 ∧ t.status = { err := 0, warnLen := if s.inLen = 128 then 0 else 1, pclass := 0 } ∧
      t = { s with outBuf := t.outBuf, outLen := t.outLen, draws := s.draws + 96, status := t.status }

/-- The spec's inference 44 R209: RS_ENC, a channel that changes at most 16 bytes of the frame, RS_DEC: OUT[0..95] is
the padded text again, without a warning. -/
def Obligations.RsRoundTripToleratesSixteenErrors : Prop :=
  ∀ s t s' : State, s.inLen.toNat ≤ 8197 → exec .rsEnc s = .next t →
    s'.inLen = 128 → distance (s'.inBytes 128) (t.outBytes 128) ≤ 16 →
    ∃ t', exec .rsDec s' = .next t' ∧ t'.status = { err := 0, warnLen := 0, pclass := 0 } ∧ t'.outLen = 96 ∧
      ∀ k, k < 96 → t'.outAt k =
        if k < s.inLen.toNat then s.inAt k else if k = s.inLen.toNat then 0x2C else 0

/-! ### FRAME_P, FRAME_W, PARSE, TX_DONE (45_dispatcher.md) -/

/-- 45 R242: FRAME_P completes in every state; OUT[0..130] becomes "P:!" and the old OUT[0..127], OUT_LEN = 131, and
nothing else but STATUS changes. -/
def Obligations.FramePPrependsItsTag : Prop :=
  ∀ s : State, ∃ t, exec .frameP s = .next t ∧
    t.outAt 0 = 0x50 ∧ t.outAt 1 = 0x3A ∧ t.outAt 2 = 0x21 ∧ (∀ k, k ≤ 127 → t.outAt (3 + k) = s.outAt k) ∧
    (∀ k, 131 ≤ k → t.outAt k = s.outAt k) ∧
    t.outLen = 131 ∧ t.status = { err := 0, warnLen := 0, pclass := 0 } ∧
    t = { s with outBuf := t.outBuf, outLen := t.outLen, status := t.status }

/-- 45 R243, R241: FRAME_W completes in every state; OUT becomes "W:!", the little-endian bit length and the old
OUT[0..k-1] with k = ceil8(PKT_BITS), OUT_LEN = 5 + k, and nothing else but STATUS changes. -/
def Obligations.FrameWPrependsTagAndHeader : Prop :=
  ∀ s : State, let k := (s.pktBits.toNat + 7) / 8
    ∃ t, exec .frameW s = .next t ∧
      t.outAt 0 = 0x57 ∧ t.outAt 1 = 0x3A ∧ t.outAt 2 = 0x21 ∧
      (t.outAt 3).toNat = s.pktBits.toNat % 256 ∧ (t.outAt 4).toNat = s.pktBits.toNat / 256 ∧
      (∀ j, j < k → t.outAt (5 + j) = s.outAt j) ∧ (∀ j, 5 + k ≤ j → t.outAt j = s.outAt j) ∧
      t.outLen.toNat = 5 + k ∧ t.status = { err := 0, warnLen := 0, pclass := 0 } ∧
      t = { s with outBuf := t.outBuf, outLen := t.outLen, status := t.status }

/-- 45 R244: PARSE completes in every state, clause by clause of its rule.
More than 8197 bytes: a LENGTH error.
"P:!": class P; the payload moves to IN[0..], the rest of IN keeps its bytes, IN_LEN falls by 3, CNT_P rises by 1.
"W:!" with its header and its payload there: class W; the announced payload moves to IN[0..], the rest of IN keeps its
bytes, IN_LEN and PKT_BITS are set, CNT_W rises by 1.
"W:!" without room for the header or the payload: class SHORT. Any other prefix, or fewer than 3 bytes: class UNREC.
The last two change nothing but STATUS, the first two nothing else but STATUS. -/
def Obligations.ParseClassifiesAndStrips : Prop :=
  ∀ s : State,
    let n := s.inLen.toNat
    let tagged (c : Byte) : Prop := 3 ≤ n ∧ s.inAt 0 = c ∧ s.inAt 1 = 0x3A ∧ s.inAt 2 = 0x21
    let b := (s.inAt 3).toNat + 256 * (s.inAt 4).toNat
    let k := (b + 7) / 8
    (8197 < n → exec .parse s = .next { s with status := { err := 3, warnLen := 0, pclass := 0 } }) ∧
    (n ≤ 8197 → tagged 0x50 →
      ∃ t, exec .parse s = .next t ∧
        (∀ j, j < n - 3 → t.inAt j = s.inAt (j + 3)) ∧ (∀ j, n - 3 ≤ j → t.inAt j = s.inAt j) ∧
        t.inLen.toNat = n - 3 ∧ t.cntP = s.cntP + 1 ∧ t.status = { err := 0, warnLen := 0, pclass := 1 } ∧
        t = { s with inBuf := t.inBuf, inLen := t.inLen, cntP := t.cntP, status := t.status }) ∧
    (n ≤ 8197 → tagged 0x57 → 5 ≤ n → k ≤ n - 5 →
      ∃ t, exec .parse s = .next t ∧
        (∀ j, j < k → t.inAt j = s.inAt (5 + j)) ∧ (∀ j, k ≤ j → t.inAt j = s.inAt j) ∧
        t.inLen.toNat = k ∧ t.pktBits.toNat = b ∧ t.cntW = s.cntW + 1 ∧
        t.status = { err := 0, warnLen := 0, pclass := 2 } ∧
        t = { s with
          inBuf := t.inBuf, inLen := t.inLen, pktBits := t.pktBits, cntW := t.cntW, status := t.status }) ∧
    (n ≤ 8197 → tagged 0x57 → (n < 5 ∨ n - 5 < k) →
      exec .parse s = .next { s with status := { err := 0, warnLen := 0, pclass := 4 } }) ∧
    (n ≤ 8197 → ¬ tagged 0x50 → ¬ tagged 0x57 →
      exec .parse s = .next { s with status := { err := 0, warnLen := 0, pclass := 3 } })

/-- 45 R241, R243, R244: FRAME_W, then any state in which the host has copied the packet to IN, then PARSE: class W,
with the payload, the bit length and its number of bytes as they went in. It holds for either byte order of the
header, and for every block whose IN takes the longest packet; the counter rises by 1 modulo 2^32 where CNT_WIDTH is
its default 32. -/
def Obligations.ParseRecoversWhatFrameWSent : Prop :=
  ∀ (cfg : Config) (s s' : State), 8197 ≤ cfg.inSize →
    s'.inLen = (s.frameW cfg).outLen →
    (∀ k, k < (s.frameW cfg).outLen.toNat → s'.inAt k = (s.frameW cfg).outAt k) →
    let t := s'.parse cfg
    t.status = { err := 0, warnLen := 0, pclass := 2 } ∧ t.pktBits = s.pktBits ∧
    t.inLen.toNat = (s.pktBits.toNat + 7) / 8 ∧ (∀ j, j < t.inLen.toNat → t.inAt j = s.outAt j) ∧
    (cfg.cntWidth = 32 → t.cntW = s'.cntW + 1)

/-- 45 R242, R244: FRAME_P, then any state in which the host has copied the packet to IN, then PARSE: class P, with
the 128-byte frame in IN[0..127] and IN_LEN = 128. -/
def Obligations.ParseRecoversWhatFramePSent : Prop :=
  ∀ s t s' : State, exec .frameP s = .next t → s'.inLen = t.outLen →
    (∀ k, k < t.outLen.toNat → s'.inAt k = t.outAt k) →
    ∃ t', exec .parse s' = .next t' ∧ t'.status = { err := 0, warnLen := 0, pclass := 1 } ∧ t'.inLen = 128 ∧
      (∀ k, k < 128 → t'.inAt k = s.outAt k) ∧ t'.cntP = s'.cntP + 1

/-- 45 R248, R249: TX_DONE adds 1 modulo 2^32 to the counter of its tag when the send succeeded, and changes nothing
but STATUS when it did not. -/
def Obligations.TxDoneCountsSuccessfulSends : Prop :=
  ∀ s : State,
    exec (.txDone .p 1) s =
      .next { s with cntP := s.cntP + 1, status := { err := 0, warnLen := 0, pclass := 0 } } ∧
    exec (.txDone .w 1) s =
      .next { s with cntW := s.cntW + 1, status := { err := 0, warnLen := 0, pclass := 0 } } ∧
    ∀ tag, exec (.txDone tag 0) s = .next { s with status := { err := 0, warnLen := 0, pclass := 0 } }

/-- 10 R33, 45 R249: PARSE counts a packet of class P or W in that class's counter, TX_DONE a successful send in its
tag's, each by 1 modulo 2^32; no other command changes a counter, nor does any transaction of the host but a command;
and whatever the next event is, short of the platform's reset each counter stays or rises by 1. -/
def Obligations.CountersRiseOnlyByParseAndTxDone : Prop :=
  (∀ (i : Instr) (s t : State), exec i s = .next t →
    (i ≠ .parse → (∀ tag ok, i ≠ .txDone tag ok) → t.cntP = s.cntP ∧ t.cntW = s.cntW) ∧
    (i = .parse → t.cntP = (if t.status.pclass = 1 then s.cntP + 1 else s.cntP) ∧
      t.cntW = (if t.status.pclass = 2 then s.cntW + 1 else s.cntW)) ∧
    (∀ tag ok, i = .txDone tag ok → t.cntP = (if tag = .p ∧ ok = 1 then s.cntP + 1 else s.cntP) ∧
      t.cntW = (if tag = .w ∧ ok = 1 then s.cntW + 1 else s.cntW))) ∧
  (∀ (s t : State) (x : HostTxn), (∀ v, x ≠ .write .w32 0x00000 v) → transact standardConfig s x = .next t →
    t.cntP = s.cntP ∧ t.cntW = s.cntW) ∧
  ∀ s t : State, step s = .next t → (∀ rest, s.host ≠ .reset :: rest) →
    (t.cntP = s.cntP ∨ t.cntP = s.cntP + 1) ∧ (t.cntW = s.cntW ∨ t.cntW = s.cntW + 1)

/-! ### STATUS and the whole machine (10_state.md) -/

/-- 10 R39: no command reads STATUS: what a command does is the same whatever STATUS held. -/
def Obligations.NoCommandReadsStatus : Prop :=
  ∀ (i : Instr) (s : State) (st : Status), exec i { s with status := st } = exec i s

/-- 10 R23, R24, R26: the STATUS every command leaves: WARN_LEN is 1 exactly after an RS_DEC that completed with
IN_LEN ≠ 128, PCLASS is not 0 exactly after a PARSE that completed, and ERR and PCLASS are at most 4. -/
def Obligations.StatusReportsTheCommandThatWroteIt : Prop :=
  ∀ (i : Instr) (s t : State), exec i s = .next t →
    (t.status.warnLen = 1 ↔ i = .rsDec ∧ t.status.err = 0 ∧ s.inLen ≠ 128) ∧
    (t.status.pclass ≠ 0 ↔ i = .parse ∧ t.status.err = 0) ∧ t.status.err ≤ 4 ∧ t.status.pclass ≤ 4

/-- 10 R24, R26, R36, 20 R71: whatever the next event is, a step keeps the four buffers in their canonical form with
no index outside them, STATUS a combination the spec allows, and OUT_LEN at most 8197. -/
def Obligations.StepsKeepTheStateWellFormed : Prop :=
  ∀ s t : State, s.wf = true → step s = .next t → t.wf = true

/-- 70 R310: the state after reset is well formed, and PERM[0..PERM_LEN-1], empty, is a permutation. -/
def Obligations.ResetStateIsWellFormed : Prop :=
  State.reset.wf = true ∧ State.reset.permValid
end

