-- ==== Sys2Proof/Laws/Buf.lean ====
section
/-!
SUPPORT. The laws of the buffers: what a write leaves at every index, that a write keeps the canonical form, that
buffers in the canonical form with the same elements are the same data, and the same laws for IN, OUT, BITMEM and
PERM.
-/

namespace Sys2Proof.Machine

section

variable {w : Nat}

theorem Buf.find_append (b c : Buf w) (k : Nat) :
    Buf.find (b ++ c) k = (Buf.find b k).or (Buf.find c k) := by
  induction b with
  | nil => simp [Buf.find]
  | cons d b ih =>
    obtain ⟨a, v⟩ := d
    by_cases h : a = k <;> simp [Buf.find, h, ih]

/-- Filtering by index keeps what is found at an index that passes. -/
theorem Buf.find_filter (b : Buf w) (p : Nat → Bool) (k : Nat) :
    Buf.find (b.filter (fun c => p c.1)) k = if p k then Buf.find b k else none := by
  induction b with
  | nil => simp [Buf.find]
  | cons d b ih =>
    obtain ⟨a, v⟩ := d
    by_cases hp : p a
    · by_cases h : a = k
      · subst h; simp [Buf.find, hp]
      · simp [Buf.find, hp, h, ih]
    · by_cases h : a = k
      · subst h; simp [hp, ih]
      · simp [Buf.find, hp, h, ih]

theorem Buf.find_cells (vals : List (BitVec w)) (base k : Nat) :
    Buf.find (Buf.cells base vals) k = if base ≤ k then vals[k - base]? else none := by
  induction vals generalizing base with
  | nil => simp [Buf.cells, Buf.find]
  | cons v vals ih =>
    by_cases h : base = k
    · subst h; simp [Buf.cells, Buf.find]
    · rw [Buf.cells, Buf.find, if_neg h, ih]
      by_cases hk : base ≤ k
      · have h1 : base + 1 ≤ k := by omega
        have h2 : k - base = (k - (base + 1)) + 1 := by omega
        rw [if_pos h1, if_pos hk, h2, List.getElem?_cons_succ]
      · rw [if_neg hk, if_neg (by omega)]

/-- A write leaves its values at its indices and every other index as it was. -/
theorem Buf.find_write (b : Buf w) (base : Nat) (vals : List (BitVec w)) (k : Nat) :
    Buf.find (Buf.write b base vals) k =
      if base ≤ k ∧ k < base + vals.length then vals[k - base]? else Buf.find b k := by
  have below := Buf.find_filter b (fun a => a < base) k
  have above := Buf.find_filter b (fun a => base + vals.length ≤ a) k
  rw [Buf.write, Buf.find_append, Buf.find_append, below, above, Buf.find_cells]
  by_cases h1 : base ≤ k
  · by_cases h2 : k < base + vals.length
    · have h3 : k - base < vals.length := by omega
      simp [h1, h2, show ¬ k < base by omega, List.getElem?_eq_getElem h3]
    · have h3 : vals.length ≤ k - base := by omega
      simp [h1, h2, show ¬ k < base by omega, show base + vals.length ≤ k by omega, List.getElem?_eq_none h3]
  · simp [h1, show ¬ base + vals.length ≤ k by omega, show k < base by omega]

/-! ### The canonical form -/

theorem Buf.rising_cons_iff (c : Nat × BitVec w) (b : Buf w) :
    Buf.rising (c :: b) = true ↔ (∀ d ∈ b, c.1 < d.1) ∧ Buf.rising b = true := by
  induction b generalizing c with
  | nil => simp [Buf.rising]
  | cons d b ih =>
    rw [Buf.rising, Bool.and_eq_true, decide_eq_true_eq]
    constructor
    · rintro ⟨h, hr⟩
      refine ⟨?_, hr⟩
      intro e he
      rcases List.mem_cons.1 he with rfl | he
      · exact h
      · exact h.trans (((ih d).1 hr).1 e he)
    · rintro ⟨h, hr⟩
      exact ⟨h d (by simp), hr⟩

theorem Buf.rising_iff_pairwise (b : Buf w) :
    Buf.rising b = true ↔ b.Pairwise (fun c d => c.1 < d.1) := by
  induction b with
  | nil => simp [Buf.rising]
  | cons c b ih => rw [Buf.rising_cons_iff, List.pairwise_cons, ih]

theorem Buf.mem_cells {base : Nat} {vals : List (BitVec w)} {c : Nat × BitVec w}
    (h : c ∈ Buf.cells base vals) : base ≤ c.1 ∧ c.1 < base + vals.length := by
  induction vals generalizing base with
  | nil => simp [Buf.cells] at h
  | cons v vals ih =>
    rcases List.mem_cons.1 h with rfl | h
    · simp
    · have := ih h
      simp only [List.length_cons]
      omega

theorem Buf.cells_pairwise (base : Nat) (vals : List (BitVec w)) :
    (Buf.cells base vals).Pairwise (fun c d => c.1 < d.1) := by
  induction vals generalizing base with
  | nil => simp [Buf.cells]
  | cons v vals ih =>
    refine List.pairwise_cons.2 ⟨?_, ih (base + 1)⟩
    intro d hd
    have := Buf.mem_cells hd
    show base < d.1
    omega

theorem Buf.wf_iff (cap : Nat) (b : Buf w) :
    Buf.wf cap b = true ↔ b.Pairwise (fun c d => c.1 < d.1) ∧ ∀ c ∈ b, c.1 < cap := by
  simp [Buf.wf, Buf.rising_iff_pairwise]

/-- A write inside the capacity keeps the canonical form. -/
theorem Buf.wf_write {cap : Nat} {b : Buf w} (h : Buf.wf cap b = true) (base : Nat) (vals : List (BitVec w))
    (fits : base + vals.length ≤ cap) : Buf.wf cap (Buf.write b base vals) = true := by
  rw [Buf.wf_iff] at h ⊢
  constructor
  · refine List.pairwise_append.2 ⟨List.pairwise_append.2 ⟨h.1.filter _, Buf.cells_pairwise _ _, ?_⟩, h.1.filter _, ?_⟩
    · intro c hc d hd
      have h1 : c.1 < base := by simpa using (List.mem_filter.1 hc).2
      have h2 := Buf.mem_cells hd
      omega
    · intro c hc d hd
      have h2 : base + vals.length ≤ d.1 := by simpa using (List.mem_filter.1 hd).2
      rcases List.mem_append.1 hc with hc | hc
      · have h1 : c.1 < base := by simpa using (List.mem_filter.1 hc).2
        omega
      · have h1 := Buf.mem_cells hc
        omega
  · intro c hc
    rcases List.mem_append.1 hc with hc | hc
    · rcases List.mem_append.1 hc with hc | hc
      · exact h.2 c (List.mem_filter.1 hc).1
      · have := Buf.mem_cells hc
        omega
    · exact h.2 c (List.mem_filter.1 hc).1

theorem Buf.find_eq_none_of_lt {b : Buf w} {k : Nat} (h : ∀ c ∈ b, k < c.1) : Buf.find b k = none := by
  induction b with
  | nil => rfl
  | cons c b ih =>
    have h1 : k < c.1 := h c (by simp)
    rw [Buf.find, if_neg (by omega)]
    exact ih (fun d hd => h d (by simp [hd]))

/-- Buffers in the canonical form that hold the same written elements are the same data. -/
theorem Buf.ext_of_find {cap : Nat} {b c : Buf w} (hb : Buf.wf cap b = true) (hc : Buf.wf cap c = true)
    (h : ∀ k, Buf.find b k = Buf.find c k) : b = c := by
  have pb := ((Buf.wf_iff cap b).1 hb).1
  have pc := ((Buf.wf_iff cap c).1 hc).1
  clear hb hc
  induction b generalizing c with
  | nil =>
    cases c with
    | nil => rfl
    | cons d c => have := h d.1; simp [Buf.find] at this
  | cons e b ih =>
    cases c with
    | nil => have := h e.1; simp [Buf.find] at this
    | cons d c =>
      rw [List.pairwise_cons] at pb pc
      have none_b : ∀ k, k ≤ e.1 → Buf.find b k = none := fun k hk =>
        Buf.find_eq_none_of_lt (fun x hx => lt_of_le_of_lt hk (pb.1 x hx))
      have none_c : ∀ k, k ≤ d.1 → Buf.find c k = none := fun k hk =>
        Buf.find_eq_none_of_lt (fun x hx => lt_of_le_of_lt hk (pc.1 x hx))
      have same : e.1 = d.1 := by
        rcases lt_trichotomy e.1 d.1 with hlt | heq | hgt
        · have := h e.1
          simp [Buf.find, none_c e.1 hlt.le, show d.1 ≠ e.1 by omega] at this
        · exact heq
        · have := h d.1
          simp [Buf.find, none_b d.1 hgt.le, show e.1 ≠ d.1 by omega] at this
      have val : e.2 = d.2 := by
        have := h e.1
        simpa [Buf.find, same] using this
      have tails : b = c := by
        refine ih (fun k => ?_) pb.2 pc.2
        have hk := h k
        by_cases hke : e.1 = k
        · rw [none_b k (by omega), none_c k (by omega)]
        · simpa [Buf.find, hke, show d.1 ≠ k by omega] using hk
      rw [tails, Prod.ext same val]

end

/-! ### IN, OUT, BITMEM and PERM -/

section

variable (s : State) (base k : Nat)

/-- Reading IN after a write to IN. -/
theorem State.inAt_writeIn (vals : List Byte) :
    (s.writeIn base vals).inAt k =
      if base ≤ k ∧ k < base + vals.length then vals.getD (k - base) 0 else s.inAt k := by
  simp only [State.inAt, State.writeIn, Buf.find_write]
  split
  · rename_i h
    simp [List.getElem?_eq_getElem (show k - base < vals.length by omega)]
  · rfl

/-- Reading OUT after a write to OUT. -/
theorem State.outAt_writeOut (vals : List Byte) :
    (s.writeOut base vals).outAt k =
      if base ≤ k ∧ k < base + vals.length then vals.getD (k - base) 0 else s.outAt k := by
  simp only [State.outAt, State.writeOut, Buf.find_write]
  split
  · rename_i h
    simp [List.getElem?_eq_getElem (show k - base < vals.length by omega)]
  · rfl

/-- Reading BITMEM after a write to BITMEM. -/
theorem State.bitAt_writeBits (vals : List Bit) :
    (s.writeBits base vals).bitAt k =
      if base ≤ k ∧ k < base + vals.length then vals.getD (k - base) 0 else s.bitAt k := by
  simp only [State.bitAt, State.writeBits, Buf.find_write]
  split
  · rename_i h
    simp [List.getElem?_eq_getElem (show k - base < vals.length by omega)]
  · rfl

/-- Reading PERM after a write to PERM. -/
theorem State.permAt_writePerm (vals : List Half) :
    (s.writePerm base vals).permAt k =
      if base ≤ k ∧ k < base + vals.length then vals.getD (k - base) 0 else s.permAt k := by
  simp only [State.permAt, State.writePerm, Buf.find_write]
  split
  · rename_i h
    simp [List.getElem?_eq_getElem (show k - base < vals.length by omega)]
  · rfl

/-- A read of IN depends on the written elements and the reset draws alone. -/
theorem State.inAt_congr {s t : State} (hb : t.inBuf = s.inBuf) (hr : t.boot = s.boot) (k : Nat) :
    t.inAt k = s.inAt k := by
  simp [State.inAt, hb, hr]

/-- A read of OUT depends on the written elements and the reset draws alone. -/
theorem State.outAt_congr {s t : State} (hb : t.outBuf = s.outBuf) (hr : t.boot = s.boot) (k : Nat) :
    t.outAt k = s.outAt k := by
  simp [State.outAt, hb, hr]

/-- A read of BITMEM depends on the written elements and the reset draws alone. -/
theorem State.bitAt_congr {s t : State} (hb : t.bitMem = s.bitMem) (hr : t.boot = s.boot) (k : Nat) :
    t.bitAt k = s.bitAt k := by
  simp [State.bitAt, hb, hr]

/-- A read of PERM depends on the written elements and the reset draws alone. -/
theorem State.permAt_congr {s t : State} (hb : t.permBuf = s.permBuf) (hr : t.boot = s.boot) (k : Nat) :
    t.permAt k = s.permAt k := by
  simp [State.permAt, hb, hr]

@[simp] theorem State.inBytes_length (n : Nat) : (s.inBytes n).length = n := by simp [State.inBytes]

@[simp] theorem State.outBytes_length (n : Nat) : (s.outBytes n).length = n := by simp [State.outBytes]

@[simp] theorem State.bits_length (n : Nat) : (s.bits n).length = n := by simp [State.bits]

@[simp] theorem State.permEntries_length (n : Nat) : (s.permEntries n).length = n := by simp [State.permEntries]

theorem State.inBytes_getD {n : Nat} (h : k < n) (d : Byte) : (s.inBytes n).getD k d = s.inAt k := by
  simp [State.inBytes, h]

theorem State.outBytes_getD {n : Nat} (h : k < n) (d : Byte) : (s.outBytes n).getD k d = s.outAt k := by
  simp [State.outBytes, h]

theorem State.bits_getD {n : Nat} (h : k < n) (d : Bit) : (s.bits n).getD k d = s.bitAt k := by
  simp [State.bits, h]

end

end Sys2Proof.Machine
end

