-- ==== Sys2Proof/Laws/Buffers.lean ====
section
/-!
SUPPORT. Every operation over the four buffers keeps their canonical form (10 R36, 20 R71), and the buffers after
reset have it.
-/

namespace Sys2Proof.Machine

theorem State.reset_buffersWf : State.reset.buffersWf = true := rfl

theorem State.buffersWf_iff (s : State) : s.buffersWf = true ↔
    Buf.wf 8197 s.inBuf = true ∧ Buf.wf 8197 s.outBuf = true ∧ Buf.wf 65535 s.bitMem = true ∧
      Buf.wf 65535 s.permBuf = true := by
  simp [State.buffersWf, and_assoc]

section

variable {s : State} (h : s.buffersWf = true) (base : Nat)
include h

theorem State.buffersWf_writeIn (vals : List Byte) (fits : base + vals.length ≤ 8197) :
    (s.writeIn base vals).buffersWf = true := by
  rw [State.buffersWf_iff] at h ⊢
  exact ⟨Buf.wf_write h.1 base vals fits, h.2⟩

theorem State.buffersWf_writeOut (vals : List Byte) (fits : base + vals.length ≤ 8197) :
    (s.writeOut base vals).buffersWf = true := by
  rw [State.buffersWf_iff] at h ⊢
  exact ⟨h.1, Buf.wf_write h.2.1 base vals fits, h.2.2⟩

theorem State.buffersWf_writeBits (vals : List Bit) (fits : base + vals.length ≤ 65535) :
    (s.writeBits base vals).buffersWf = true := by
  rw [State.buffersWf_iff] at h ⊢
  exact ⟨h.1, h.2.1, Buf.wf_write h.2.2.1 base vals fits, h.2.2.2⟩

theorem State.buffersWf_writePerm (vals : List Half) (fits : base + vals.length ≤ 65535) :
    (s.writePerm base vals).buffersWf = true := by
  rw [State.buffersWf_iff] at h ⊢
  exact ⟨h.1, h.2.1, h.2.2.1, Buf.wf_write h.2.2.2 base vals fits⟩

end

end Sys2Proof.Machine
end

