-- ==== Sys2Proof/Laws/Galois.lean ====
section
/-!
SUPPORT. The arithmetic of GF(2^8) over the default field polynomial 0x11D is that of a field (44 R200), and the
solver of homogeneous linear systems finds a nonzero solution exactly when there is one.
-/

namespace Sys2Proof.Machine

-- Kernel evaluations one after another, so that no others wait for them in threads of their own.
set_option Elab.async false

theorem byte_xor_eq_zero {a b : Byte} : a ^^^ b = 0 ↔ a = b := BitVec.xor_eq_zero_iff

/-! ### Distributivity, for any field polynomial -/

theorem hasBit_two_pow (x i : Nat) : hasBit x (2 ^ i) = x.testBit i := by
  show Nat.ble 1 (x &&& 2 ^ i) = _
  rw [Nat.and_two_pow]
  cases x.testBit i with
  | false => simp; rfl
  | true => simpa using Nat.one_le_two_pow

theorem gfRound_eq (poly a r : Nat) (b : Bool) : gfRound poly a r b =
    bif b then (bif (r <<< 1).testBit 8 then r <<< 1 ^^^ poly else r <<< 1) ^^^ a
    else bif (r <<< 1).testBit 8 then r <<< 1 ^^^ poly else r <<< 1 := by
  rw [← hasBit_two_pow]
  rfl

theorem gfMul_eq (poly : Nat) (a b : Byte) : gfMul poly a b = BitVec.ofNat 8
    ((List.range 8).reverse.foldl (fun r i => gfRound poly a.toNat r (b.toNat.testBit i)) 0) := by
  simp only [← hasBit_two_pow]
  rfl

theorem gfRound_xor_left (poly a a' r r' : Nat) (b : Bool) :
    gfRound poly (a ^^^ a') (r ^^^ r') b = gfRound poly a r b ^^^ gfRound poly a' r' b := by
  simp only [gfRound_eq, Nat.shiftLeft_xor_distrib, Nat.testBit_xor]
  generalize r <<< 1 = x
  generalize r' <<< 1 = y
  cases x.testBit 8 <;> cases y.testBit 8 <;> cases b <;>
    (apply Nat.eq_of_testBit_eq; intro i; simp [Nat.testBit_xor] <;> grind)

theorem gfRound_xor_right (poly a r r' : Nat) (b b' : Bool) :
    gfRound poly a (r ^^^ r') (b ^^ b') = gfRound poly a r b ^^^ gfRound poly a r' b' := by
  simp only [gfRound_eq, Nat.shiftLeft_xor_distrib, Nat.testBit_xor]
  generalize r <<< 1 = x
  generalize r' <<< 1 = y
  cases x.testBit 8 <;> cases y.testBit 8 <;> cases b <;> cases b' <;>
    (apply Nat.eq_of_testBit_eq; intro i; simp [Nat.testBit_xor] <;> grind)

/-- Multiplication distributes over addition on the left factor. -/
theorem gfMul_xor_left (poly : Nat) (a a' b : Byte) :
    gfMul poly (a ^^^ a') b = gfMul poly a b ^^^ gfMul poly a' b := by
  have start : ∀ c : Bool, gfRound poly (a.toNat ^^^ a'.toNat) 0 c =
      gfRound poly a.toNat 0 c ^^^ gfRound poly a'.toNat 0 c := by
    intro c
    have := gfRound_xor_left poly a.toNat a'.toNat 0 0 c
    simpa using this
  simp only [gfMul_eq, show (List.range 8).reverse = [7, 6, 5, 4, 3, 2, 1, 0] from rfl, List.foldl_cons, List.foldl_nil,
    BitVec.toNat_xor, start, gfRound_xor_left, BitVec.ofNat_xor]

/-- Multiplication distributes over addition on the right factor. -/
theorem gfMul_xor_right (poly : Nat) (a b b' : Byte) :
    gfMul poly a (b ^^^ b') = gfMul poly a b ^^^ gfMul poly a b' := by
  have start : ∀ c c' : Bool, gfRound poly a.toNat 0 (c ^^ c') =
      gfRound poly a.toNat 0 c ^^^ gfRound poly a.toNat 0 c' := by
    intro c c'
    have := gfRound_xor_right poly a.toNat 0 0 c c'
    simpa using this
  simp only [gfMul_eq, show (List.range 8).reverse = [7, 6, 5, 4, 3, 2, 1, 0] from rfl, List.foldl_cons, List.foldl_nil,
    BitVec.toNat_xor, Nat.testBit_xor, start, gfRound_xor_right, BitVec.ofNat_xor]

/-- A map that respects addition is determined by its values at the eight powers of two. -/
theorem additive_ext {f g : Byte → Byte} (hf : ∀ x y, f (x ^^^ y) = f x ^^^ f y)
    (hg : ∀ x y, g (x ^^^ y) = g x ^^^ g y)
    (h : f 1 = g 1 ∧ f 2 = g 2 ∧ f 4 = g 4 ∧ f 8 = g 8 ∧ f 16 = g 16 ∧ f 32 = g 32 ∧ f 64 = g 64 ∧ f 128 = g 128)
    (x : Byte) : f x = g x := by
  have zero : ∀ {k : Byte → Byte}, (∀ x y, k (x ^^^ y) = k x ^^^ k y) → k 0 = 0 := by
    intro k hk
    have := hk 0 0
    simpa using this
  have bits : x = (if x.getLsbD 0 then 1 else 0) ^^^ (if x.getLsbD 1 then 2 else 0) ^^^
      (if x.getLsbD 2 then 4 else 0) ^^^ (if x.getLsbD 3 then 8 else 0) ^^^ (if x.getLsbD 4 then 16 else 0) ^^^
      (if x.getLsbD 5 then 32 else 0) ^^^ (if x.getLsbD 6 then 64 else 0) ^^^ (if x.getLsbD 7 then 128 else 0) := by
    revert x
    decide +kernel
  obtain ⟨h0, h1, h2, h3, h4, h5, h6, h7⟩ := h
  rw [bits]
  simp only [hf, hg, apply_ite f, apply_ite g, zero hf, zero hg, h0, h1, h2, h3, h4, h5, h6, h7]

@[simp] theorem gfMul_zero_left (poly : Nat) (b : Byte) : gfMul poly 0#8 b = 0#8 := by
  have := gfMul_xor_left poly 0 0 b
  simpa using this

@[simp] theorem gfMul_zero_right (poly : Nat) (a : Byte) : gfMul poly a 0#8 = 0#8 := by
  have := gfMul_xor_right poly a 0 0
  simpa using this

/-! ### The field laws, for 0x11D -/

theorem gfMul_comm (a b : Byte) : gfMul 0x11D a b = gfMul 0x11D b a := by
  have basis : ∀ j : Fin 8, ∀ i : Fin 8,
      gfMul 0x11D (BitVec.ofNat 8 (2 ^ i.val)) (BitVec.ofNat 8 (2 ^ j.val)) =
        gfMul 0x11D (BitVec.ofNat 8 (2 ^ j.val)) (BitVec.ofNat 8 (2 ^ i.val)) := by
    decide +kernel
  have one : ∀ (j : Fin 8) (x : Byte), gfMul 0x11D x (BitVec.ofNat 8 (2 ^ j.val)) =
      gfMul 0x11D (BitVec.ofNat 8 (2 ^ j.val)) x := by
    intro j
    exact additive_ext (fun x y => gfMul_xor_left _ x y _) (fun x y => gfMul_xor_right _ _ x y)
      ⟨basis j 0, basis j 1, basis j 2, basis j 3, basis j 4, basis j 5, basis j 6, basis j 7⟩
  exact additive_ext (f := fun b => gfMul 0x11D a b) (g := fun b => gfMul 0x11D b a)
    (fun x y => gfMul_xor_right _ a x y) (fun x y => gfMul_xor_left _ x y a)
    ⟨one 0 a, one 1 a, one 2 a, one 3 a, one 4 a, one 5 a, one 6 a, one 7 a⟩ b

theorem gfMul_assoc (a b c : Byte) : gfMul 0x11D (gfMul 0x11D a b) c = gfMul 0x11D a (gfMul 0x11D b c) := by
  have basis : ∀ k : Fin 8, ∀ j : Fin 8, ∀ i : Fin 8,
      gfMul 0x11D (gfMul 0x11D (BitVec.ofNat 8 (2 ^ i.val)) (BitVec.ofNat 8 (2 ^ j.val))) (BitVec.ofNat 8 (2 ^ k.val)) =
        gfMul 0x11D (BitVec.ofNat 8 (2 ^ i.val)) (gfMul 0x11D (BitVec.ofNat 8 (2 ^ j.val)) (BitVec.ofNat 8 (2 ^ k.val))) := by
    decide +kernel
  have two : ∀ (k j : Fin 8) (x : Byte),
      gfMul 0x11D (gfMul 0x11D x (BitVec.ofNat 8 (2 ^ j.val))) (BitVec.ofNat 8 (2 ^ k.val)) =
        gfMul 0x11D x (gfMul 0x11D (BitVec.ofNat 8 (2 ^ j.val)) (BitVec.ofNat 8 (2 ^ k.val))) := by
    intro k j
    exact additive_ext (fun x y => by simp only [gfMul_xor_left]) (fun x y => gfMul_xor_left _ x y _)
      ⟨basis k j 0, basis k j 1, basis k j 2, basis k j 3, basis k j 4, basis k j 5, basis k j 6, basis k j 7⟩
  have one : ∀ (k : Fin 8) (x : Byte), gfMul 0x11D (gfMul 0x11D a x) (BitVec.ofNat 8 (2 ^ k.val)) =
      gfMul 0x11D a (gfMul 0x11D x (BitVec.ofNat 8 (2 ^ k.val))) := by
    intro k
    exact additive_ext (fun x y => by simp only [gfMul_xor_left, gfMul_xor_right])
      (fun x y => by simp only [gfMul_xor_left, gfMul_xor_right])
      ⟨two k 0 a, two k 1 a, two k 2 a, two k 3 a, two k 4 a, two k 5 a, two k 6 a, two k 7 a⟩
  exact additive_ext (f := fun c => gfMul 0x11D (gfMul 0x11D a b) c) (g := fun c => gfMul 0x11D a (gfMul 0x11D b c))
    (fun x y => by simp only [gfMul_xor_right]) (fun x y => by simp only [gfMul_xor_right])
    ⟨one 0 b, one 1 b, one 2 b, one 3 b, one 4 b, one 5 b, one 6 b, one 7 b⟩ c

@[simp] theorem gfMul_one_right (a : Byte) : gfMul 0x11D a 1#8 = a := by
  revert a
  decide +kernel

@[simp] theorem gfMul_one_left (a : Byte) : gfMul 0x11D 1#8 a = a := by
  rw [gfMul_comm, gfMul_one_right]

/-- `gfInv` inverts every nonzero element. -/
theorem gfMul_gfInv {a : Byte} (h : a ≠ 0) : gfMul 0x11D a (gfInv 0x11D a) = 1 := by
  revert a
  decide +kernel

theorem gfMul_eq_zero {a b : Byte} (h : gfMul 0x11D a b = 0) : a = 0 ∨ b = 0 := by
  by_cases ha : a = 0
  · exact .inl ha
  · right
    calc b = gfMul 0x11D (gfMul 0x11D a (gfInv 0x11D a)) b := by rw [gfMul_gfInv ha]; exact (gfMul_one_left b).symm
      _ = gfMul 0x11D (gfInv 0x11D a) (gfMul 0x11D a b) := by rw [gfMul_comm a, gfMul_assoc]
      _ = 0 := by rw [h]; exact gfMul_zero_right _ _

/-! ### The linear solver, for 0x11D -/

/-- `q · Σ x[j]·y[j]`, the scaled and added row, under a scalar product. -/
theorem gfDot_eliminate (q : Byte) (a b x : List Byte) (hab : a.length = b.length) (hbx : b.length = x.length) :
    gfDot 0x11D (List.zipWith (fun u v => v ^^^ gfMul 0x11D q u) a b) x =
      gfDot 0x11D b x ^^^ gfMul 0x11D q (gfDot 0x11D a x) := by
  induction a generalizing b x with
  | nil =>
    cases b with
    | nil => simp [gfDot]
    | cons _ _ => simp at hab
  | cons u a ih =>
    cases b with
    | nil => simp at hab
    | cons v b =>
      cases x with
      | nil => simp at hbx
      | cons z x =>
        simp only [List.zipWith_cons_cons, gfDot]
        rw [ih b x (by simpa using hab) (by simpa using hbx), gfMul_xor_left, gfMul_xor_right, gfMul_assoc]
        ac_rfl

theorem gfDot_zero {row x : List Byte} (h : ∀ c ∈ x, c = 0) : gfDot 0x11D row x = 0 := by
  induction row generalizing x with
  | nil => simp [gfDot]
  | cons c row ih =>
    cases x with
    | nil => simp [gfDot]
    | cons z x =>
      have hz : z = 0 := h z (by simp)
      have hx : ∀ c ∈ x, c = 0 := fun c hc => h c (List.mem_cons_of_mem z hc)
      rw [gfDot, hz, ih hx]
      exact BitVec.xor_eq_zero_iff.2 (gfMul_zero_right _ _)

theorem gfDot_unit {row : List Byte} (n : Nat) (h : row.headD 0 = 0) :
    gfDot 0x11D row (1 :: List.replicate n 0) = 0 := by
  cases row with
  | nil => rfl
  | cons c row =>
    have hc : c = 0 := h
    rw [gfDot, hc, gfDot_zero (fun c hc => List.eq_of_mem_replicate hc)]
    exact BitVec.xor_eq_zero_iff.2 (gfMul_zero_left _ _)

/-- What the solver answers is a nonzero solution. -/
theorem gfNullVec_sound {n : Nat} {rows : List (List Byte)} {x : List Byte} (hrows : ∀ row ∈ rows, row.length = n)
    (h : gfNullVec 0x11D n rows = some x) :
    x.length = n ∧ (∃ c ∈ x, c ≠ 0) ∧ ∀ row ∈ rows, gfDot 0x11D row x = 0 := by
  induction n generalizing rows x with
  | zero => cases h
  | succ n ih =>
    rw [gfNullVec] at h
    split at h
    · rename_i hnone
      cases h
      refine ⟨by simp, ⟨1, by simp, by decide⟩, fun row hrow => gfDot_unit n ?_⟩
      have := List.find?_eq_none.1 hnone row hrow
      simpa using this
    · rename_i a hsome
      have ha0 : a.headD 0 ≠ 0 := by simpa using List.find?_some hsome
      have hal : a.length = n + 1 := hrows a (List.mem_of_find?_eq_some hsome)
      split at h
      · cases h
      · rename_i z hz
        cases h
        have hlen : ∀ row ∈ rows.map (gfEliminate 0x11D a), row.length = n := by
          intro row hrow
          obtain ⟨b, hb, rfl⟩ := List.mem_map.1 hrow
          have := hrows b hb
          simp [gfEliminate, hal, this]
        obtain ⟨hzl, hzn, hzero⟩ := ih hlen hz
        refine ⟨by simp [hzl], ?_, ?_⟩
        · obtain ⟨c, hc, hc0⟩ := hzn
          exact ⟨c, by simp [hc], hc0⟩
        · intro b hb
          have hbl := hrows b hb
          obtain ⟨a0, a', rfl⟩ := List.exists_cons_of_length_pos (l := a) (by omega)
          obtain ⟨b0, b', rfl⟩ := List.exists_cons_of_length_pos (l := b) (by omega)
          have e := hzero _ (List.mem_map.2 ⟨_, hb, rfl⟩)
          simp only [gfEliminate, List.headD_cons, List.tail_cons] at e
          rw [gfDot_eliminate _ _ _ _ (by simp at hal hbl; omega) (by simp at hbl; omega)] at e
          simp only [List.headD_cons, List.tail_cons, gfDot]
          rw [gfMul_comm (gfDot 0x11D a' z), ← gfMul_assoc, BitVec.xor_comm]
          exact e

/-- Where there is a nonzero solution, the solver answers. -/
theorem gfNullVec_complete {n : Nat} {rows : List (List Byte)} {x : List Byte}
    (hrows : ∀ row ∈ rows, row.length = n) (hx : x.length = n) (hn : ∃ c ∈ x, c ≠ 0)
    (hzero : ∀ row ∈ rows, gfDot 0x11D row x = 0) : ∃ y, gfNullVec 0x11D n rows = some y := by
  induction n generalizing rows x with
  | zero =>
    obtain ⟨c, hc, _⟩ := hn
    rw [List.length_eq_zero_iff.1 hx] at hc
    cases hc
  | succ n ih =>
    rw [gfNullVec]
    split
    · exact ⟨_, rfl⟩
    · rename_i a hsome
      have ha0 : a.headD 0 ≠ 0 := by simpa using List.find?_some hsome
      have hamem := List.mem_of_find?_eq_some hsome
      have hal : a.length = n + 1 := hrows a hamem
      obtain ⟨a0, a', rfl⟩ := List.exists_cons_of_length_pos (l := a) (by omega)
      obtain ⟨x0, x', rfl⟩ := List.exists_cons_of_length_pos (l := x) (by omega)
      have hx' : x'.length = n := by simpa using hx
      have hlen : ∀ row ∈ rows.map (gfEliminate 0x11D (a0 :: a')), row.length = n := by
        intro row hrow
        obtain ⟨b, hb, rfl⟩ := List.mem_map.1 hrow
        have := hrows b hb
        simp only [List.length_cons, Nat.add_right_cancel_iff] at hal
        simp [gfEliminate, hal, this]
      have hpivot : gfMul 0x11D a0 x0 = gfDot 0x11D a' x' := by
        have := hzero _ hamem
        simpa only [gfDot, byte_xor_eq_zero] using this
      have hne : ∃ c ∈ x', c ≠ 0 := by
        by_contra hall
        push Not at hall
        have hx0 : x0 = 0 := by
          rw [gfDot_zero hall] at hpivot
          exact (gfMul_eq_zero hpivot).resolve_left ha0
        obtain ⟨c, hc, hc0⟩ := hn
        rcases List.mem_cons.1 hc with rfl | hc
        · exact hc0 hx0
        · exact hc0 (hall c hc)
      have hred : ∀ row ∈ rows.map (gfEliminate 0x11D (a0 :: a')), gfDot 0x11D row x' = 0 := by
        intro row hrow
        obtain ⟨b, hb, rfl⟩ := List.mem_map.1 hrow
        have hbl := hrows b hb
        obtain ⟨b0, b', rfl⟩ := List.exists_cons_of_length_pos (l := b) (by omega)
        have hbz := hzero _ hb
        simp only [gfDot, byte_xor_eq_zero] at hbz
        simp only [gfEliminate, List.headD_cons, List.tail_cons]
        rw [gfDot_eliminate _ _ _ _ (by simp at hal hbl; omega) (by simp at hbl; omega), ← hbz, ← hpivot,
          gfMul_assoc, ← gfMul_assoc (gfInv 0x11D a0), gfMul_comm (gfInv 0x11D a0),
          gfMul_gfInv (by simpa using ha0)]
        simp
      obtain ⟨y, hy⟩ := ih hlen hx' hne hred
      rw [hy]
      exact ⟨_, rfl⟩

end Sys2Proof.Machine
end

