-- ==== Sys2Proof/Laws/ReedSolomon.lean ====
section
/-!
SUPPORT. What the operations of the Reed–Solomon codec do, said once per operation: the lengths and the elements of
the lists they build (44 R201–R206).
-/

namespace Sys2Proof.Machine

variable (cfg : Config)

@[simp] theorem gfGeometric_length (poly : Nat) (q : Byte) (n : Nat) (x : Byte) :
    (gfGeometric poly q n x).length = n := by
  induction n generalizing x with
  | zero => rfl
  | succ n ih => simp [gfGeometric, ih]

/-- Entry i of a geometric sequence is its first entry times q, i times. -/
theorem gfGeometric_getD (poly : Nat) (q : Byte) {n i : Nat} (x : Byte) (h : i < n) :
    (gfGeometric poly q n x).getD i 0 = (fun y => gfMul poly y q)^[i] x := by
  induction n generalizing x i with
  | zero => omega
  | succ n ih =>
    cases i with
    | zero => rfl
    | succ i => exact ih _ (by omega)

@[simp] theorem rsRoots_length : (rsRoots cfg).length = 32 := gfGeometric_length _ _ _ _

@[simp] theorem rsLocators_length : (rsLocators cfg).length = 128 := by simp [rsLocators]

@[simp] theorem rsSyndromes_length (r : List Byte) : (rsSyndromes cfg r).length = 32 := by simp [rsSyndromes]

@[simp] theorem mulRoot_length (poly : Nat) (g : List Byte) (c : Byte) : (mulRoot poly g c).length = g.length + 1 := by
  simp [mulRoot]

@[simp] theorem rsGen_length : (rsGen cfg).length = 33 := by
  have fold : ∀ roots g : List Byte, (roots.foldl (mulRoot cfg.rsPoly) g).length = g.length + roots.length := by
    intro roots
    induction roots with
    | nil => intro g; rfl
    | cons c roots ih => intro g; rw [List.foldl_cons, ih, mulRoot_length, List.length_cons]; omega
  rw [rsGen, fold, rsRoots_length]
  rfl

@[simp] theorem xorInto_length (ds r : List Byte) : (xorInto ds r).length = r.length := by
  induction r generalizing ds with
  | nil => cases ds <;> rfl
  | cons x r ih => cases ds <;> simp [xorInto, ih]

@[simp] theorem rsDivStep_length (poly : Nat) (g r : List Byte) : (rsDivStep poly g r).length = r.length - 1 := by
  cases r with
  | nil => rfl
  | cons c r =>
    show (if c = 0 then r else xorInto (g.map (fun x => gfMul poly x c)) r).length = r.length
    split <;> simp

@[simp] theorem rsDivide_length (poly : Nat) (g : List Byte) (n : Nat) (r : List Byte) :
    (rsDivide poly g n r).length = r.length - n := by
  induction n generalizing r with
  | zero => rfl
  | succ n ih => rw [rsDivide, ih, rsDivStep_length]; omega

@[simp] theorem rsRemainder_length (r : List Byte) : (rsRemainder cfg r).length = r.length - 96 :=
  rsDivide_length _ _ _ _

theorem rsEcc_length {m : List Byte} (h : m.length = 96) : (rsEcc cfg m).length = 32 := by simp [rsEcc, h]

@[simp] theorem pad96_length (t : List Byte) : (pad96 cfg t).length = 96 := by
  unfold pad96
  split <;> simp <;> omega

/-- A message byte is the text's byte, the separator after the text, or zero (44 R202). -/
theorem pad96_getD (t : List Byte) {k : Nat} (h : k < 96) :
    (pad96 cfg t).getD k 0 = if k < t.length then t.getD k 0 else if k = t.length then cfg.rsTerm else 0 := by
  unfold pad96
  split
  · by_cases hk : k < t.length
    · simp [List.getD, hk, List.getElem?_append_left]
    · obtain ⟨d, rfl⟩ : ∃ d, k = t.length + d := ⟨k - t.length, by omega⟩
      cases d with
      | zero => simp [List.getD]
      | succ d =>
        have hd : d < 95 - t.length := by omega
        simp [List.getD, hd]
  · have hk : k < t.length := by omega
    simp [List.getD, h, hk]

@[simp] theorem rsDrawn_length (draws : Nat) : (rsDrawn draws).length = 96 := by simp [rsDrawn]

theorem rsDrawn_getD (draws : Nat) {k : Nat} (h : k < 96) : (rsDrawn draws).getD k 0 = Config.drawByte (draws + k) := by
  simp [rsDrawn, h]

/-- What the decoder returns it has checked: the message of a codeword within distance 16 (44 R206). -/
theorem rsNearest_some {r m : List Byte} (h : rsNearest cfg r = some m) :
    ∃ c, isCodeword cfg c = true ∧ distance r c ≤ 16 ∧ m = c.take 96 := by
  unfold rsNearest at h
  split at h
  · cases h
  · rename_i c _
    split at h
    · rename_i hc
      simp only [Bool.and_eq_true, decide_eq_true_eq] at hc
      exact ⟨c, hc.1, hc.2, (Option.some.inj h).symm⟩
    · cases h

theorem isCodeword_length {c : List Byte} (h : isCodeword cfg c = true) : c.length = 128 := by
  simp only [isCodeword, Bool.and_eq_true, decide_eq_true_eq] at h
  exact h.1

@[simp] theorem rsDecode_length (draws : Nat) (r : List Byte) : (rsDecode cfg draws r).1.length = 96 := by
  unfold rsDecode
  split
  · rename_i m h
    obtain ⟨c, hc, -, rfl⟩ := rsNearest_some cfg h
    simp [isCodeword_length cfg hc]
  · exact rsDrawn_length draws

@[simp] theorem distance_self (x : List Byte) : distance x x = 0 := by
  induction x with
  | nil => rfl
  | cons a x ih => simp [distance, ih]

theorem distance_comm (x y : List Byte) : distance x y = distance y x := by
  induction x generalizing y with
  | nil => cases y <;> rfl
  | cons a x ih =>
    cases y with
    | nil => rfl
    | cons b y => simp [distance, ih y, ne_comm]

/-- For frames of one length the distance obeys the triangle inequality. -/
theorem distance_triangle {x y z : List Byte} (hy : x.length = y.length) (hz : y.length = z.length) :
    distance x z ≤ distance x y + distance y z := by
  induction x generalizing y z with
  | nil => simp [distance]
  | cons a x ih =>
    cases y with
    | nil => simp at hy
    | cons b y =>
      cases z with
      | nil => simp at hz
      | cons c z =>
        have := ih (Nat.succ.inj hy) (Nat.succ.inj hz)
        simp only [distance]
        by_cases hab : a = b
        · subst hab
          simp
          omega
        · simp only [ne_eq, hab, not_false_eq_true, if_true]
          split <;> split <;> omega

/-- The repair of a word keeps its length. -/
@[simp] theorem rsRepair_length (p : Nat) (errors : List (Nat × Byte)) (r : List Byte) :
    (rsRepair p errors r).length = r.length := by
  induction r generalizing p errors with
  | nil => cases errors <;> rfl
  | cons x r ih =>
    match errors with
    | [] => rfl
    | (q, e) :: errors =>
      unfold rsRepair
      split <;> simp [ih]

end Sys2Proof.Machine
end

