-- ==== Sys2Proof/Laws/Code.lean ====
section
/-!
SUPPORT. The Reed–Solomon code over the default field (44 R200, R205): evaluation of polynomials, the remainder of
the long division at a root of the generator, and the independence of the powers of distinct locators.
-/

namespace Sys2Proof.Machine

-- Kernel evaluations one after another, so that no others wait for them in threads of their own.
set_option Elab.async false

/-! ### Powers and evaluation -/

theorem gfMul_left_comm (a b c : Byte) : gfMul 0x11D a (gfMul 0x11D b c) = gfMul 0x11D b (gfMul 0x11D a c) := by
  rw [← gfMul_assoc, gfMul_comm a b, gfMul_assoc]

theorem gfPow_add (a : Byte) (m n : Nat) :
    gfPow 0x11D a (m + n) = gfMul 0x11D (gfPow 0x11D a m) (gfPow 0x11D a n) := by
  induction n with
  | zero => exact (gfMul_one_right _).symm
  | succ n ih => rw [← Nat.add_assoc, gfPow, gfPow, ih, gfMul_assoc]

theorem gfPow_gfPow (a : Byte) (m n : Nat) : gfPow 0x11D (gfPow 0x11D a m) n = gfPow 0x11D a (m * n) := by
  induction n with
  | zero => rfl
  | succ n ih => rw [gfPow, ih, Nat.mul_succ, gfPow_add]

theorem gfPow_swap (a : Byte) (m n : Nat) :
    gfPow 0x11D (gfPow 0x11D a m) n = gfPow 0x11D (gfPow 0x11D a n) m := by
  rw [gfPow_gfPow, gfPow_gfPow, Nat.mul_comm]

@[simp] theorem gfEvalHigh_nil (poly : Nat) (x : Byte) : gfEvalHigh poly [] x = 0 := rfl

theorem gfEvalHigh_cons (c : Byte) (cs : List Byte) (x : Byte) :
    gfEvalHigh 0x11D (c :: cs) x = gfMul 0x11D c (gfPow 0x11D x cs.length) ^^^ gfEvalHigh 0x11D cs x := by
  have horner : ∀ (cs : List Byte) (acc : Byte), cs.foldl (fun acc c => gfMul 0x11D acc x ^^^ c) acc =
      gfMul 0x11D acc (gfPow 0x11D x cs.length) ^^^ gfEvalHigh 0x11D cs x := by
    intro cs
    induction cs with
    | nil => intro acc; simp [gfPow]
    | cons d cs ih =>
      intro acc
      have hd : gfEvalHigh 0x11D (d :: cs) x =
          gfMul 0x11D d (gfPow 0x11D x cs.length) ^^^ gfEvalHigh 0x11D cs x := by
        unfold gfEvalHigh
        rw [List.foldl_cons, show gfMul 0x11D 0 x = 0 from gfMul_zero_left _ _, show (0 : Byte) ^^^ d = d from BitVec.zero_xor, ih]
        rfl
      rw [List.foldl_cons, ih, hd, gfMul_xor_left, List.length_cons, gfPow, gfMul_assoc,
        gfMul_comm x (gfPow 0x11D x cs.length), BitVec.xor_assoc]
  unfold gfEvalHigh
  rw [List.foldl_cons, show gfMul 0x11D 0 x = 0 from gfMul_zero_left _ _, show (0 : Byte) ^^^ c = c from BitVec.zero_xor,
    horner]
  rfl

theorem gfEvalHigh_zeros (n : Nat) (x : Byte) : gfEvalHigh 0x11D (List.replicate n 0) x = 0 := by
  induction n with
  | zero => rfl
  | succ n ih =>
    rw [List.replicate_succ, gfEvalHigh_cons, ih]
    simp

theorem gfEvalHigh_scale (c : Byte) (g : List Byte) (x : Byte) :
    gfEvalHigh 0x11D (g.map (fun y => gfMul 0x11D y c)) x = gfMul 0x11D (gfEvalHigh 0x11D g x) c := by
  induction g with
  | nil => simp
  | cons y g ih =>
    rw [List.map_cons, gfEvalHigh_cons, gfEvalHigh_cons, ih, gfMul_xor_left, List.length_map, gfMul_assoc, gfMul_assoc,
      gfMul_comm c]

theorem gfEvalHigh_zipWith {c d : List Byte} (h : c.length = d.length) (x : Byte) :
    gfEvalHigh 0x11D (List.zipWith (· ^^^ ·) c d) x = gfEvalHigh 0x11D c x ^^^ gfEvalHigh 0x11D d x := by
  induction c generalizing d with
  | nil => cases d <;> simp at h ⊢
  | cons a c ih =>
    cases d with
    | nil => simp at h
    | cons b d =>
      have hl : c.length = d.length := Nat.succ.inj h
      rw [List.zipWith_cons_cons, gfEvalHigh_cons, gfEvalHigh_cons, gfEvalHigh_cons, ih hl, gfMul_xor_left,
        List.length_zipWith, ← hl, Nat.min_self]
      ac_rfl

theorem gfEvalHigh_xorInto {ds r : List Byte} (h : ds.length ≤ r.length) (x : Byte) :
    gfEvalHigh 0x11D (xorInto ds r) x = gfEvalHigh 0x11D r x ^^^
      gfMul 0x11D (gfEvalHigh 0x11D ds x) (gfPow 0x11D x (r.length - ds.length)) := by
  induction ds generalizing r with
  | nil => cases r <;> simp [xorInto]
  | cons d ds ih =>
    cases r with
    | nil => simp at h
    | cons y r =>
      have hl : ds.length ≤ r.length := Nat.le_of_succ_le_succ h
      have hp : gfPow 0x11D x r.length =
          gfMul 0x11D (gfPow 0x11D x ds.length) (gfPow 0x11D x (r.length - ds.length)) := by
        rw [← gfPow_add]
        congr 1
        omega
      rw [xorInto, gfEvalHigh_cons, gfEvalHigh_cons, gfEvalHigh_cons, ih hl, gfMul_xor_left, gfMul_xor_left,
        xorInto_length, List.length_cons, List.length_cons, Nat.succ_sub_succ, gfMul_assoc, ← hp]
      ac_rfl

/-! ### The long division at a root of the divisor (44 R203) -/

theorem gfEvalHigh_rsDivStep {g : List Byte} {x : Byte} (root : gfEvalHigh 0x11D (1 :: g) x = 0) {r : List Byte}
    (h : g.length < r.length) : gfEvalHigh 0x11D (rsDivStep 0x11D g r) x = gfEvalHigh 0x11D r x := by
  cases r with
  | nil => simp at h
  | cons c r =>
    have hl : g.length ≤ r.length := Nat.lt_succ_iff.1 h
    show gfEvalHigh 0x11D (if c = 0 then r else xorInto (g.map (fun y => gfMul 0x11D y c)) r) x = _
    rw [gfEvalHigh_cons]
    split
    · rename_i hc
      subst hc
      simp
    · have lead : gfEvalHigh 0x11D g x = gfPow 0x11D x g.length := by
        rw [gfEvalHigh_cons] at root
        exact (byte_xor_eq_zero.1 (by simpa using root)).symm
      rw [gfEvalHigh_xorInto (by simpa using hl), gfEvalHigh_scale, lead, List.length_map, gfMul_comm _ c, gfMul_assoc,
        ← gfPow_add, show g.length + (r.length - g.length) = r.length by omega, BitVec.xor_comm]

/-- Where the generator vanishes, a frame and its remainder have the same value. -/
theorem gfEvalHigh_rsDivide {g : List Byte} {x : Byte} (root : gfEvalHigh 0x11D (1 :: g) x = 0) (n : Nat)
    {r : List Byte} (h : g.length + n ≤ r.length) :
    gfEvalHigh 0x11D (rsDivide 0x11D g n r) x = gfEvalHigh 0x11D r x := by
  induction n generalizing r with
  | zero => rfl
  | succ n ih =>
    rw [rsDivide, ih (by rw [rsDivStep_length]; omega), gfEvalHigh_rsDivStep root (by omega)]

/-- The generator vanishes at its 32 roots (44 R201). -/
theorem rsGen_root {i : Nat} (h : i < 32) : gfEvalHigh 0x11D (rsGen standardConfig) (gfPow 0x11D 0x02 i) = 0 := by
  have all : ∀ i : Fin 32, gfEvalHigh 0x11D (rsGen standardConfig) (gfPow 0x11D 0x02 i.val) = 0 := by decide +kernel
  exact all ⟨i, h⟩

theorem rsGen_eq_cons : rsGen standardConfig = 1 :: (rsGen standardConfig).tail := by decide +kernel

theorem gfEvalHigh_rsRemainder {r : List Byte} (hr : r.length = 128) {i : Nat} (h : i < 32) :
    gfEvalHigh 0x11D (rsRemainder standardConfig r) (gfPow 0x11D 0x02 i) =
      gfEvalHigh 0x11D r (gfPow 0x11D 0x02 i) := by
  refine gfEvalHigh_rsDivide ?_ 96 (by simp [hr])
  rw [← rsGen_eq_cons]
  exact rsGen_root h

/-- A member of the code vanishes at the generator's roots (44 R205). -/
theorem isCodeword_root {c : List Byte} (hc : isCodeword standardConfig c = true) {i : Nat} (h : i < 32) :
    gfEvalHigh 0x11D c (gfPow 0x11D 0x02 i) = 0 := by
  have hl := isCodeword_length standardConfig hc
  simp only [isCodeword, Bool.and_eq_true, decide_eq_true_eq] at hc
  rw [← gfEvalHigh_rsRemainder hl h, hc.2, gfEvalHigh_zeros]

/-! ### The powers of distinct locators are independent -/

/-- Σ e·X^i over the terms (X, e). -/
def powerSum : List (Byte × Byte) → Nat → Byte
  | [], _ => 0
  | (x, e) :: ts, i => gfMul 0x11D e (gfPow 0x11D x i) ^^^ powerSum ts i

/-- The terms of a frame, highest first: entry p of n is the coefficient of x^(n - 1 - p). -/
def frameTerms : List Byte → List (Byte × Byte)
  | [] => []
  | c :: cs => (gfPow 0x11D 0x02 cs.length, c) :: frameTerms cs

theorem powerSum_frameTerms (c : List Byte) (i : Nat) :
    powerSum (frameTerms c) i = gfEvalHigh 0x11D c (gfPow 0x11D 0x02 i) := by
  induction c with
  | nil => rfl
  | cons a c ih => rw [frameTerms, powerSum, ih, gfEvalHigh_cons, gfPow_swap]

theorem powerSum_filter (ts : List (Byte × Byte)) (i : Nat) :
    powerSum (ts.filter (fun t => t.2 ≠ 0)) i = powerSum ts i := by
  induction ts with
  | nil => rfl
  | cons t ts ih =>
    by_cases h : t.2 = 0
    · rw [List.filter_cons_of_neg (by simpa using h), ih, powerSum, h]
      simp
    · rw [List.filter_cons_of_pos (by simpa using h), powerSum, powerSum, ih]

/-- The terms times (X + z), term by term. -/
theorem powerSum_shift (z : Byte) (ts : List (Byte × Byte)) (i : Nat) :
    powerSum (ts.map (fun t => (t.1, gfMul 0x11D t.2 (t.1 ^^^ z)))) i =
      powerSum ts (i + 1) ^^^ gfMul 0x11D z (powerSum ts i) := by
  induction ts with
  | nil => simp [powerSum]
  | cons t ts ih =>
    have term : gfMul 0x11D (gfMul 0x11D t.2 (t.1 ^^^ z)) (gfPow 0x11D t.1 i) =
        gfMul 0x11D t.2 (gfPow 0x11D t.1 (i + 1)) ^^^ gfMul 0x11D z (gfMul 0x11D t.2 (gfPow 0x11D t.1 i)) := by
      rw [gfMul_xor_right, gfMul_xor_left, gfPow, gfMul_assoc, gfMul_assoc, gfMul_comm t.1, gfMul_left_comm z,
        gfMul_comm z]
    rw [List.map_cons, powerSum, powerSum, powerSum, ih, term, gfMul_xor_right]
    ac_rfl

/-- Terms at distinct locators whose first power sums vanish, as many as there are terms, are all zero. -/
theorem powerSum_independent {ts : List (Byte × Byte)} (distinct : (ts.map Prod.fst).Nodup)
    (h : ∀ i, i < ts.length → powerSum ts i = 0) : ∀ t ∈ ts, t.2 = 0 := by
  induction hn : ts.length generalizing ts with
  | zero =>
    intro t ht
    rw [List.length_eq_zero_iff.1 hn] at ht
    cases ht
  | succ n ih =>
    match ts, hn with
    | (z, e) :: ts, hn =>
      have hlen : ts.length = n := Nat.succ.inj hn
      rw [List.map_cons, List.nodup_cons] at distinct
      have tail : ∀ t ∈ ts, t.2 = 0 := by
        have shifted := ih (ts := ts.map (fun t => (t.1, gfMul 0x11D t.2 (t.1 ^^^ z))))
          (by simpa [Function.comp_def] using distinct.2)
          (by
            intro i hi
            have whole := powerSum_shift z ((z, e) :: ts) i
            rw [h _ (by simp at hi ⊢; omega), h _ (by simp at hi ⊢; omega), List.map_cons, powerSum] at whole
            simpa using whole)
          (by simpa using hlen)
        intro t ht
        have := shifted _ (List.mem_map_of_mem ht)
        rcases gfMul_eq_zero this with h0 | h0
        · exact h0
        · exfalso
          exact distinct.1 (List.mem_map.2 ⟨t, ht, byte_xor_eq_zero.1 h0⟩)
      have rest : powerSum ts 0 = 0 := by
        clear ih h distinct hn hlen
        induction ts with
        | nil => rfl
        | cons t ts ih =>
          rw [powerSum, tail t (by simp), ih (fun u hu => tail u (by simp [hu]))]
          simp
      have head : e = 0 := by
        have first := h 0 (by simp)
        rw [powerSum, rest] at first
        simpa [gfPow] using first
      intro t ht
      rcases List.mem_cons.1 ht with rfl | ht
      · exact head
      · exact tail t ht

/-! ### Frames that are close and agree at the roots are equal (44 R205) -/

theorem frameTerms_locators (c : List Byte) :
    (frameTerms c).map Prod.fst = (List.range c.length).reverse.map (gfPow 0x11D 0x02) := by
  induction c with
  | nil => rfl
  | cons a c ih => rw [frameTerms, List.map_cons, ih, List.length_cons, List.range_succ]; simp

theorem locators_nodup : ((List.range 128).map (gfPow 0x11D 0x02)).Nodup := by
  have geometric : ∀ n m : Nat, gfGeometric 0x11D 0x02 n (gfPow 0x11D 0x02 m) =
      (List.range n).map (fun k => gfPow 0x11D 0x02 (m + k)) := by
    intro n
    induction n with
    | zero => intro m; rfl
    | succ n ih =>
      intro m
      rw [gfGeometric, List.range_succ_eq_map, List.map_cons, List.map_map]
      congr 1
      rw [show gfMul 0x11D (gfPow 0x11D 0x02 m) 0x02 = gfPow 0x11D 0x02 (m + 1) from rfl, ih]
      apply List.map_congr_left
      intro k _
      show gfPow 0x11D 0x02 (m + 1 + k) = gfPow 0x11D 0x02 (m + (k + 1))
      congr 1
      omega
  have concrete : ((gfGeometric 0x11D 0x02 128 1).map BitVec.toNat).Nodup := by decide +kernel
  have := geometric 128 0
  simp only [Nat.zero_add] at this
  rw [← this]
  exact concrete.of_map _

theorem frameTerms_nodup {c : List Byte} (h : c.length ≤ 128) : ((frameTerms c).map Prod.fst).Nodup := by
  rw [frameTerms_locators, List.map_reverse, List.nodup_reverse]
  exact locators_nodup.sublist ((List.range_sublist.2 h).map _)

theorem frameTerms_weight {c d : List Byte} (h : c.length = d.length) :
    ((frameTerms (List.zipWith (· ^^^ ·) c d)).filter (fun t => t.2 ≠ 0)).length = distance c d := by
  induction c generalizing d with
  | nil => cases d <;> rfl
  | cons a c ih =>
    cases d with
    | nil => simp at h
    | cons b d =>
      rw [List.zipWith_cons_cons, frameTerms, distance, ← ih (Nat.succ.inj h)]
      by_cases hab : a = b
      · subst hab
        simp
      · have : a ^^^ b ≠ 0 := fun h0 => hab (byte_xor_eq_zero.1 h0)
        rw [List.filter_cons_of_pos (by simpa using this), List.length_cons, if_pos hab]
        omega

/-- Two frames at distance at most n that agree at the first n powers of the primitive element are equal. -/
theorem eq_of_close {c d : List Byte} (hc : c.length = d.length) (hn : c.length ≤ 128)
    {n : Nat} (near : distance c d ≤ n)
    (agree : ∀ i, i < n → gfEvalHigh 0x11D c (gfPow 0x11D 0x02 i) = gfEvalHigh 0x11D d (gfPow 0x11D 0x02 i)) :
    c = d := by
  have weight := frameTerms_weight hc
  have none : (frameTerms (List.zipWith (· ^^^ ·) c d)).filter (fun t => t.2 ≠ 0) = [] := by
    apply List.eq_nil_iff_forall_not_mem.2
    intro t ht
    refine (by simpa using (List.mem_filter.1 ht).2 : t.2 ≠ 0) (powerSum_independent ?_ ?_ t ht)
    · exact (frameTerms_nodup (by simp; omega)).sublist (List.filter_sublist.map _)
    · intro i hi
      rw [powerSum_filter, powerSum_frameTerms, gfEvalHigh_zipWith hc, agree i (by omega), BitVec.xor_self]
      rfl
  rw [none] at weight
  clear near agree none hn
  induction c generalizing d with
  | nil => cases d <;> simp at hc ⊢
  | cons a c ih =>
    cases d with
    | nil => simp at hc
    | cons b d =>
      simp only [distance, List.length_nil] at weight
      have hab : a = b := by
        by_contra hne
        rw [if_pos hne] at weight
        omega
      subst hab
      rw [ih (Nat.succ.inj hc) (by simp only [List.length_nil]; omega)]

end Sys2Proof.Machine
end

