-- ==== Sys2Proof/Laws/Operands.lean ====
section
/-!
SUPPORT. What the operand shapes hold: bit i of a text, bit j of a packed byte, the packing of a sequence and its
extraction, and the length header in either byte order.
-/

namespace Sys2Proof.Machine

@[simp] theorem byteBits_length (c : Byte) : (byteBits c).length = 8 := rfl

theorem byteBits_getD (c : Byte) {j : Nat} (h : j < 8) : (byteBits c).getD j 0 = c.extractLsb' (7 - j) 1 := by
  interval_cases j <;> rfl

@[simp] theorem textBits_nil : textBits [] = [] := rfl

theorem textBits_cons (c : Byte) (t : List Byte) : textBits (c :: t) = byteBits c ++ textBits t := rfl

@[simp] theorem textBits_length (t : List Byte) : (textBits t).length = 8 * t.length := by
  induction t with
  | nil => rfl
  | cons c t ih => rw [textBits_cons, List.length_append, ih, byteBits_length, List.length_cons]; omega

/-- `u[8k + j] = t[k][7 - j]` (42 R160). -/
theorem textBits_getD (t : List Byte) {i : Nat} (h : i < 8 * t.length) :
    (textBits t).getD i 0 = (t.getD (i / 8) 0).extractLsb' (7 - i % 8) 1 := by
  induction t generalizing i with
  | nil => simp at h
  | cons c t ih =>
    rw [textBits_cons]
    by_cases hi : i < 8
    · rw [List.getD_append _ _ _ _ (by simpa using hi), byteBits_getD c hi, Nat.mod_eq_of_lt hi,
        Nat.div_eq_of_lt hi, List.getD_cons_zero]
    · rw [List.getD_append_right _ _ _ _ (by simpa using hi), byteBits_length,
        ih (by rw [List.length_cons] at h; omega), show i / 8 = (i - 8) / 8 + 1 by omega, List.getD_cons_succ,
        show (i - 8) % 8 = i % 8 by omega]

/-- Bit j of a packed byte is at position 7 - j (43 R180). -/
theorem packByte_bit (bits : List Bit) {j : Nat} (h : j < 8) :
    (packByte bits).extractLsb' (7 - j) 1 = bits.getD j 0 := by
  have append_high : ∀ {n : Nat} (x : BitVec n) (y : BitVec 1) (k : Nat),
      (x ++ y).extractLsb' (k + 1) 1 = x.extractLsb' k 1 := by
    intro n x y k
    apply BitVec.eq_of_getLsbD_eq
    intro i hi
    obtain rfl : i = 0 := by omega
    simp only [BitVec.getLsbD_extractLsb', BitVec.getLsbD_append]
    simp
  have append_low : ∀ {n : Nat} (x : BitVec n) (y : BitVec 1), (x ++ y).extractLsb' 0 1 = y := by
    intro n x y
    apply BitVec.eq_of_getLsbD_eq
    intro i hi
    obtain rfl : i = 0 := by omega
    simp only [BitVec.getLsbD_extractLsb', BitVec.getLsbD_append]
    simp
  have self : ∀ x : BitVec 1, x.extractLsb' 0 1 = x := by decide
  unfold packByte
  interval_cases j
  · exact ((append_high _ _ 6).trans <| (append_high _ _ 5).trans <| (append_high _ _ 4).trans <|
      (append_high _ _ 3).trans <| (append_high _ _ 2).trans <| (append_high _ _ 1).trans <|
      (append_high _ _ 0)).trans (self _)
  · exact (append_high _ _ 5).trans <| (append_high _ _ 4).trans <| (append_high _ _ 3).trans <|
      (append_high _ _ 2).trans <| (append_high _ _ 1).trans <| (append_high _ _ 0).trans (append_low _ _)
  · exact (append_high _ _ 4).trans <| (append_high _ _ 3).trans <|
      (append_high _ _ 2).trans <| (append_high _ _ 1).trans <| (append_high _ _ 0).trans (append_low _ _)
  · exact (append_high _ _ 3).trans <|
      (append_high _ _ 2).trans <| (append_high _ _ 1).trans <| (append_high _ _ 0).trans (append_low _ _)
  · exact (append_high _ _ 2).trans <| (append_high _ _ 1).trans <| (append_high _ _ 0).trans (append_low _ _)
  · exact (append_high _ _ 1).trans <| (append_high _ _ 0).trans (append_low _ _)
  · exact (append_high _ _ 0).trans (append_low _ _)
  · exact append_low _ _

@[simp] theorem packBytes_length (k : Nat) (bits : List Bit) : (packBytes k bits).length = k := by
  induction k generalizing bits with
  | zero => rfl
  | succ k ih => simp [packBytes, ih]

/-- Bit 8m + j of the sequence is bit 7 - j of packed byte m (43 R180). -/
theorem packBytes_bit (k : Nat) (bits : List Bit) {m j : Nat} (hm : m < k) (hj : j < 8) :
    ((packBytes k bits).getD m 0).extractLsb' (7 - j) 1 = bits.getD (8 * m + j) 0 := by
  induction k generalizing bits m with
  | zero => omega
  | succ k ih =>
    cases m with
    | zero =>
      rw [packBytes, List.getD_cons_zero, packByte_bit _ hj]
      simp [List.getD, hj]
    | succ m =>
      rw [packBytes, List.getD_cons_succ, ih (bits.drop 8) (by omega)]
      simp only [List.getD, List.getElem?_drop]
      rw [show 8 + (8 * m + j) = 8 * (m + 1) + j by omega]

@[simp] theorem bitsToBytes_length (bits : List Bit) : (bitsToBytes bits).length = ceil8 bits.length := by
  simp [bitsToBytes]

theorem bitsToBytes_bit (bits : List Bit) {m j : Nat} (hm : m < ceil8 bits.length) (hj : j < 8) :
    ((bitsToBytes bits).getD m 0).extractLsb' (7 - j) 1 = bits.getD (8 * m + j) 0 :=
  packBytes_bit _ _ hm hj

@[simp] theorem bytesToBits_length (bytes : List Byte) (n : Nat) :
    (bytesToBits bytes n).length = min n (8 * bytes.length) := by
  simp [bytesToBits]

/-- Bit i is bit 7 - (i mod 8) of byte i div 8 (43 R181). -/
theorem bytesToBits_getD (bytes : List Byte) {n i : Nat} (hi : i < n) (hb : i < 8 * bytes.length) :
    (bytesToBits bytes n).getD i 0 = (bytes.getD (i / 8) 0).extractLsb' (7 - i % 8) 1 := by
  rw [← textBits_getD bytes hb]
  simp [bytesToBits, List.getD, hi]

@[simp] theorem hdrBytes_length (order : LenOrder) (b : Half) : (hdrBytes order b).length = 2 := by
  cases order <;> rfl

/-- The header a block writes is the one it reads, in either byte order (45 R241). -/
theorem hdr_hdrBytes (order : LenOrder) (b : Half) :
    hdr order ((hdrBytes order b).getD 0 0) ((hdrBytes order b).getD 1 0) = b := by
  have halves : b.extractLsb' 8 8 ++ b.extractLsb' 0 8 = b := by
    apply BitVec.eq_of_getLsbD_eq
    intro i hi
    simp only [BitVec.getLsbD_append, BitVec.getLsbD_extractLsb']
    by_cases h : i < 8
    · simp [h]
    · simp [h, show i - 8 < 8 by omega, show 8 + (i - 8) = i by omega]
  cases order <;> exact halves

/-- The value of a little-endian header (45 R241). -/
theorem hdr_littleEndian_toNat (h0 h1 : Byte) :
    (hdr .littleEndian h0 h1).toNat = h0.toNat + 256 * h1.toNat := by
  show (h1 ++ h0).toNat = _
  rw [BitVec.toNat_append, ← Nat.shiftLeft_add_eq_or_of_lt h0.isLt, Nat.shiftLeft_eq]
  omega

end Sys2Proof.Machine
end

