-- ==== Sys2Proof/Laws/Codecs.lean ====
section
/-!
SUPPORT. What the operations of the interleaver, the encoders, the turbo encoder and the framer do, said once per
operation: lengths and elements of the lists they build.
-/

namespace Sys2Proof.Machine

/-! ### The interleaver (40 R120) -/

theorem swapIfInBounds_perm (p : Array Nat) (i j : Nat) : (p.swapIfInBounds i j).toList.Perm p.toList := by
  unfold Array.swapIfInBounds
  split
  · split
    · exact Array.perm_iff_toList_perm.1 (Array.swap_perm ..)
    · exact List.Perm.refl _
  · exact List.Perm.refl _

/-- The loop of the generator rearranges its array and does nothing else. -/
theorem ilvLoop_perm (n x : Nat) (p : Array Nat) : (ilvLoop n x p).toList.Perm p.toList := by
  induction n generalizing x p with
  | zero => exact List.Perm.refl _
  | succ n ih => exact (ih _ _).trans (swapIfInBounds_perm _ _ _)

/-! ### The encoders (41 R141) -/

@[simp] theorem convParities_length (reading : ParityReading) (g : BitVec 4) (st : BitVec 3) (u : List Bit) :
    (convParities reading g st u).length = u.length := by
  induction u generalizing st with
  | nil => rfl
  | cons b u ih => simp [convParities, ih]

@[simp] theorem convFinal_nil (reading : ParityReading) (g : BitVec 4) (st : BitVec 3) :
    convFinal reading g st [] = st := rfl

@[simp] theorem convFinal_cons (reading : ParityReading) (g : BitVec 4) (st : BitVec 3) (b : Bit) (u : List Bit) :
    convFinal reading g st (b :: u) = convFinal reading g (convStep reading st g b).2 u := rfl

theorem convFinal_append (reading : ParityReading) (g : BitVec 4) (st : BitVec 3) (u v : List Bit) :
    convFinal reading g st (u ++ v) = convFinal reading g (convFinal reading g st u) v :=
  List.foldl_append

/-! ### The turbo encoder (42 R161) -/

@[simp] theorem permuteBits_length (u : List Bit) (p : List Nat) : (permuteBits u p).length = p.length := by
  simp [permuteBits]

theorem permuteBits_getD (u : List Bit) {p : List Nat} {i : Nat} (h : i < p.length) :
    (permuteBits u p).getD i 0 = u.getD (p.getD i 0) 0 := by
  simp [permuteBits, List.getD, h]

theorem triples_length {u p q : List Bit} (hp : u.length = p.length) (hq : u.length = q.length) :
    (triples u p q).length = 3 * u.length := by
  induction u generalizing p q with
  | nil => rfl
  | cons a u ih =>
    cases p with
    | nil => simp at hp
    | cons b p =>
      cases q with
      | nil => simp at hq
      | cons c q =>
        simp [triples, ih (Nat.succ.inj hp) (Nat.succ.inj hq)]
        omega

theorem triples_getD {u p q : List Bit} (hp : u.length = p.length) (hq : u.length = q.length) {i : Nat}
    (hi : i < u.length) :
    (triples u p q).getD (3 * i) 0 = u.getD i 0 ∧ (triples u p q).getD (3 * i + 1) 0 = p.getD i 0 ∧
      (triples u p q).getD (3 * i + 2) 0 = q.getD i 0 := by
  induction u generalizing p q i with
  | nil => simp at hi
  | cons a u ih =>
    cases p with
    | nil => simp at hp
    | cons b p =>
      cases q with
      | nil => simp at hq
      | cons c q =>
        cases i with
        | zero => exact ⟨rfl, rfl, rfl⟩
        | succ i => exact ih (Nat.succ.inj hp) (Nat.succ.inj hq) (Nat.lt_of_succ_lt_succ hi)

theorem turboCodeword_length (cfg : Config) (u : List Bit) {p : List Nat} (h : p.length = u.length) :
    (turboCodeword cfg u p).length = 3 * u.length :=
  triples_length (by simp) (by simp [h])

/-! ### The framer (45 R241, R249) -/

/-- With 32 bits a counter wraps where its register does. -/
theorem counterSucc_of_width {cfg : Config} (h : cfg.cntWidth = 32) (c : Word) : counterSucc cfg c = c + 1 := by
  apply BitVec.eq_of_toNat_eq
  simp [counterSucc, h, BitVec.toNat_add]

theorem ceil8_le {n : Nat} (h : n ≤ 65535) : ceil8 n ≤ 8192 := by
  unfold ceil8
  omega

theorem ceil8_toNat_le (b : Half) : ceil8 b.toNat ≤ 8192 := ceil8_le (by omega)

end Sys2Proof.Machine
end

