-- ==== Sys2Proof/Laws/Decode.lean ====
section
/-!
SUPPORT. What the decoder answers for a word with an illegal opcode, with a reserved bit set, and with neither, and
that those are all its answers (30 R95, R97).
-/

namespace Sys2Proof

section

variable {v : Word}

theorem decode_illegal (h : v.extractLsb' 0 8 = (0x00 : Byte) ∨ (0x0C : Byte) < v.extractLsb' 0 8) :
    decode v = .error .illegalOpcode := by
  show (if _ then _ else _) = _
  rw [if_pos h]

theorem decode_reserved (h : ¬ (v.extractLsb' 0 8 = (0x00 : Byte) ∨ (0x0C : Byte) < v.extractLsb' 0 8))
    (hr : v &&& ~~~(0x000000FF#32 ||| freeBits (v.extractLsb' 0 8)) ≠ 0) :
    decode v = .error .reservedField := by
  show (if _ then _ else if _ then _ else _) = _
  rw [if_neg h, if_pos hr]

theorem decode_command (h : ¬ (v.extractLsb' 0 8 = (0x00 : Byte) ∨ (0x0C : Byte) < v.extractLsb' 0 8))
    (hr : v &&& ~~~(0x000000FF#32 ||| freeBits (v.extractLsb' 0 8)) = 0) : decode v = commandOf v := by
  show (if _ then _ else if _ then _ else _) = _
  rw [if_neg h, if_neg (not_not.2 hr)]

/-- A word with a legal opcode is some command, if no reserved bit is set. -/
theorem commandOf_ok (h : ¬ (v.extractLsb' 0 8 = (0x00 : Byte) ∨ (0x0C : Byte) < v.extractLsb' 0 8)) :
    ∃ i, commandOf v = .ok i := by
  have h12 : (v.extractLsb' 0 8).toNat ≤ 12 ∧ (v.extractLsb' 0 8).toNat ≠ 0 := by
    constructor
    · by_contra hc
      exact h (.inr (by rw [BitVec.lt_def]; show 12 < _; omega))
    · intro hc
      exact h (.inl (BitVec.eq_of_toNat_eq hc))
  obtain ⟨hle, hne⟩ := h12
  unfold commandOf
  generalize (v.extractLsb' 0 8).toNat = n at hle hne ⊢
  interval_cases n <;> first | exact absurd rfl hne | exact ⟨_, rfl⟩

/-- The decoder refuses only by the two errors of decoding. -/
theorem decode_error {e : CmdError} (h : decode v = .error e) : e = .illegalOpcode ∨ e = .reservedField := by
  by_cases hl : v.extractLsb' 0 8 = (0x00 : Byte) ∨ (0x0C : Byte) < v.extractLsb' 0 8
  · rw [decode_illegal hl] at h
    cases h
    exact .inl rfl
  · by_cases hr : v &&& ~~~(0x000000FF#32 ||| freeBits (v.extractLsb' 0 8)) = 0
    · obtain ⟨i, hi⟩ := commandOf_ok hl
      rw [decode_command hl hr, hi] at h
      cases h
    · rw [decode_reserved hl hr] at h
      cases h
      exact .inr rfl

end

end Sys2Proof
end

