-- ==== Sys2Proof/Laws/State.lean ====
section
/-!
SUPPORT. What each named update of the state leaves in each field: one lemma per field and update, true by rfl, so
that no later proof unfolds an update.
-/

namespace Sys2Proof.Machine

section

variable (s : State)

/-! ### writeIn -/

@[simp] theorem State.writeIn_inBuf (base : Nat) (vals : List Byte) : (s.writeIn base vals).inBuf = Buf.write s.inBuf base vals := rfl

@[simp] theorem State.writeIn_outBuf (base : Nat) (vals : List Byte) : (s.writeIn base vals).outBuf = s.outBuf := rfl

@[simp] theorem State.writeIn_bitMem (base : Nat) (vals : List Byte) : (s.writeIn base vals).bitMem = s.bitMem := rfl

@[simp] theorem State.writeIn_permBuf (base : Nat) (vals : List Byte) : (s.writeIn base vals).permBuf = s.permBuf := rfl

@[simp] theorem State.writeIn_status (base : Nat) (vals : List Byte) : (s.writeIn base vals).status = s.status := rfl

@[simp] theorem State.writeIn_parity (base : Nat) (vals : List Byte) : (s.writeIn base vals).parity = s.parity := rfl

@[simp] theorem State.writeIn_inLen (base : Nat) (vals : List Byte) : (s.writeIn base vals).inLen = s.inLen := rfl

@[simp] theorem State.writeIn_outLen (base : Nat) (vals : List Byte) : (s.writeIn base vals).outLen = s.outLen := rfl

@[simp] theorem State.writeIn_bitLen (base : Nat) (vals : List Byte) : (s.writeIn base vals).bitLen = s.bitLen := rfl

@[simp] theorem State.writeIn_pktBits (base : Nat) (vals : List Byte) : (s.writeIn base vals).pktBits = s.pktBits := rfl

@[simp] theorem State.writeIn_permLen (base : Nat) (vals : List Byte) : (s.writeIn base vals).permLen = s.permLen := rfl

@[simp] theorem State.writeIn_cntP (base : Nat) (vals : List Byte) : (s.writeIn base vals).cntP = s.cntP := rfl

@[simp] theorem State.writeIn_cntW (base : Nat) (vals : List Byte) : (s.writeIn base vals).cntW = s.cntW := rfl

@[simp] theorem State.writeIn_sa (base : Nat) (vals : List Byte) : (s.writeIn base vals).sa = s.sa := rfl

@[simp] theorem State.writeIn_sb (base : Nat) (vals : List Byte) : (s.writeIn base vals).sb = s.sb := rfl

@[simp] theorem State.writeIn_boot (base : Nat) (vals : List Byte) : (s.writeIn base vals).boot = s.boot := rfl

@[simp] theorem State.writeIn_draws (base : Nat) (vals : List Byte) : (s.writeIn base vals).draws = s.draws := rfl

@[simp] theorem State.writeIn_host (base : Nat) (vals : List Byte) : (s.writeIn base vals).host = s.host := rfl

@[simp] theorem State.writeIn_resp (base : Nat) (vals : List Byte) : (s.writeIn base vals).resp = s.resp := rfl

/-! ### writeOut -/

@[simp] theorem State.writeOut_inBuf (base : Nat) (vals : List Byte) : (s.writeOut base vals).inBuf = s.inBuf := rfl

@[simp] theorem State.writeOut_outBuf (base : Nat) (vals : List Byte) : (s.writeOut base vals).outBuf = Buf.write s.outBuf base vals := rfl

@[simp] theorem State.writeOut_bitMem (base : Nat) (vals : List Byte) : (s.writeOut base vals).bitMem = s.bitMem := rfl

@[simp] theorem State.writeOut_permBuf (base : Nat) (vals : List Byte) : (s.writeOut base vals).permBuf = s.permBuf := rfl

@[simp] theorem State.writeOut_status (base : Nat) (vals : List Byte) : (s.writeOut base vals).status = s.status := rfl

@[simp] theorem State.writeOut_parity (base : Nat) (vals : List Byte) : (s.writeOut base vals).parity = s.parity := rfl

@[simp] theorem State.writeOut_inLen (base : Nat) (vals : List Byte) : (s.writeOut base vals).inLen = s.inLen := rfl

@[simp] theorem State.writeOut_outLen (base : Nat) (vals : List Byte) : (s.writeOut base vals).outLen = s.outLen := rfl

@[simp] theorem State.writeOut_bitLen (base : Nat) (vals : List Byte) : (s.writeOut base vals).bitLen = s.bitLen := rfl

@[simp] theorem State.writeOut_pktBits (base : Nat) (vals : List Byte) : (s.writeOut base vals).pktBits = s.pktBits := rfl

@[simp] theorem State.writeOut_permLen (base : Nat) (vals : List Byte) : (s.writeOut base vals).permLen = s.permLen := rfl

@[simp] theorem State.writeOut_cntP (base : Nat) (vals : List Byte) : (s.writeOut base vals).cntP = s.cntP := rfl

@[simp] theorem State.writeOut_cntW (base : Nat) (vals : List Byte) : (s.writeOut base vals).cntW = s.cntW := rfl

@[simp] theorem State.writeOut_sa (base : Nat) (vals : List Byte) : (s.writeOut base vals).sa = s.sa := rfl

@[simp] theorem State.writeOut_sb (base : Nat) (vals : List Byte) : (s.writeOut base vals).sb = s.sb := rfl

@[simp] theorem State.writeOut_boot (base : Nat) (vals : List Byte) : (s.writeOut base vals).boot = s.boot := rfl

@[simp] theorem State.writeOut_draws (base : Nat) (vals : List Byte) : (s.writeOut base vals).draws = s.draws := rfl

@[simp] theorem State.writeOut_host (base : Nat) (vals : List Byte) : (s.writeOut base vals).host = s.host := rfl

@[simp] theorem State.writeOut_resp (base : Nat) (vals : List Byte) : (s.writeOut base vals).resp = s.resp := rfl

/-! ### writeBits -/

@[simp] theorem State.writeBits_inBuf (base : Nat) (vals : List Bit) : (s.writeBits base vals).inBuf = s.inBuf := rfl

@[simp] theorem State.writeBits_outBuf (base : Nat) (vals : List Bit) : (s.writeBits base vals).outBuf = s.outBuf := rfl

@[simp] theorem State.writeBits_bitMem (base : Nat) (vals : List Bit) : (s.writeBits base vals).bitMem = Buf.write s.bitMem base vals := rfl

@[simp] theorem State.writeBits_permBuf (base : Nat) (vals : List Bit) : (s.writeBits base vals).permBuf = s.permBuf := rfl

@[simp] theorem State.writeBits_status (base : Nat) (vals : List Bit) : (s.writeBits base vals).status = s.status := rfl

@[simp] theorem State.writeBits_parity (base : Nat) (vals : List Bit) : (s.writeBits base vals).parity = s.parity := rfl

@[simp] theorem State.writeBits_inLen (base : Nat) (vals : List Bit) : (s.writeBits base vals).inLen = s.inLen := rfl

@[simp] theorem State.writeBits_outLen (base : Nat) (vals : List Bit) : (s.writeBits base vals).outLen = s.outLen := rfl

@[simp] theorem State.writeBits_bitLen (base : Nat) (vals : List Bit) : (s.writeBits base vals).bitLen = s.bitLen := rfl

@[simp] theorem State.writeBits_pktBits (base : Nat) (vals : List Bit) : (s.writeBits base vals).pktBits = s.pktBits := rfl

@[simp] theorem State.writeBits_permLen (base : Nat) (vals : List Bit) : (s.writeBits base vals).permLen = s.permLen := rfl

@[simp] theorem State.writeBits_cntP (base : Nat) (vals : List Bit) : (s.writeBits base vals).cntP = s.cntP := rfl

@[simp] theorem State.writeBits_cntW (base : Nat) (vals : List Bit) : (s.writeBits base vals).cntW = s.cntW := rfl

@[simp] theorem State.writeBits_sa (base : Nat) (vals : List Bit) : (s.writeBits base vals).sa = s.sa := rfl

@[simp] theorem State.writeBits_sb (base : Nat) (vals : List Bit) : (s.writeBits base vals).sb = s.sb := rfl

@[simp] theorem State.writeBits_boot (base : Nat) (vals : List Bit) : (s.writeBits base vals).boot = s.boot := rfl

@[simp] theorem State.writeBits_draws (base : Nat) (vals : List Bit) : (s.writeBits base vals).draws = s.draws := rfl

@[simp] theorem State.writeBits_host (base : Nat) (vals : List Bit) : (s.writeBits base vals).host = s.host := rfl

@[simp] theorem State.writeBits_resp (base : Nat) (vals : List Bit) : (s.writeBits base vals).resp = s.resp := rfl

/-! ### writePerm -/

@[simp] theorem State.writePerm_inBuf (base : Nat) (vals : List Half) : (s.writePerm base vals).inBuf = s.inBuf := rfl

@[simp] theorem State.writePerm_outBuf (base : Nat) (vals : List Half) : (s.writePerm base vals).outBuf = s.outBuf := rfl

@[simp] theorem State.writePerm_bitMem (base : Nat) (vals : List Half) : (s.writePerm base vals).bitMem = s.bitMem := rfl

@[simp] theorem State.writePerm_permBuf (base : Nat) (vals : List Half) : (s.writePerm base vals).permBuf = Buf.write s.permBuf base vals := rfl

@[simp] theorem State.writePerm_status (base : Nat) (vals : List Half) : (s.writePerm base vals).status = s.status := rfl

@[simp] theorem State.writePerm_parity (base : Nat) (vals : List Half) : (s.writePerm base vals).parity = s.parity := rfl

@[simp] theorem State.writePerm_inLen (base : Nat) (vals : List Half) : (s.writePerm base vals).inLen = s.inLen := rfl

@[simp] theorem State.writePerm_outLen (base : Nat) (vals : List Half) : (s.writePerm base vals).outLen = s.outLen := rfl

@[simp] theorem State.writePerm_bitLen (base : Nat) (vals : List Half) : (s.writePerm base vals).bitLen = s.bitLen := rfl

@[simp] theorem State.writePerm_pktBits (base : Nat) (vals : List Half) : (s.writePerm base vals).pktBits = s.pktBits := rfl

@[simp] theorem State.writePerm_permLen (base : Nat) (vals : List Half) : (s.writePerm base vals).permLen = s.permLen := rfl

@[simp] theorem State.writePerm_cntP (base : Nat) (vals : List Half) : (s.writePerm base vals).cntP = s.cntP := rfl

@[simp] theorem State.writePerm_cntW (base : Nat) (vals : List Half) : (s.writePerm base vals).cntW = s.cntW := rfl

@[simp] theorem State.writePerm_sa (base : Nat) (vals : List Half) : (s.writePerm base vals).sa = s.sa := rfl

@[simp] theorem State.writePerm_sb (base : Nat) (vals : List Half) : (s.writePerm base vals).sb = s.sb := rfl

@[simp] theorem State.writePerm_boot (base : Nat) (vals : List Half) : (s.writePerm base vals).boot = s.boot := rfl

@[simp] theorem State.writePerm_draws (base : Nat) (vals : List Half) : (s.writePerm base vals).draws = s.draws := rfl

@[simp] theorem State.writePerm_host (base : Nat) (vals : List Half) : (s.writePerm base vals).host = s.host := rfl

@[simp] theorem State.writePerm_resp (base : Nat) (vals : List Half) : (s.writePerm base vals).resp = s.resp := rfl

/-! ### storePerm -/

@[simp] theorem State.storePerm_inBuf (p : List Nat) (len : Half) : (s.storePerm p len).inBuf = s.inBuf := rfl

@[simp] theorem State.storePerm_outBuf (p : List Nat) (len : Half) : (s.storePerm p len).outBuf = s.outBuf := rfl

@[simp] theorem State.storePerm_bitMem (p : List Nat) (len : Half) : (s.storePerm p len).bitMem = s.bitMem := rfl

@[simp] theorem State.storePerm_permBuf (p : List Nat) (len : Half) : (s.storePerm p len).permBuf = Buf.write s.permBuf 0 (p.map (BitVec.ofNat 16)) := rfl

@[simp] theorem State.storePerm_status (p : List Nat) (len : Half) : (s.storePerm p len).status = s.status := rfl

@[simp] theorem State.storePerm_parity (p : List Nat) (len : Half) : (s.storePerm p len).parity = s.parity := rfl

@[simp] theorem State.storePerm_inLen (p : List Nat) (len : Half) : (s.storePerm p len).inLen = s.inLen := rfl

@[simp] theorem State.storePerm_outLen (p : List Nat) (len : Half) : (s.storePerm p len).outLen = s.outLen := rfl

@[simp] theorem State.storePerm_bitLen (p : List Nat) (len : Half) : (s.storePerm p len).bitLen = s.bitLen := rfl

@[simp] theorem State.storePerm_pktBits (p : List Nat) (len : Half) : (s.storePerm p len).pktBits = s.pktBits := rfl

@[simp] theorem State.storePerm_permLen (p : List Nat) (len : Half) : (s.storePerm p len).permLen = len := rfl

@[simp] theorem State.storePerm_cntP (p : List Nat) (len : Half) : (s.storePerm p len).cntP = s.cntP := rfl

@[simp] theorem State.storePerm_cntW (p : List Nat) (len : Half) : (s.storePerm p len).cntW = s.cntW := rfl

@[simp] theorem State.storePerm_sa (p : List Nat) (len : Half) : (s.storePerm p len).sa = s.sa := rfl

@[simp] theorem State.storePerm_sb (p : List Nat) (len : Half) : (s.storePerm p len).sb = s.sb := rfl

@[simp] theorem State.storePerm_boot (p : List Nat) (len : Half) : (s.storePerm p len).boot = s.boot := rfl

@[simp] theorem State.storePerm_draws (p : List Nat) (len : Half) : (s.storePerm p len).draws = s.draws := rfl

@[simp] theorem State.storePerm_host (p : List Nat) (len : Half) : (s.storePerm p len).host = s.host := rfl

@[simp] theorem State.storePerm_resp (p : List Nat) (len : Half) : (s.storePerm p len).resp = s.resp := rfl

/-! ### finish -/

@[simp] theorem State.finish_inBuf (st : Status) : (s.finish st).inBuf = s.inBuf := rfl

@[simp] theorem State.finish_outBuf (st : Status) : (s.finish st).outBuf = s.outBuf := rfl

@[simp] theorem State.finish_bitMem (st : Status) : (s.finish st).bitMem = s.bitMem := rfl

@[simp] theorem State.finish_permBuf (st : Status) : (s.finish st).permBuf = s.permBuf := rfl

@[simp] theorem State.finish_status (st : Status) : (s.finish st).status = st := rfl

@[simp] theorem State.finish_parity (st : Status) : (s.finish st).parity = s.parity := rfl

@[simp] theorem State.finish_inLen (st : Status) : (s.finish st).inLen = s.inLen := rfl

@[simp] theorem State.finish_outLen (st : Status) : (s.finish st).outLen = s.outLen := rfl

@[simp] theorem State.finish_bitLen (st : Status) : (s.finish st).bitLen = s.bitLen := rfl

@[simp] theorem State.finish_pktBits (st : Status) : (s.finish st).pktBits = s.pktBits := rfl

@[simp] theorem State.finish_permLen (st : Status) : (s.finish st).permLen = s.permLen := rfl

@[simp] theorem State.finish_cntP (st : Status) : (s.finish st).cntP = s.cntP := rfl

@[simp] theorem State.finish_cntW (st : Status) : (s.finish st).cntW = s.cntW := rfl

@[simp] theorem State.finish_sa (st : Status) : (s.finish st).sa = s.sa := rfl

@[simp] theorem State.finish_sb (st : Status) : (s.finish st).sb = s.sb := rfl

@[simp] theorem State.finish_boot (st : Status) : (s.finish st).boot = s.boot := rfl

@[simp] theorem State.finish_draws (st : Status) : (s.finish st).draws = s.draws := rfl

@[simp] theorem State.finish_host (st : Status) : (s.finish st).host = s.host := rfl

@[simp] theorem State.finish_resp (st : Status) : (s.finish st).resp = s.resp := rfl

/-! ### raise -/

@[simp] theorem State.raise_inBuf (e : CmdError) : (s.raise e).inBuf = s.inBuf := rfl

@[simp] theorem State.raise_outBuf (e : CmdError) : (s.raise e).outBuf = s.outBuf := rfl

@[simp] theorem State.raise_bitMem (e : CmdError) : (s.raise e).bitMem = s.bitMem := rfl

@[simp] theorem State.raise_permBuf (e : CmdError) : (s.raise e).permBuf = s.permBuf := rfl

@[simp] theorem State.raise_status (e : CmdError) : (s.raise e).status = Status.failed e := rfl

@[simp] theorem State.raise_parity (e : CmdError) : (s.raise e).parity = s.parity := rfl

@[simp] theorem State.raise_inLen (e : CmdError) : (s.raise e).inLen = s.inLen := rfl

@[simp] theorem State.raise_outLen (e : CmdError) : (s.raise e).outLen = s.outLen := rfl

@[simp] theorem State.raise_bitLen (e : CmdError) : (s.raise e).bitLen = s.bitLen := rfl

@[simp] theorem State.raise_pktBits (e : CmdError) : (s.raise e).pktBits = s.pktBits := rfl

@[simp] theorem State.raise_permLen (e : CmdError) : (s.raise e).permLen = s.permLen := rfl

@[simp] theorem State.raise_cntP (e : CmdError) : (s.raise e).cntP = s.cntP := rfl

@[simp] theorem State.raise_cntW (e : CmdError) : (s.raise e).cntW = s.cntW := rfl

@[simp] theorem State.raise_sa (e : CmdError) : (s.raise e).sa = s.sa := rfl

@[simp] theorem State.raise_sb (e : CmdError) : (s.raise e).sb = s.sb := rfl

@[simp] theorem State.raise_boot (e : CmdError) : (s.raise e).boot = s.boot := rfl

@[simp] theorem State.raise_draws (e : CmdError) : (s.raise e).draws = s.draws := rfl

@[simp] theorem State.raise_host (e : CmdError) : (s.raise e).host = s.host := rfl

@[simp] theorem State.raise_resp (e : CmdError) : (s.raise e).resp = s.resp := rfl

/-! ### takeEvent -/

@[simp] theorem State.takeEvent_inBuf (rest : List HostEvent) : (s.takeEvent rest).inBuf = s.inBuf := rfl

@[simp] theorem State.takeEvent_outBuf (rest : List HostEvent) : (s.takeEvent rest).outBuf = s.outBuf := rfl

@[simp] theorem State.takeEvent_bitMem (rest : List HostEvent) : (s.takeEvent rest).bitMem = s.bitMem := rfl

@[simp] theorem State.takeEvent_permBuf (rest : List HostEvent) : (s.takeEvent rest).permBuf = s.permBuf := rfl

@[simp] theorem State.takeEvent_status (rest : List HostEvent) : (s.takeEvent rest).status = s.status := rfl

@[simp] theorem State.takeEvent_parity (rest : List HostEvent) : (s.takeEvent rest).parity = s.parity := rfl

@[simp] theorem State.takeEvent_inLen (rest : List HostEvent) : (s.takeEvent rest).inLen = s.inLen := rfl

@[simp] theorem State.takeEvent_outLen (rest : List HostEvent) : (s.takeEvent rest).outLen = s.outLen := rfl

@[simp] theorem State.takeEvent_bitLen (rest : List HostEvent) : (s.takeEvent rest).bitLen = s.bitLen := rfl

@[simp] theorem State.takeEvent_pktBits (rest : List HostEvent) : (s.takeEvent rest).pktBits = s.pktBits := rfl

@[simp] theorem State.takeEvent_permLen (rest : List HostEvent) : (s.takeEvent rest).permLen = s.permLen := rfl

@[simp] theorem State.takeEvent_cntP (rest : List HostEvent) : (s.takeEvent rest).cntP = s.cntP := rfl

@[simp] theorem State.takeEvent_cntW (rest : List HostEvent) : (s.takeEvent rest).cntW = s.cntW := rfl

@[simp] theorem State.takeEvent_sa (rest : List HostEvent) : (s.takeEvent rest).sa = s.sa := rfl

@[simp] theorem State.takeEvent_sb (rest : List HostEvent) : (s.takeEvent rest).sb = s.sb := rfl

@[simp] theorem State.takeEvent_boot (rest : List HostEvent) : (s.takeEvent rest).boot = s.boot := rfl

@[simp] theorem State.takeEvent_draws (rest : List HostEvent) : (s.takeEvent rest).draws = s.draws := rfl

@[simp] theorem State.takeEvent_host (rest : List HostEvent) : (s.takeEvent rest).host = rest := rfl

@[simp] theorem State.takeEvent_resp (rest : List HostEvent) : (s.takeEvent rest).resp = none := rfl

/-! ### restart -/

@[simp] theorem State.restart_inBuf : (s.restart).inBuf = State.reset.inBuf := rfl

@[simp] theorem State.restart_outBuf : (s.restart).outBuf = State.reset.outBuf := rfl

@[simp] theorem State.restart_bitMem : (s.restart).bitMem = State.reset.bitMem := rfl

@[simp] theorem State.restart_permBuf : (s.restart).permBuf = State.reset.permBuf := rfl

@[simp] theorem State.restart_status : (s.restart).status = State.reset.status := rfl

@[simp] theorem State.restart_parity : (s.restart).parity = State.reset.parity := rfl

@[simp] theorem State.restart_inLen : (s.restart).inLen = State.reset.inLen := rfl

@[simp] theorem State.restart_outLen : (s.restart).outLen = State.reset.outLen := rfl

@[simp] theorem State.restart_bitLen : (s.restart).bitLen = State.reset.bitLen := rfl

@[simp] theorem State.restart_pktBits : (s.restart).pktBits = State.reset.pktBits := rfl

@[simp] theorem State.restart_permLen : (s.restart).permLen = State.reset.permLen := rfl

@[simp] theorem State.restart_cntP : (s.restart).cntP = State.reset.cntP := rfl

@[simp] theorem State.restart_cntW : (s.restart).cntW = State.reset.cntW := rfl

@[simp] theorem State.restart_sa : (s.restart).sa = State.reset.sa := rfl

@[simp] theorem State.restart_sb : (s.restart).sb = State.reset.sb := rfl

@[simp] theorem State.restart_boot : (s.restart).boot = s.boot + 1 := rfl

@[simp] theorem State.restart_draws : (s.restart).draws = s.draws := rfl

@[simp] theorem State.restart_host : (s.restart).host = s.host := rfl

@[simp] theorem State.restart_resp : (s.restart).resp = State.reset.resp := rfl

/-! ### setEncoder, a -/

@[simp] theorem State.setEncoder_a_inBuf (v : BitVec 3) : (s.setEncoder .a v).inBuf = s.inBuf := rfl

@[simp] theorem State.setEncoder_a_outBuf (v : BitVec 3) : (s.setEncoder .a v).outBuf = s.outBuf := rfl

@[simp] theorem State.setEncoder_a_bitMem (v : BitVec 3) : (s.setEncoder .a v).bitMem = s.bitMem := rfl

@[simp] theorem State.setEncoder_a_permBuf (v : BitVec 3) : (s.setEncoder .a v).permBuf = s.permBuf := rfl

@[simp] theorem State.setEncoder_a_status (v : BitVec 3) : (s.setEncoder .a v).status = s.status := rfl

@[simp] theorem State.setEncoder_a_parity (v : BitVec 3) : (s.setEncoder .a v).parity = s.parity := rfl

@[simp] theorem State.setEncoder_a_inLen (v : BitVec 3) : (s.setEncoder .a v).inLen = s.inLen := rfl

@[simp] theorem State.setEncoder_a_outLen (v : BitVec 3) : (s.setEncoder .a v).outLen = s.outLen := rfl

@[simp] theorem State.setEncoder_a_bitLen (v : BitVec 3) : (s.setEncoder .a v).bitLen = s.bitLen := rfl

@[simp] theorem State.setEncoder_a_pktBits (v : BitVec 3) : (s.setEncoder .a v).pktBits = s.pktBits := rfl

@[simp] theorem State.setEncoder_a_permLen (v : BitVec 3) : (s.setEncoder .a v).permLen = s.permLen := rfl

@[simp] theorem State.setEncoder_a_cntP (v : BitVec 3) : (s.setEncoder .a v).cntP = s.cntP := rfl

@[simp] theorem State.setEncoder_a_cntW (v : BitVec 3) : (s.setEncoder .a v).cntW = s.cntW := rfl

@[simp] theorem State.setEncoder_a_sa (v : BitVec 3) : (s.setEncoder .a v).sa = v := rfl

@[simp] theorem State.setEncoder_a_sb (v : BitVec 3) : (s.setEncoder .a v).sb = s.sb := rfl

@[simp] theorem State.setEncoder_a_boot (v : BitVec 3) : (s.setEncoder .a v).boot = s.boot := rfl

@[simp] theorem State.setEncoder_a_draws (v : BitVec 3) : (s.setEncoder .a v).draws = s.draws := rfl

@[simp] theorem State.setEncoder_a_host (v : BitVec 3) : (s.setEncoder .a v).host = s.host := rfl

@[simp] theorem State.setEncoder_a_resp (v : BitVec 3) : (s.setEncoder .a v).resp = s.resp := rfl

/-! ### setEncoder, b -/

@[simp] theorem State.setEncoder_b_inBuf (v : BitVec 3) : (s.setEncoder .b v).inBuf = s.inBuf := rfl

@[simp] theorem State.setEncoder_b_outBuf (v : BitVec 3) : (s.setEncoder .b v).outBuf = s.outBuf := rfl

@[simp] theorem State.setEncoder_b_bitMem (v : BitVec 3) : (s.setEncoder .b v).bitMem = s.bitMem := rfl

@[simp] theorem State.setEncoder_b_permBuf (v : BitVec 3) : (s.setEncoder .b v).permBuf = s.permBuf := rfl

@[simp] theorem State.setEncoder_b_status (v : BitVec 3) : (s.setEncoder .b v).status = s.status := rfl

@[simp] theorem State.setEncoder_b_parity (v : BitVec 3) : (s.setEncoder .b v).parity = s.parity := rfl

@[simp] theorem State.setEncoder_b_inLen (v : BitVec 3) : (s.setEncoder .b v).inLen = s.inLen := rfl

@[simp] theorem State.setEncoder_b_outLen (v : BitVec 3) : (s.setEncoder .b v).outLen = s.outLen := rfl

@[simp] theorem State.setEncoder_b_bitLen (v : BitVec 3) : (s.setEncoder .b v).bitLen = s.bitLen := rfl

@[simp] theorem State.setEncoder_b_pktBits (v : BitVec 3) : (s.setEncoder .b v).pktBits = s.pktBits := rfl

@[simp] theorem State.setEncoder_b_permLen (v : BitVec 3) : (s.setEncoder .b v).permLen = s.permLen := rfl

@[simp] theorem State.setEncoder_b_cntP (v : BitVec 3) : (s.setEncoder .b v).cntP = s.cntP := rfl

@[simp] theorem State.setEncoder_b_cntW (v : BitVec 3) : (s.setEncoder .b v).cntW = s.cntW := rfl

@[simp] theorem State.setEncoder_b_sa (v : BitVec 3) : (s.setEncoder .b v).sa = s.sa := rfl

@[simp] theorem State.setEncoder_b_sb (v : BitVec 3) : (s.setEncoder .b v).sb = v := rfl

@[simp] theorem State.setEncoder_b_boot (v : BitVec 3) : (s.setEncoder .b v).boot = s.boot := rfl

@[simp] theorem State.setEncoder_b_draws (v : BitVec 3) : (s.setEncoder .b v).draws = s.draws := rfl

@[simp] theorem State.setEncoder_b_host (v : BitVec 3) : (s.setEncoder .b v).host = s.host := rfl

@[simp] theorem State.setEncoder_b_resp (v : BitVec 3) : (s.setEncoder .b v).resp = s.resp := rfl

/-! ### count, p -/

@[simp] theorem State.count_p_inBuf (cfg : Config) : (s.count cfg .p).inBuf = s.inBuf := rfl

@[simp] theorem State.count_p_outBuf (cfg : Config) : (s.count cfg .p).outBuf = s.outBuf := rfl

@[simp] theorem State.count_p_bitMem (cfg : Config) : (s.count cfg .p).bitMem = s.bitMem := rfl

@[simp] theorem State.count_p_permBuf (cfg : Config) : (s.count cfg .p).permBuf = s.permBuf := rfl

@[simp] theorem State.count_p_status (cfg : Config) : (s.count cfg .p).status = s.status := rfl

@[simp] theorem State.count_p_parity (cfg : Config) : (s.count cfg .p).parity = s.parity := rfl

@[simp] theorem State.count_p_inLen (cfg : Config) : (s.count cfg .p).inLen = s.inLen := rfl

@[simp] theorem State.count_p_outLen (cfg : Config) : (s.count cfg .p).outLen = s.outLen := rfl

@[simp] theorem State.count_p_bitLen (cfg : Config) : (s.count cfg .p).bitLen = s.bitLen := rfl

@[simp] theorem State.count_p_pktBits (cfg : Config) : (s.count cfg .p).pktBits = s.pktBits := rfl

@[simp] theorem State.count_p_permLen (cfg : Config) : (s.count cfg .p).permLen = s.permLen := rfl

@[simp] theorem State.count_p_cntP (cfg : Config) : (s.count cfg .p).cntP = counterSucc cfg s.cntP := rfl

@[simp] theorem State.count_p_cntW (cfg : Config) : (s.count cfg .p).cntW = s.cntW := rfl

@[simp] theorem State.count_p_sa (cfg : Config) : (s.count cfg .p).sa = s.sa := rfl

@[simp] theorem State.count_p_sb (cfg : Config) : (s.count cfg .p).sb = s.sb := rfl

@[simp] theorem State.count_p_boot (cfg : Config) : (s.count cfg .p).boot = s.boot := rfl

@[simp] theorem State.count_p_draws (cfg : Config) : (s.count cfg .p).draws = s.draws := rfl

@[simp] theorem State.count_p_host (cfg : Config) : (s.count cfg .p).host = s.host := rfl

@[simp] theorem State.count_p_resp (cfg : Config) : (s.count cfg .p).resp = s.resp := rfl

/-! ### count, w -/

@[simp] theorem State.count_w_inBuf (cfg : Config) : (s.count cfg .w).inBuf = s.inBuf := rfl

@[simp] theorem State.count_w_outBuf (cfg : Config) : (s.count cfg .w).outBuf = s.outBuf := rfl

@[simp] theorem State.count_w_bitMem (cfg : Config) : (s.count cfg .w).bitMem = s.bitMem := rfl

@[simp] theorem State.count_w_permBuf (cfg : Config) : (s.count cfg .w).permBuf = s.permBuf := rfl

@[simp] theorem State.count_w_status (cfg : Config) : (s.count cfg .w).status = s.status := rfl

@[simp] theorem State.count_w_parity (cfg : Config) : (s.count cfg .w).parity = s.parity := rfl

@[simp] theorem State.count_w_inLen (cfg : Config) : (s.count cfg .w).inLen = s.inLen := rfl

@[simp] theorem State.count_w_outLen (cfg : Config) : (s.count cfg .w).outLen = s.outLen := rfl

@[simp] theorem State.count_w_bitLen (cfg : Config) : (s.count cfg .w).bitLen = s.bitLen := rfl

@[simp] theorem State.count_w_pktBits (cfg : Config) : (s.count cfg .w).pktBits = s.pktBits := rfl

@[simp] theorem State.count_w_permLen (cfg : Config) : (s.count cfg .w).permLen = s.permLen := rfl

@[simp] theorem State.count_w_cntP (cfg : Config) : (s.count cfg .w).cntP = s.cntP := rfl

@[simp] theorem State.count_w_cntW (cfg : Config) : (s.count cfg .w).cntW = counterSucc cfg s.cntW := rfl

@[simp] theorem State.count_w_sa (cfg : Config) : (s.count cfg .w).sa = s.sa := rfl

@[simp] theorem State.count_w_sb (cfg : Config) : (s.count cfg .w).sb = s.sb := rfl

@[simp] theorem State.count_w_boot (cfg : Config) : (s.count cfg .w).boot = s.boot := rfl

@[simp] theorem State.count_w_draws (cfg : Config) : (s.count cfg .w).draws = s.draws := rfl

@[simp] theorem State.count_w_host (cfg : Config) : (s.count cfg .w).host = s.host := rfl

@[simp] theorem State.count_w_resp (cfg : Config) : (s.count cfg .w).resp = s.resp := rfl

end

end Sys2Proof.Machine
end

