-- ==== Sys2Proof/Laws/Exec.lean ====
section
/-!
SUPPORT. What each arm of `exec` is, by name, so that no later proof unfolds the dispatch, and that every command
answers with a next state.
-/

namespace Sys2Proof.Machine

section

variable (s : State)

@[simp] theorem exec_ilvGen (len : Half) : exec (.ilvGen len) s = .next (s.ilvGen standardConfig len) := rfl

@[simp] theorem exec_convReset (sel : Encoder) : exec (.convReset sel) s = .next (s.convReset sel) := rfl

@[simp] theorem exec_convParity (sel : Encoder) (bit : Bit) :
    exec (.convParity sel bit) s = .next (s.convParity standardConfig sel bit) := rfl

@[simp] theorem exec_turboEnc : exec .turboEnc s = .next (s.turboEnc standardConfig) := rfl

@[simp] theorem exec_pack : exec .pack s = .next s.pack := rfl

@[simp] theorem exec_unpack : exec .unpack s = .next (s.unpack standardConfig) := rfl

@[simp] theorem exec_rsEnc : exec .rsEnc s = .next (s.rsEnc standardConfig) := rfl

@[simp] theorem exec_rsDec : exec .rsDec s = .next (s.rsDec standardConfig) := rfl

@[simp] theorem exec_frameP : exec .frameP s = .next s.frameP := rfl

@[simp] theorem exec_frameW : exec .frameW s = .next (s.frameW standardConfig) := rfl

@[simp] theorem exec_parse : exec .parse s = .next (s.parse standardConfig) := rfl

@[simp] theorem exec_txDone (tag : Tag) (ok : Bit) :
    exec (.txDone tag ok) s = .next (s.txDone standardConfig tag ok) := rfl

/-- Every command answers with a next state. -/
theorem exec_total (i : Instr) : ∃ t, exec i s = .next t := by
  cases i <;> exact ⟨_, rfl⟩

/-- Under the default parameters a command is what `exec` says. -/
theorem execWith_standardConfig (i : Instr) : execWith standardConfig i s = exec i s := by
  cases i <;> rfl

/-- Every command answers with a next state, under any parameters. -/
theorem execWith_total (cfg : Config) (i : Instr) : ∃ t, execWith cfg i s = .next t := by
  cases i <;> exact ⟨_, rfl⟩

variable {cfg : Config}

theorem execWord_ok {v : Word} {i : Instr} (h : decode v = .ok i) : execWord cfg v s = execWith cfg i s := by
  simp [execWord, h]

theorem execWord_error {v : Word} {e : CmdError} (h : decode v = .error e) :
    execWord cfg v s = .next (s.raise e) := by
  simp [execWord, h]

theorem execWord_standardConfig {v : Word} {i : Instr} (h : decode v = .ok i) :
    execWord standardConfig v s = exec i s := by
  rw [execWord_ok s h, execWith_standardConfig]

/-- Every command word answers with a next state. -/
theorem execWord_total (v : Word) : ∃ t, execWord cfg v s = .next t := by
  cases h : decode v with
  | ok i => rw [execWord_ok s h]; exact execWith_total s cfg i
  | error e => exact ⟨_, execWord_error s h⟩

end

/-! ### The step, by the next event -/

theorem step_idle {s : State} (h : s.host = []) : step s = .next s := by
  simp [step, runEvent, h]

theorem step_reset {s : State} {rest : List HostEvent} (h : s.host = .reset :: rest) :
    step s = .next (s.takeEvent rest).restart := by
  simp [step, runEvent, h]

theorem step_txn {s : State} {rest : List HostEvent} {t : HostTxn} (h : s.host = .txn t :: rest) :
    step s = transact standardConfig (s.takeEvent rest) t := by
  simp [step, runEvent, h]

/-- Everything a step that answers a next state can be. -/
theorem step_next_cases {s t : State} (h : step s = .next t) :
    (s.host = [] ∧ t = s) ∨ (∃ rest, s.host = .reset :: rest ∧ t = (s.takeEvent rest).restart) ∨
      ∃ rest x, s.host = .txn x :: rest ∧ transact standardConfig (s.takeEvent rest) x = .next t := by
  cases hh : s.host with
  | nil =>
    rw [step_idle hh] at h
    cases h
    exact .inl ⟨rfl, rfl⟩
  | cons e rest =>
    cases e with
    | reset =>
      rw [step_reset hh] at h
      cases h
      exact .inr (.inl ⟨rest, rfl, rfl⟩)
    | txn x => exact .inr (.inr ⟨rest, x, rfl, by rw [← step_txn hh]; exact h⟩)

/-! ### The map (20 R60): where an access at a place comes from, and where an admitted access goes -/

section

variable {cfg : Config} {w : Width} {a : Nat} {k : Nat}

theorem regAt_lt {n : Nat} {r : Reg} (h : regAt n = some r) : n < 12 := by
  unfold regAt at h
  split at h <;> first | omega | cases h

theorem regAt_eq_cmd {n : Nat} (h : regAt n = some .cmd) : n = 0 := by
  unfold regAt at h
  split at h <;> first | rfl | cases h

theorem placeAt_reg {r : Reg} (h : placeAt cfg w a = some (.reg r)) :
    w = .w32 ∧ a % 4 = 0 ∧ regAt (a / 4) = some r := by
  cases w with
  | w32 =>
    simp only [placeAt] at h
    split at h
    · rename_i h4
      rw [Option.map_eq_some_iff] at h
      obtain ⟨r', hr, hc⟩ := h
      cases hc
      exact ⟨rfl, h4, hr⟩
    · cases h
  | w16 => simp only [placeAt] at h; split at h <;> cases h
  | w8 => simp only [placeAt] at h; split at h <;> (try split at h) <;> (try split at h) <;> cases h

theorem placeAt_perm (h : placeAt cfg w a = some (.perm k)) :
    w = .w16 ∧ a = 0x80000 + 2 * k ∧ k < cfg.permCap := by
  cases w with
  | w32 =>
    simp only [placeAt] at h
    split at h
    · rw [Option.map_eq_some_iff] at h; obtain ⟨r', _, hc⟩ := h; cases hc
    · cases h
  | w16 =>
    simp only [placeAt] at h
    split at h
    · cases h; exact ⟨rfl, by omega, by omega⟩
    · cases h
  | w8 => simp only [placeAt] at h; split at h <;> (try split at h) <;> (try split at h) <;> cases h

/-- The byte-wide places. -/
theorem placeAt_byte {p : Place} (h : placeAt cfg .w8 a = some p) :
    (∃ k, p = .input k ∧ a = 0x10000 + k ∧ k < cfg.inSize) ∨
      (∃ k, p = .output k ∧ a = 0x20000 + k ∧ k < cfg.outSize) ∨
      ∃ k, p = .bit k ∧ a = 0x40000 + k ∧ k < cfg.bitCap := by
  simp only [placeAt] at h
  split at h
  · cases h; exact .inl ⟨_, rfl, by omega, by omega⟩
  · split at h
    · cases h; exact .inr (.inl ⟨_, rfl, by omega, by omega⟩)
    · split at h
      · cases h; exact .inr (.inr ⟨_, rfl, by omega, by omega⟩)
      · cases h

theorem placeAt_narrow {p : Place} (h : placeAt cfg w a = some p) (hr : ∀ r, p ≠ .reg r) (hp : ∀ k, p ≠ .perm k) :
    w = .w8 := by
  cases w with
  | w8 => rfl
  | w32 =>
    simp only [placeAt] at h
    split at h
    · rw [Option.map_eq_some_iff] at h; obtain ⟨r', _, hc⟩ := h; exact absurd hc.symm (hr r')
    · cases h
  | w16 =>
    simp only [placeAt] at h
    split at h
    · cases h; exact absurd rfl (hp _)
    · cases h

theorem placeAt_input (h : placeAt cfg w a = some (.input k)) :
    w = .w8 ∧ a = 0x10000 + k ∧ k < cfg.inSize := by
  obtain rfl := placeAt_narrow h (by simp) (by simp)
  rcases placeAt_byte h with ⟨_, e, h1, h2⟩ | ⟨_, e, _⟩ | ⟨_, e, _⟩ <;> cases e
  exact ⟨rfl, h1, h2⟩

theorem placeAt_output (h : placeAt cfg w a = some (.output k)) :
    w = .w8 ∧ a = 0x20000 + k ∧ k < cfg.outSize := by
  obtain rfl := placeAt_narrow h (by simp) (by simp)
  rcases placeAt_byte h with ⟨_, e, _⟩ | ⟨_, e, h1, h2⟩ | ⟨_, e, _⟩ <;> cases e
  exact ⟨rfl, h1, h2⟩

theorem placeAt_bit (h : placeAt cfg w a = some (.bit k)) :
    w = .w8 ∧ a = 0x40000 + k ∧ k < cfg.bitCap := by
  obtain rfl := placeAt_narrow h (by simp) (by simp)
  rcases placeAt_byte h with ⟨_, e, _⟩ | ⟨_, e, _⟩ | ⟨_, e, h1, h2⟩ <;> cases e
  exact ⟨rfl, h1, h2⟩

theorem placeAt_of_input (h : a = 0x10000 + k) (hk : k < cfg.inSize) :
    placeAt cfg .w8 a = some (.input k) := by
  simp only [placeAt]
  rw [if_pos (by omega), h, Nat.add_sub_cancel_left]

theorem placeAt_of_output (h : a = 0x20000 + k) (hk : k < cfg.outSize) (hi : cfg.inSize ≤ 0x10000) :
    placeAt cfg .w8 a = some (.output k) := by
  simp only [placeAt]
  rw [if_neg (by omega), if_pos (by omega), h, Nat.add_sub_cancel_left]

theorem placeAt_of_bit (h : a = 0x40000 + k) (hk : k < cfg.bitCap) (hi : cfg.inSize ≤ 0x10000)
    (ho : cfg.outSize ≤ 0x20000) : placeAt cfg .w8 a = some (.bit k) := by
  simp only [placeAt]
  rw [if_neg (by omega), if_neg (by omega), if_pos (by omega), h, Nat.add_sub_cancel_left]

theorem placeAt_of_perm (h : a = 0x80000 + 2 * k) (hk : k < cfg.permCap) :
    placeAt cfg .w16 a = some (.perm k) := by
  simp only [placeAt]
  rw [if_pos (by omega), h, show (0x80000 + 2 * k - 0x80000) / 2 = k by omega]

/-- A transaction reaches what the map's table says, if it fits the bus. -/
theorem locate_eq_placeAt (ha : a < 2 ^ cfg.hostAddrW) (hw : w.bits ≤ cfg.hostDataW) :
    locate cfg w a = placeAt cfg w a :=
  if_pos ⟨ha, hw⟩

theorem placeAt_of_locate {p : Place} (h : locate cfg w a = some p) : placeAt cfg w a = some p := by
  unfold locate at h
  split at h
  · exact h
  · cases h

/-- The default bus carries every transaction the map's table admits. -/
theorem locate_standardConfig : locate standardConfig w a = placeAt standardConfig w a := by
  by_cases ha : a < 2 ^ 20
  · exact locate_eq_placeAt ha (by cases w <;> decide)
  · rw [locate, if_neg (fun h => ha h.1)]
    symm
    rw [Option.eq_none_iff_forall_ne_some]
    intro p h
    cases p with
    | reg r => have := regAt_lt (placeAt_reg h).2.2; omega
    | input k => have := placeAt_input h; simp only [standardConfig] at this; omega
    | output k => have := placeAt_output h; simp only [standardConfig] at this; omega
    | bit k => have := placeAt_bit h; simp only [standardConfig] at this; omega
    | perm k => have := placeAt_perm h; simp only [standardConfig] at this; omega

end

/-! ### A transaction -/

/-- Everything an admitted transaction can do: a read that answers a value, a write of one IN byte, one BITMEM bit or
one of the three writable length registers, or a command word. -/
theorem transact_next_cases {s t : State} {x : HostTxn} (h : transact standardConfig s x = .next t) :
    (∃ w a v, x = .read w a ∧ t = { s with resp := some v }) ∨
      (∃ a v, x = .write .w32 a v ∧ a = 0x00000 ∧ execWord standardConfig v s = .next t) ∨
      (∃ k v, k ≤ 8196 ∧ t = s.writeIn k [v]) ∨ (∃ k v, k ≤ 65534 ∧ t = s.writeBits k [v]) ∨
      (∃ v, t = { s with inLen := v }) ∨ (∃ v, t = { s with bitLen := v }) ∨ ∃ v, t = { s with pktBits := v } := by
  cases x with
  | read w a =>
    simp only [transact] at h
    split at h
    · rename_i v _
      cases h
      exact .inl ⟨w, a, v, rfl, rfl⟩
    · cases h
  | write w a v =>
    right
    simp only [transact] at h
    split at h
    · rename_i place hp
      cases place with
      | reg r =>
        obtain ⟨rfl, h4, hr⟩ := placeAt_reg (placeAt_of_locate hp)
        cases r with
        | cmd =>
          have h0 := regAt_eq_cmd hr
          refine .inl ⟨a, v, rfl, ?_, h⟩
          omega
        | inLen => cases h; exact .inr (.inr (.inr (.inl ⟨_, rfl⟩)))
        | bitLen => cases h; exact .inr (.inr (.inr (.inr (.inl ⟨_, rfl⟩))))
        | pktBits => cases h; exact .inr (.inr (.inr (.inr (.inr ⟨_, rfl⟩))))
        | status | result | outLen | permLen | cntP | cntW | encState | poly => cases h
      | input k =>
        cases h
        have hk : k < 8197 := (placeAt_input (placeAt_of_locate hp)).2.2
        exact .inr (.inl ⟨k, _, by omega, rfl⟩)
      | bit k =>
        cases h
        have hk : k < 65535 := (placeAt_bit (placeAt_of_locate hp)).2.2
        exact .inr (.inr (.inl ⟨k, _, by omega, rfl⟩))
      | output k => cases h
      | perm k => cases h
    · cases h

end Sys2Proof.Machine
end

