-- ==== Sys2Proof/Laws/PerInstr.lean ====
section
/-!
SUPPORT. For every command: the word the encoder gives it, with any operand, lies in the command's row of the opcode
table (30 R94).
-/

namespace Sys2Proof.Laws

/-- The word of a command has its row's match value under its row's mask (30 R94). -/
def TableRow.Statement (i : Instr) : Prop := encode i &&& i.tableMask = i.tableMatch

theorem TableRow.ilvGen (len : Half) : TableRow.Statement (.ilvGen len) := by
  unfold TableRow.Statement encode cmdWord Instr.tableMask Instr.tableMatch
  apply BitVec.eq_of_getLsbD_eq
  intro j hj
  simp only [BitVec.getLsbD_and, BitVec.getLsbD_append]
  interval_cases j <;> simp

theorem TableRow.convReset (sel : Encoder) : TableRow.Statement (.convReset sel) := by
  cases sel <;> rfl

theorem TableRow.convParity (sel : Encoder) (bit : Bit) : TableRow.Statement (.convParity sel bit) := by
  revert sel bit
  unfold TableRow.Statement
  intro sel
  cases sel <;> decide

theorem TableRow.turboEnc : TableRow.Statement .turboEnc := rfl

theorem TableRow.pack : TableRow.Statement .pack := rfl

theorem TableRow.unpack : TableRow.Statement .unpack := rfl

theorem TableRow.rsEnc : TableRow.Statement .rsEnc := rfl

theorem TableRow.rsDec : TableRow.Statement .rsDec := rfl

theorem TableRow.frameP : TableRow.Statement .frameP := rfl

theorem TableRow.frameW : TableRow.Statement .frameW := rfl

theorem TableRow.parse : TableRow.Statement .parse := rfl

theorem TableRow.txDone (tag : Tag) (ok : Bit) : TableRow.Statement (.txDone tag ok) := by
  revert tag ok
  unfold TableRow.Statement
  intro tag
  cases tag <;> decide

end Sys2Proof.Laws
end

