-- ==== Sys2Proof/Tests/Slice0.lean ====
section
/-!
SUPPORT. Tests. Every expected value is copied from spec/95_test_vectors.md or from the rule the comment names; none
is an answer of the model. The last part shows, for each obligation with hypotheses, an input that meets them.
-/

namespace Sys2Proof.Tests

open Sys2Proof Sys2Proof.Machine

-- Kernel evaluations one after another, so that no others wait for them in threads of their own.
set_option Elab.async false

/-! ### Helpers -/

/-- The state a command leaves, or the state before it where it stops. -/
def after (i : Instr) (s : State) : State :=
  match exec i s with
  | .next t => t
  | .fault _ => s
  | .refused _ => s

/-- The next state of a step or a transaction. -/
def nextOf : Host.Outcome State Fault Refusal → Option State
  | .next t => some t
  | .fault _ => none
  | .refused _ => none

/-- The state after reset with bytes in IN from 0 on and IN_LEN = n. -/
def loaded (bytes : List Byte) (n : Nat) : State :=
  { State.reset.writeIn 0 bytes with inLen := BitVec.ofNat 16 n }

/-- The state after reset with bits in BITMEM from 0 on and BIT_LEN their number. -/
def withBits (bits : List Bit) : State :=
  { State.reset.writeBits 0 bits with bitLen := BitVec.ofNat 16 bits.length }

/-- The state after reset with bytes in OUT from 0 on and PKT_BITS = n. -/
def withOut (bytes : List Byte) (n : Nat) : State :=
  { State.reset.writeOut 0 bytes with pktBits := BitVec.ofNat 16 n }

/-- The state after reset with the host about to issue some events. -/
def queued (events : List HostEvent) : State := { State.reset with host := events }

/-- The ECC of the text "HI" (95 L2.6). -/
def eccHI : List Byte :=
  [0xAA, 0xB0, 0x46, 0xF7, 0x2E, 0x33, 0x54, 0xF4, 0xB4, 0x26, 0x71, 0xB7, 0x4D, 0xD7, 0xC2, 0xAC,
    0xB6, 0xC5, 0x47, 0x6B, 0x38, 0x54, 0x59, 0xF2, 0x68, 0xAE, 0x57, 0x14, 0x29, 0x7A, 0x3C, 0xE9]

/-- The padded message of the text "HI" (95 L2.6). -/
def messageHI : List Byte := [0x48, 0x49, 0x2C] ++ List.replicate 93 0

/-- The frame of the text "HI", the frame F of 95 L2.6. -/
def frameHI : List Byte := messageHI ++ eccHI

/-- 0xFF added at the positions listed (95 L2.6). -/
def corrupt (positions : List Nat) (f : List Byte) : List Byte :=
  f.zipIdx.map (fun c => if positions.contains c.2 then c.1 ^^^ 0xFF else c.1)

/-- The 16 error positions of 95 L2.6. -/
def sixteen : List Nat := [0, 1, 2, 10, 20, 30, 40, 50, 60, 70, 80, 95, 96, 100, 110, 127]

/-! ### Decoding: words written out from the fields of 30 R90, R93, bit 31 first -/

theorem test_decode_ilvGen : decode 0b0000000000001000_000000_0_0_00000001 = .ok (.ilvGen 8) := by decide

theorem test_decode_convReset : decode 0b0000000000000000_000000_0_1_00000010 = .ok (.convReset .b) := by decide

theorem test_decode_convParity : decode 0b0000000000000000_000000_1_0_00000011 = .ok (.convParity .a 1) := by decide

theorem test_decode_turboEnc : decode 0b0000000000000000_000000_0_0_00000100 = .ok .turboEnc := by decide

theorem test_decode_pack : decode 0b0000000000000000_000000_0_0_00000101 = .ok .pack := by decide

theorem test_decode_unpack : decode 0b0000000000000000_000000_0_0_00000110 = .ok .unpack := by decide

theorem test_decode_rsEnc : decode 0b0000000000000000_000000_0_0_00000111 = .ok .rsEnc := by decide

theorem test_decode_rsDec : decode 0b0000000000000000_000000_0_0_00001000 = .ok .rsDec := by decide

theorem test_decode_frameP : decode 0b0000000000000000_000000_0_0_00001001 = .ok .frameP := by decide

theorem test_decode_frameW : decode 0b0000000000000000_000000_0_0_00001010 = .ok .frameW := by decide

theorem test_decode_parse : decode 0b0000000000000000_000000_0_0_00001011 = .ok .parse := by decide

theorem test_decode_txDone : decode 0b0000000000000000_000000_1_1_00001100 = .ok (.txDone .w 1) := by decide

/-- 95 L2.1: illegal opcodes; the opcode is checked before the reserved bits. -/
theorem test_decode_illegal : decode 0x00000000 = .error .illegalOpcode ∧ decode 0x0000000D = .error .illegalOpcode ∧
    decode 0x000000FF = .error .illegalOpcode ∧ decode 0xFFFF00FF = .error .illegalOpcode := by decide

/-- 95 L2.1: reserved bits. -/
theorem test_decode_reserved : decode 0x00000404 = .error .reservedField ∧ decode 0x00010007 = .error .reservedField ∧
    decode 0x00000202 = .error .reservedField ∧ decode 0x00000301 = .error .reservedField ∧
    decode 0x8000030C = .error .reservedField := by decide

/-- The table's numbering of bits is that of the command word. -/
theorem test_decodeTableWord : decodeTableWord 32 0x00080001 = some (.ilvGen 8) ∧
    decodeTableWord 32 0x00000404 = none := by decide

/-! ### Well-formedness: an ill-formed term for each check -/

theorem test_wf_standard : standardConfig.wf = true := by decide +kernel

theorem test_wf_ilvGen : (Instr.ilvGen 8).wf { standardConfig with permCap := 7 } = false ∧
    (Instr.ilvGen 7).wf { standardConfig with permCap := 7 } = true := by decide +kernel

theorem test_wf_turboFits : ({ standardConfig with turboMaxText := 2731 } : Config).turboFits = false ∧
    ({ standardConfig with turboMaxText := 2731 } : Config).wf = false := by decide +kernel

theorem test_wf_lengthsFit : ({ standardConfig with bitCap := 65534 } : Config).lengthsFit = false ∧
    ({ standardConfig with permCap := 65534 } : Config).lengthsFit = false := by decide +kernel

theorem test_wf_packetsFit : ({ standardConfig with inSize := 127 } : Config).packetsFit = false ∧
    ({ standardConfig with outSize := 8196 } : Config).packetsFit = false := by decide +kernel

theorem test_wf_mapFits : ({ standardConfig with inSize := 0x10001 } : Config).mapFits = false ∧
    ({ standardConfig with outSize := 0x20001 } : Config).mapFits = false ∧
    ({ standardConfig with bitCap := 0x40001 } : Config).mapFits = false ∧
    ({ standardConfig with permCap := 0x40001 } : Config).mapFits = false := by decide +kernel

theorem test_wf_polyDegree8 : ({ standardConfig with rsPoly := 0xFF } : Config).polyDegree8 = false ∧
    ({ standardConfig with rsPoly := 0x200 } : Config).polyDegree8 = false := by decide +kernel

theorem test_wf_countersFit : ({ standardConfig with cntWidth := 33 } : Config).countersFit = false := by decide +kernel

theorem test_wf_busFits : ({ standardConfig with hostAddrW := 19 } : Config).busFits = false ∧
    ({ standardConfig with hostDataW := 16 } : Config).busFits = false := by decide +kernel

/-! ### Commands -/

/-- 95 L2.2: L = 16, then L = 8, which leaves entries 8 to 15. -/
theorem test_ilvGen : ((after (.ilvGen 8) (after (.ilvGen 16) State.reset)).permEntries 16).map BitVec.toNat =
    [4, 1, 0, 7, 3, 5, 2, 6, 14, 1, 7, 2, 9, 11, 13, 6] := by decide +kernel

/-- 95 L2.2: L = 5 is the identity. -/
theorem test_ilvGen_five : ((after (.ilvGen 5) State.reset).permEntries 5).map BitVec.toNat = [0, 1, 2, 3, 4] ∧
    (after (.ilvGen 5) State.reset).permLen = 5 := by decide +kernel

/-- 95 L2.3: SA = 111 is cleared, RESULT stays. -/
theorem test_convReset : let t := after (.convReset .a) { State.reset with sa := 7, sb := 5, parity := 1 }
    t.sa = 0 ∧ t.sb = 5 ∧ t.parity = 1 := by decide

/-- 95 L2.3: SB = 101, bit 1. -/
theorem test_convParity_b : let t := after (.convParity .b 1) { State.reset with sb := 0b101 }
    t.parity = 1 ∧ t.sb = 0b011 ∧ t.sa = 0 := by decide

/-- 95 L2.3: the rows w = 0110 and w = 1011 under the three readings, encoder A then B. -/
theorem test_convStep_readings :
    ([ParityReading.xorBits, .nonZero, .bitI].map fun r => (convStep r 0b011 polyA 0).1) = [0, 1, 0] ∧
    ([ParityReading.xorBits, .nonZero, .bitI].map fun r => (convStep r 0b011 polyB 0).1) = [1, 1, 0] ∧
    ([ParityReading.xorBits, .nonZero, .bitI].map fun r => (convStep r 0b101 polyA 1).1) = [0, 0, 1] ∧
    ([ParityReading.xorBits, .nonZero, .bitI].map fun r => (convStep r 0b101 polyB 1).1) = [1, 0, 1] := by decide

/-- 95 L2.4: "A" from encoder states 101 and 110. -/
theorem test_turboEnc : let t := after .turboEnc { loaded [0x41] 1 with sa := 0b101, sb := 0b110 }
    (t.bits 24).map BitVec.toNat = [0, 0, 0, 1, 1, 1, 0, 0, 0, 0, 0, 0, 0, 1, 0, 0, 0, 1, 0, 0, 0, 1, 1, 0] ∧
      t.bitLen = 24 ∧ t.permLen = 8 ∧ t.sa = 1 ∧ t.sb = 0 := by decide +kernel

/-- 95 L2.8: 2731 bytes are too long, and the encoder keeps its state. -/
theorem test_turboEnc_length : let t := after .turboEnc { loaded [] 2731 with sa := 0b011 }
    t.status.word = 3 ∧ t.sa = 0b011 ∧ t.bitLen = 0 := by decide

/-- 95 L1.1. -/
theorem test_pack : let t := after .pack (withBits [1, 0, 1, 1, 0, 0, 1, 0, 1])
    t.outBytes 2 = [0xB2, 0x80] ∧ t.outLen = 2 ∧ t.pktBits = 9 := by decide +kernel

/-- 95 L2.5: the low bits of the last byte are ignored. -/
theorem test_unpack : let t := after .unpack { loaded [0xB2, 0xFF] 2 with pktBits := 9 }
    t.bits 9 = [1, 0, 1, 1, 0, 0, 1, 0, 1] ∧ t.bitLen = 9 := by decide +kernel

/-- 95 L2.5: LENGTH is reported before SHORT_INPUT. -/
theorem test_unpack_errors : (after .unpack { loaded [0xB2] 1 with pktBits := 9 }).status.word = 4 ∧
    (after .unpack { loaded [] 8198 with pktBits := 65535 }).status.word = 3 := by decide

/-- 95 L2.6: the field checks. -/
theorem test_gfMul : gfMul 0x11D 0x53 0xCA = 0x8F ∧ gfMul 0x11D 0x80 0x02 = 0x1D := by decide +kernel

/-- 95 L2.6: "HI". -/
theorem test_rsEnc : let t := after .rsEnc (loaded [0x48, 0x49] 2)
    t.outBytes 128 = frameHI ∧ t.outLen = 128 := by decide +kernel

/-- 95 L2.6: 95 bytes end with the separator. -/
theorem test_rsEnc_pad : pad96 standardConfig (List.replicate 95 0x41) = List.replicate 95 0x41 ++ [0x2C] ∧
    pad96 standardConfig (List.replicate 104 0x41) = List.replicate 96 0x41 := by decide

/-- 95 L2.6: one error, in the ECC. -/
theorem test_rsDec : let t := after .rsDec (loaded (corrupt [127] frameHI) 128)
    t.outBytes 96 = messageHI ∧ t.outLen = 96 ∧ t.status.word = 0 := by decide +kernel

/-- 95 L2.6: IN_LEN = 131 is reported. -/
theorem test_rsDec_warning : let t := after .rsDec (loaded frameHI 131)
    t.outLen = 96 ∧ t.status.word = 0x10 := by decide +kernel

/-- 95 L2.7: framing a frame twice. -/
theorem test_frameP : let t := after .frameP (after .frameP (withOut frameHI 0))
    t.outBytes 9 = [0x50, 0x3A, 0x21, 0x50, 0x3A, 0x21, 0x48, 0x49, 0x2C] ∧ t.outAt 130 = 0x29 ∧ t.outLen = 131 := by
  decide +kernel

/-- 95 L1.1, L2.7, either byte order. -/
theorem test_frameW : (after .frameW (withOut [0xB2, 0x80] 9)).outBytes 7 = [0x57, 0x3A, 0x21, 0x09, 0x00, 0xB2, 0x80] ∧
    ((withOut [0xB2, 0x80] 9).frameW { standardConfig with lenOrder := .bigEndian }).outBytes 7 =
      [0x57, 0x3A, 0x21, 0x00, 0x09, 0xB2, 0x80] := by decide +kernel

/-- 95 L2.7: a W packet with a trailing byte; IN past the payload keeps its bytes. -/
theorem test_parse_w : let t := after .parse (loaded [0x57, 0x3A, 0x21, 0x09, 0x00, 0xB2, 0x80, 0xFF] 8)
    t.inBytes 7 = [0xB2, 0x80, 0x21, 0x09, 0x00, 0xB2, 0x80] ∧ t.inLen = 2 ∧ t.pktBits = 9 ∧ t.cntW = 1 ∧
      t.status.word = 0x40 := by decide +kernel

/-- 95 L2.7: classes P, SHORT, SHORT, UNREC, UNREC. -/
theorem test_parse_classes :
    (after .parse (loaded [0x50, 0x3A, 0x21] 3)).status.word = 0x20 ∧
    (after .parse (loaded [0x57, 0x3A, 0x21, 0x09] 4)).status.word = 0x80 ∧
    (after .parse (loaded [0x57, 0x3A, 0x21, 0x00, 0x09, 0xB2, 0x80] 7)).status.word = 0x80 ∧
    (after .parse (loaded [0x50, 0x3A, 0x20] 3)).status.word = 0x60 ∧
    (after .parse (loaded [0x50, 0x3A] 2)).status.word = 0x60 := by decide +kernel

/-- 95 L2.7: a counter wraps. -/
theorem test_txDone : (after (.txDone .p 1) { State.reset with cntP := 0xFFFFFFFF }).cntP = 0 ∧
    (after (.txDone .w 0) { State.reset with cntW := 7 }).cntW = 7 := by decide

/-! ### The bus and the step -/

/-- 95 L2.8: bus errors. -/
theorem test_bus_errors : ∀ t ∈ [HostTxn.read .w32 0, .write .w32 4 0, .write .w8 0x20000 0, .write .w16 0x80000 0,
    .read .w8 5, .read .w32 0x10000, .read .w32 0x30, .write .w32 0x30 0, .read .w8 0x12005],
    nextOf (transact standardConfig State.reset t) = none := by decide

/-- 95 L2.8: 0xFE to BITMEM[0] stores 0. -/
theorem test_bitmem : ((nextOf (transact standardConfig State.reset (.write .w8 0x40000 0xFE))).bind fun s =>
    (nextOf (transact standardConfig s (.read .w8 0x40000))).bind State.resp) = some 0 := by decide +kernel

/-- 95 program 1, line 3: the first command after reset. -/
theorem test_step_command : ((nextOf (step (State.reset.withFetchWord 32 0x00000203))).map fun t =>
    (t.sa, t.parity, t.host.length)) = some (1, 1, 0) := by decide

/-- 95 program 1, line 15: ENC_STATE with SA = SB = 011. -/
theorem test_encState : (nextOf (transact standardConfig { State.reset with sa := 3, sb := 3 } (.read .w32 0x28))).bind
    State.resp = some 0x33 := by decide

/-- A block with another parity reading: the row w = 1011 of 95 L2.3 for encoder B under NONZERO, by a write to CMD. -/
theorem test_bus_parityReading :
    ((nextOf (transact { standardConfig with parityReading := .nonZero } { State.reset with sb := 0b101 }
      (.write .w32 0x00000 0x00000303))).map fun t => (t.parity, t.sb)) = some (0, 0b011) := by decide

/-- A block with 12 address bits does not reach IN, and one with an 8-bit data word does not reach a register. -/
theorem test_bus_widths :
    nextOf (transact { standardConfig with hostAddrW := 12 } State.reset (.read .w8 0x10000)) = none ∧
    nextOf (transact { standardConfig with hostDataW := 8 } State.reset (.read .w32 0x0002C)) = none := by decide

/-! ### Inputs that meet the hypotheses of the obligations

Each theorem is named after the obligation, without its prefix. An obligation without hypotheses needs none. -/

theorem witness_DecodedWordsEncodeToThemselves : decode 0xFFFF0001 = .ok (.ilvGen 65535) ∧
    decode 0x0000030C = .ok (.txDone .w 1) := by decide

/-- Each clause at the borders of the legal opcodes. -/
theorem witness_EveryWordIsCommandIllegalOrReserved :
    decode 0x0000000D = .error .illegalOpcode ∧ decode 0x0000040C = .error .reservedField ∧
    decode 0x00000401 = .error .reservedField ∧ decode 0x0000000C = .ok (.txDone .p 0) := by decide

theorem witness_StepExecutesTheWordWrittenToCmd :
    (queued [.txn (.write .w8 0x10000 0x41), .reset]).host = .txn (.write .w8 0x10000 0x41) :: [.reset] ∧
    ((queued [.txn (.write .w32 0x00000 4)]).host = .txn (.write .w32 0x00000 4) :: [] ∧ decode 4 = .ok .turboEnc) ∧
    ((queued [.txn (.write .w32 0x00000 0)]).host = .txn (.write .w32 0x00000 0) :: [] ∧
      decode 0 = .error .illegalOpcode) ∧
    ((queued [.txn (.write .w32 0x00000 0x404)]).host = .txn (.write .w32 0x00000 0x404) :: [] ∧
      decode 0x404 = .error .reservedField) ∧
    (queued [.txn (.read .w32 0x00000)]).host = .txn (.read .w32 0x00000) :: [] := by decide

/-- A block whose parameters are not the default ones. -/
theorem witness_CommandsRunUnderTheBlocksParameters :
    ({ standardConfig with parityReading := .bitI, lenOrder := .bigEndian, hostAddrW := 24 } : Config).wf = true := by
  decide +kernel

/-- A word that leaves an error. -/
theorem witness_FailedCommandWordsWriteStatusOnly :
    ∃ t, execWord standardConfig 0x404 State.reset = .next t ∧ t.status.err ≠ 0 :=
  ⟨_, rfl, by decide⟩

/-- TURBO_ENC's opcode with RSV bit 10 set matches no row. -/
theorem reserved_matches_none : ∀ i : Instr, (0x404 : Word) &&& i.tableMask ≠ i.tableMatch := by
  intro i
  cases i <;> simp [Instr.tableMask, Instr.tableMatch]

/-- The five clauses: illegal, reserved, too long (8198 bytes, and 2731 bytes of text), too short (8191 bytes for 65535
bits), and none (8192 bytes for 65535 bits). -/
theorem witness_CommandWordsFailExactlyForTheListedCauses :
    (0x0D : Byte) ≤ (0x0D : Word).extractLsb' 0 8 ∧
    (¬ ((0x404 : Word).extractLsb' 0 8 = (0x00 : Byte) ∨ (0x0D : Byte) ≤ (0x404 : Word).extractLsb' 0 8) ∧
      ∀ i : Instr, (0x404 : Word) &&& i.tableMask ≠ i.tableMatch) ∧
    ((0x06 : Word) &&& Instr.unpack.tableMask = Instr.unpack.tableMatch ∧ 8197 < (loaded [] 8198).inLen.toNat) ∧
    ((0x04 : Word) &&& Instr.turboEnc.tableMask = Instr.turboEnc.tableMatch ∧ 2730 < (loaded [] 2731).inLen.toNat) ∧
    (¬ 8197 < (loaded [] 8191).inLen.toNat ∧ (loaded [] 8191).inLen.toNat < (65535 + 7) / 8) ∧
    ¬ (loaded [] 8192).inLen.toNat < (65535 + 7) / 8 :=
  ⟨by decide, ⟨by decide, reserved_matches_none⟩, by decide +kernel, by decide +kernel, by decide +kernel,
    by decide +kernel⟩

theorem witness_StepWithoutEventsHoldsTheState : State.reset.host = [] := rfl

theorem witness_PlatformResetRestoresTheBlock : (queued [.reset, .txn (.read .w32 0x00004)]).host =
    .reset :: [.txn (.read .w32 0x00004)] := rfl

/-- Both clauses, at the borders of the map's regions. -/
theorem witness_BusErrorsAreTheUnadmittedTransactions :
    (∀ t ∈ [HostTxn.read .w32 0x2C, .write .w32 0 5, .read .w8 0x12004, .read .w8 0x22004, .read .w8 0x4FFFE,
      .read .w16 0x80000, .read .w16 0x9FFFC], admitted t = true) ∧
    ∀ t ∈ [HostTxn.read .w32 0x30, .read .w32 0, .read .w32 0x02, .read .w8 0x12005, .read .w8 0x22005, .read .w8 0x4FFFF,
      .read .w16 0x9FFFE, .read .w16 0x80001, .write .w16 0x80000 0], admitted t = false := by decide

/-- Both ends of each buffer's index range, with the last address of its region (20 R60). -/
theorem witness_HostAccessToIn : (0 ≤ 8196 ∧ 8196 ≤ 8196) ∧ 0x10000 + 8196 = 0x12004 := by
  decide +kernel

theorem witness_HostAccessToOut : (0 ≤ 8196 ∧ 8196 ≤ 8196) ∧ 0x20000 + 8196 = 0x22004 ∧
    (0x00014 : Nat) ≠ 0x00000 ∧
    (nextOf (transact standardConfig State.reset (.write .w32 0x00014 9))).isSome = true := by
  decide +kernel

theorem witness_HostAccessToPerm : (0 ≤ 65534 ∧ 65534 ≤ 65534) ∧
    0x80000 + 2 * 65534 = 0x9FFFC := by decide +kernel

theorem witness_HostAccessToBitmem : (0 ≤ 65534 ∧ 65534 ≤ 65534) ∧
    0x40000 + 65534 = 0x4FFFE := by decide +kernel

theorem witness_ReadsHaveNoSideEffect :
    transact standardConfig State.reset (.read .w32 0x0002C) = .next { State.reset with resp := some 0xFB } := rfl

/-- A write of each kind, those to the buffers at the last index. -/
theorem witness_HostWritesHaveNoFurtherEffect :
    ((0x12004 : Nat) ≠ 0x00000 ∧ ∃ t, transact standardConfig State.reset (.write .w8 0x12004 7) = .next t) ∧
    ((0x4FFFE : Nat) ≠ 0x00000 ∧ ∃ t, transact standardConfig State.reset (.write .w8 0x4FFFE 1) = .next t) ∧
    ((0x0000C : Nat) ≠ 0x00000 ∧ ∃ t, transact standardConfig State.reset (.write .w32 0x0000C 2) = .next t) ∧
    ((0x00014 : Nat) ≠ 0x00000 ∧ ∃ t, transact standardConfig State.reset (.write .w32 0x00014 2) = .next t) ∧
    (0x00018 : Nat) ≠ 0x00000 ∧ ∃ t, transact standardConfig State.reset (.write .w32 0x00018 2) = .next t :=
  ⟨⟨by decide, _, rfl⟩, ⟨by decide, _, rfl⟩, ⟨by decide, _, rfl⟩, ⟨by decide, _, rfl⟩, by decide, _, rfl⟩

/-- PERM holds the permutation of 8, and the next step generates that of 16. -/
theorem witness_StepsKeepPermAPermutation :
    let s : State := { after (.ilvGen 8) State.reset with host := [.txn (.write .w32 0x00000 0x00100001)] }
    s.permValid ∧ s.permLen = 8 ∧ ∃ t, step s = .next t := by
  refine ⟨?_, by decide +kernel, _, rfl⟩
  unfold State.permValid
  decide +kernel

theorem witness_ConvStepHasItsClosedForms : (polyA = polyA ∨ polyA = polyB) ∧ (polyB = polyA ∨ polyB = polyB) := by
  decide

theorem witness_EncoderSequencesHaveTheirClosedForms : 6 < ([1, 0, 1, 1, 0, 0, 0] : List Bit).length := by decide

/-- Both clauses: CONV_PARITY, and another command. -/
theorem witness_OnlyConvParityWritesResult : (∃ t, exec (.convParity .b 1) State.reset = .next t) ∧
    (∃ t, exec .pack State.reset = .next t) ∧ ∀ sel bit, Instr.pack ≠ .convParity sel bit :=
  ⟨⟨_, rfl⟩, ⟨_, rfl⟩, fun _ _ h => nomatch h⟩

/-- Both clauses at the border, and the empty text. -/
theorem witness_TurboEncWritesTheCodeword : 2730 < (loaded [] 2731).inLen.toNat ∧ (loaded [] 2730).inLen.toNat ≤ 2730 ∧
    0 < (loaded [] 2730).inLen.toNat ∧ (loaded [] 0).inLen.toNat = 0 := by decide

/-- Two states that share their text and little else. -/
theorem witness_TurboEncDependsOnItsTextOnly :
    let s₁ := loaded [0x48, 0x69] 2
    let s₂ : State := { loaded [0x48, 0x69, 0x21] 2 with sa := 5, bitLen := 9 }
    s₁ ≠ s₂ ∧ s₁.inLen = s₂.inLen ∧ s₁.inLen.toNat ≤ 2730 ∧
      ∀ k, k < s₁.inLen.toNat → s₁.inAt k = s₂.inAt k := by
  decide +kernel

/-- A block whose interleaver is the identity. -/
def identityConfig : Config := { standardConfig with parityReading := .nonZero, ilvFn := List.range }

theorem witness_TurboLawsHoldForEveryAdmissibleInterleaver : identityConfig.wf = true ∧ identityConfig.ilvAdmissible ∧
    (loaded [0x48, 0x69] 2).inLen.toNat ≤ identityConfig.turboMaxText :=
  ⟨by decide +kernel, fun _ _ => List.Perm.refl _, by decide +kernel⟩

/-- The three clauses at their borders. -/
theorem witness_UnpackExtractsBitsMsbFirst : 8197 < (loaded [] 8198).inLen.toNat ∧
    ((loaded [] 1).inLen.toNat ≤ 8197 ∧ (loaded [] 1).inLen.toNat < (9 + 7) / 8) ∧
    ((loaded [] 8197).inLen.toNat ≤ 8197 ∧ (65535 + 7) / 8 ≤ (loaded [] 8197).inLen.toNat) ∧
    (0 + 7) / 8 ≤ (loaded [] 0).inLen.toNat := by decide +kernel

theorem witness_PackThenUnpackRestoresTheBits :
    let s := withBits [1, 0, 1, 1, 0, 0, 1, 0, 1]
    let t := after .pack s
    let s' : State := { t.writeIn 0 [0xB2, 0x80] with inLen := 2 }
    exec .pack s = .next t ∧ s'.inLen = t.outLen ∧ (∀ k, k < t.outLen.toNat → s'.inAt k = t.outAt k) ∧
      s'.pktBits = t.pktBits :=
  ⟨rfl, by decide +kernel, by decide +kernel, by decide +kernel⟩

theorem witness_UnpackThenPackClearsTheUnusedBits : (9 + 7) / 8 = ([0xB2, 0xFF] : List Byte).length ∧
    (0 + 7) / 8 = ([] : List Byte).length := by decide

/-- Both clauses at the border, with the empty text and the longest one that is padded. -/
theorem witness_RsEncWritesMessageAndEcc : 8197 < (loaded [] 8198).inLen.toNat ∧ (loaded [] 8197).inLen.toNat ≤ 8197 ∧
    (loaded [] 95).inLen.toNat ≤ 8197 ∧ (loaded [] 0).inLen.toNat ≤ 8197 := by decide +kernel

theorem witness_RsEncFramesAreCodewords : (loaded [0x48, 0x49] 2).inLen.toNat ≤ 8197 ∧
    ∃ t, exec .rsEnc (loaded [0x48, 0x49] 2) = .next t :=
  ⟨by decide, _, rfl⟩

theorem frameHI_isCodeword : isCodeword standardConfig frameHI = true := by decide +kernel

theorem witness_CodewordsDifferInThirtyThreePositions : isCodeword standardConfig frameHI = true ∧
    isCodeword standardConfig (List.replicate 128 0) = true ∧ frameHI ≠ List.replicate 128 0 :=
  ⟨frameHI_isCodeword, by decide +kernel, by decide⟩

/-- At distance 16, the greatest the decoder corrects. -/
theorem witness_RsDecCorrectsSixteenErrors :
    let s := loaded (corrupt sixteen frameHI) 128
    s.inLen.toNat ≤ 8197 ∧ isCodeword standardConfig frameHI = true ∧ distance (s.inBytes 128) frameHI = 16 :=
  ⟨by decide, frameHI_isCodeword, by decide +kernel⟩

/-- A frame with 17 nonzero bytes that vanishes at α^0, …, α^15 and not at α^16: the product of the first 16 factors
of the generator (44 R201). -/
def farFrame : List Byte :=
  List.replicate 111 0 ++ ((List.range 16).map (gfPow 0x11D 0x02)).foldl (mulRoot 0x11D) [1]

/-- No member of the code is within 16 of that frame. A member that near would agree with it at 16 powers of α and be
equal to it, but the members vanish at α^16 too. -/
theorem witness_RsDecBeyondTheBoundDraws : (loaded farFrame 128).inLen.toNat ≤ 8197 ∧
    ∀ c, isCodeword standardConfig c = true → 16 < distance ((loaded farFrame 128).inBytes 128) c := by
  have bytes : (loaded farFrame 128).inBytes 128 = farFrame := by decide +kernel
  have roots : ∀ i : Fin 16, gfEvalHigh 0x11D farFrame (gfPow 0x11D 0x02 i.val) = 0 := by decide +kernel
  have noRoot : gfEvalHigh 0x11D farFrame (gfPow 0x11D 0x02 16) ≠ 0 := by decide +kernel
  have length : farFrame.length = 128 := by decide +kernel
  refine ⟨by decide, fun c hc => ?_⟩
  rw [bytes]
  by_contra near
  have same := eq_of_close (n := 16) (length.trans (isCodeword_length standardConfig hc).symm) (Nat.le_of_eq length)
    (Nat.le_of_not_lt near) (fun i hi => (roots ⟨i, hi⟩).trans (isCodeword_root hc (by omega)).symm)
  rw [same] at noRoot
  exact noRoot (isCodeword_root hc (by omega))

theorem witness_RsRoundTripToleratesSixteenErrors :
    let s := loaded [0x48, 0x49] 2
    let t := after .rsEnc s
    let s' := loaded (corrupt sixteen frameHI) 128
    s.inLen.toNat ≤ 8197 ∧ exec .rsEnc s = .next t ∧ s'.inLen = 128 ∧ t.outBytes 128 = frameHI ∧
      distance (s'.inBytes 128) frameHI = 16 :=
  ⟨by decide, rfl, by decide, by decide +kernel, by decide +kernel⟩

/-- Each clause: too long; "P:!" alone; a W packet without payload and one with; a W packet without its header, and
one without its payload; fewer than 3 bytes, and another prefix. -/
theorem witness_ParseClassifiesAndStrips :
    let tagged (s : State) (c : Byte) : Prop :=
      3 ≤ s.inLen.toNat ∧ s.inAt 0 = c ∧ s.inAt 1 = 0x3A ∧ s.inAt 2 = 0x21
    let bytes (s : State) : Nat := ((s.inAt 3).toNat + 256 * (s.inAt 4).toNat + 7) / 8
    let bare := loaded [0x57, 0x3A, 0x21, 0x00, 0x00] 5
    let whole := loaded [0x57, 0x3A, 0x21, 0x09, 0x00, 0xB2, 0x80] 7
    let cut := loaded [0x57, 0x3A, 0x21, 0x09, 0x00, 0xB2] 6
    8197 < (loaded [] 8198).inLen.toNat ∧
    tagged (loaded [0x50, 0x3A, 0x21] 3) 0x50 ∧
    (tagged bare 0x57 ∧ 5 ≤ bare.inLen.toNat ∧ bytes bare ≤ bare.inLen.toNat - 5) ∧
    (tagged whole 0x57 ∧ 5 ≤ whole.inLen.toNat ∧ bytes whole = whole.inLen.toNat - 5) ∧
    (tagged (loaded [0x57, 0x3A, 0x21, 0x09] 4) 0x57 ∧ (loaded [0x57, 0x3A, 0x21, 0x09] 4).inLen.toNat < 5) ∧
    (tagged cut 0x57 ∧ cut.inLen.toNat - 5 < bytes cut) ∧
    (¬ tagged (loaded [0x50, 0x3A] 2) 0x50 ∧ ¬ tagged (loaded [0x50, 0x3A] 2) 0x57) ∧
    ¬ tagged (loaded [0x70, 0x3A, 0x21] 3) 0x50 ∧ ¬ tagged (loaded [0x70, 0x3A, 0x21] 3) 0x57 := by
  decide +kernel

/-- In either byte order, with the default counters and with narrower ones. -/
theorem witness_ParseRecoversWhatFrameWSent :
    let s := withOut [0xB2, 0x80] 9
    let big : Config := { standardConfig with lenOrder := .bigEndian, cntWidth := 16 }
    let s' := loaded [0x57, 0x3A, 0x21, 0x09, 0x00, 0xB2, 0x80] 7
    let s'' := loaded [0x57, 0x3A, 0x21, 0x00, 0x09, 0xB2, 0x80] 7
    (8197 ≤ standardConfig.inSize ∧ standardConfig.cntWidth = 32 ∧ s'.inLen = (s.frameW standardConfig).outLen ∧
      ∀ k, k < (s.frameW standardConfig).outLen.toNat → s'.inAt k = (s.frameW standardConfig).outAt k) ∧
    8197 ≤ big.inSize ∧ s''.inLen = (s.frameW big).outLen ∧
      ∀ k, k < (s.frameW big).outLen.toNat → s''.inAt k = (s.frameW big).outAt k := by
  decide +kernel

theorem witness_ParseRecoversWhatFramePSent :
    let s := withOut frameHI 0
    let t := after .frameP s
    let s' := loaded ([0x50, 0x3A, 0x21] ++ frameHI) 131
    exec .frameP s = .next t ∧ s'.inLen = t.outLen ∧ ∀ k, k < t.outLen.toNat → s'.inAt k = t.outAt k :=
  ⟨rfl, by decide +kernel, by decide +kernel⟩

/-- PARSE, TX_DONE, another command, a transaction that is no command, and a step whose event is not a reset. -/
theorem witness_CountersRiseOnlyByParseAndTxDone : (∃ t, exec .parse State.reset = .next t) ∧
    (∃ t, exec (.txDone .w 1) State.reset = .next t) ∧
    ((∃ t, exec .rsEnc State.reset = .next t) ∧ ∀ tag ok, Instr.rsEnc ≠ .txDone tag ok) ∧
    ((∃ t, transact standardConfig State.reset (.write .w32 0x0000C 7) = .next t) ∧
      ∀ v, HostTxn.write .w32 0x0000C 7 ≠ .write .w32 0x00000 v) ∧
    (∃ t, step (queued [.txn (.write .w32 0x00000 0x0000030C)]) = .next t) ∧
    ∀ rest, (queued [.txn (.write .w32 0x00000 0x0000030C)]).host ≠ .reset :: rest := by
  refine ⟨⟨_, rfl⟩, ⟨_, rfl⟩, ⟨⟨_, rfl⟩, fun _ _ h => ?_⟩, ⟨⟨_, rfl⟩, fun v h => ?_⟩, ⟨_, rfl⟩, fun _ h => ?_⟩
  · cases h
  · injection h with _ h _
    exact absurd h (by decide)
  · cases h

/-- A command that warns, one that classifies, and one that fails. -/
theorem witness_StatusReportsTheCommandThatWroteIt : (∃ t, exec .rsDec (loaded frameHI 131) = .next t) ∧
    (∃ t, exec .parse (loaded [0x50, 0x3A, 0x21] 3) = .next t) ∧ ∃ t, exec .parse (loaded [] 8198) = .next t :=
  ⟨⟨_, rfl⟩, ⟨_, rfl⟩, ⟨_, rfl⟩⟩

theorem witness_StepsKeepTheStateWellFormed :
    let s : State := { loaded [0x41] 1 with host := [.txn (.write .w32 0x00000 0x00000004)] }
    s.wf = true ∧ ∃ t, step s = .next t :=
  ⟨by decide +kernel, _, rfl⟩

end Sys2Proof.Tests
end

section
/-!
SUPPORT. The word of a command read back by fields (30 R90), and that it decodes to the command (30 R94, R97).
-/

namespace Sys2Proof

section

variable (opc : Byte) (sel bit : Bit) (imm : Half)

theorem cmdWord_opcode : (cmdWord opc sel bit imm).extractLsb' 0 8 = opc :=
  BitVec.extractLsb'_append_eq_right

theorem cmdWord_imm : (cmdWord opc sel bit imm).extractLsb' 16 16 = imm := by
  calc (cmdWord opc sel bit imm).extractLsb' 16 16
      = (imm ++ (0 : BitVec 6) ++ bit ++ sel).extractLsb' 8 16 := BitVec.extractLsb'_append_eq_of_le (by decide)
    _ = (imm ++ (0 : BitVec 6) ++ bit).extractLsb' 7 16 := BitVec.extractLsb'_append_eq_of_le (by decide)
    _ = (imm ++ (0 : BitVec 6)).extractLsb' 6 16 := BitVec.extractLsb'_append_eq_of_le (by decide)
    _ = imm := BitVec.extractLsb'_append_eq_left

end

/-- ILV_GEN's word has 0 in RSV, SEL and BIT: its row of the table fixes them (30 R94). -/
theorem encode_ilvGen_reserved (len : Half) :
    encode (.ilvGen len) &&& ~~~(0x000000FF#32 ||| freeBits 0x01) = 0 := by
  have hrow : encode (.ilvGen len) &&& 0x0000FFFF = 0x00000001 := Laws.TableRow.ilvGen len
  have hmask : ~~~(0x000000FF#32 ||| freeBits 0x01) = 0x0000FFFF &&& 0x0000FF00 := by decide
  rw [hmask, ← BitVec.and_assoc, hrow]
  decide

theorem decode_encode_ilvGen (len : Half) : decode (encode (.ilvGen len)) = .ok (.ilvGen len) := by
  have hopc : (encode (.ilvGen len)).extractLsb' 0 8 = 0x01 := cmdWord_opcode ..
  have hcommand : commandOf (encode (.ilvGen len)) = .ok (.ilvGen len) := by
    simp only [commandOf, hopc]
    exact congrArg (Except.ok ∘ Instr.ilvGen) (cmdWord_imm ..)
  rw [decode_command (by rw [hopc]; decide) (by rw [hopc]; exact encode_ilvGen_reserved len), hcommand]

/-- 30 R94, R97: only ILV_GEN's operand is not one or two bits. -/
theorem decode_encode (i : Instr) : decode (encode i) = .ok i := by
  cases i with
  | ilvGen len => exact decode_encode_ilvGen len
  | convReset sel => cases sel <;> rfl
  | convParity sel bit => cases sel <;> revert bit <;> decide
  | txDone tag ok => cases tag <;> revert ok <;> decide
  | turboEnc | pack | unpack | rsEnc | rsDec | frameP | frameW | parse => rfl

end Sys2Proof
end

section
/-!
PROOFS. O57: a block runs every command under its own parameters (00 R8): a write to CMD is the command under them, and
CONV_PARITY follows the block's own reading.
-/

namespace Sys2Proof.Machine

section

variable {cfg : Config}

/-- A register moves in one transaction on every block (20 R60). -/
theorem w32_bits_le_hostDataW (h : cfg.wf = true) : Width.w32.bits ≤ cfg.hostDataW := by
  simp only [Config.wf, Config.busFits, Bool.and_eq_true, decide_eq_true_eq] at h
  obtain ⟨_, _, hdata⟩ := h
  exact hdata

/-- Every block has CMD at address 0 (20 R60). -/
theorem locate_cmd (h : cfg.wf = true) : locate cfg .w32 0x00000 = some (.reg .cmd) :=
  locate_eq_placeAt (Nat.two_pow_pos _) (w32_bits_le_hostDataW h)

theorem transact_write_cmd (h : cfg.wf = true) (s : State) (v : Word) :
    transact cfg s (.write .w32 0x00000 v) = execWord cfg v s := by
  simp only [transact, locate_cmd h]
  rfl

theorem transact_write_encode (h : cfg.wf = true) (s : State) (i : Instr) :
    transact cfg s (.write .w32 0x00000 (encode i)) = execWith cfg i s := by
  rw [transact_write_cmd h, execWord_ok s (decode_encode i)]

/-- The parity a CONV_PARITY leaves is that of the block's own reading (41 R145). -/
@[simp] theorem State.convParity_parity (s : State) (sel : Encoder) (bit : Bit) :
    (s.convParity cfg sel bit).parity = (convStep cfg.parityReading (s.encoder sel) (encoderPoly sel) bit).1 := rfl

@[simp] theorem State.convParity_encoder_self (s : State) (sel : Encoder) (bit : Bit) :
    (s.convParity cfg sel bit).encoder sel =
      (convStep cfg.parityReading (s.encoder sel) (encoderPoly sel) bit).2 := by
  cases sel <;> rfl

theorem State.convParity_encoder_other (s : State) {sel other : Encoder} (h : other ≠ sel) (bit : Bit) :
    (s.convParity cfg sel bit).encoder other = s.encoder other := by
  cases sel with
  | a =>
    cases other with
    | a => exact absurd rfl h
    | b => rfl
  | b =>
    cases other with
    | a => rfl
    | b => exact absurd rfl h

theorem State.convParity_frame (s : State) (sel : Encoder) (bit : Bit) :
    let t := s.convParity cfg sel bit
    t = { s with parity := t.parity, sa := t.sa, sb := t.sb, status := { err := 0, warnLen := 0, pclass := 0 } } := by
  cases sel <;> rfl

end

/-- Settles O57: the word of a command decodes to it, and CMD is at address 0 of every block. -/
theorem commandsRunUnderTheBlocksParameters : Obligations.CommandsRunUnderTheBlocksParameters := by
  intro cfg s hwf
  refine ⟨transact_write_encode hwf s, execWith_standardConfig s, fun sel bit => ?_⟩
  exact ⟨s.convParity cfg sel bit, transact_write_encode hwf s (.convParity sel bit), s.convParity_parity sel bit,
    s.convParity_encoder_self sel bit, fun _ hother => s.convParity_encoder_other hother bit,
    s.convParity_frame sel bit⟩

end Sys2Proof.Machine
end

section
/-!
SUPPORT. Everything a command can write, said once per command (10 R23, 60 R281): the buffer with the number of its
elements, the registers, and STATUS. Every fact about all commands follows by cases on it.
-/

namespace Sys2Proof.Machine

/-! ### Lengths -/

/-- The payload a verdict delivers to IN (45 R244); UNREC and SHORT deliver none. -/
def Verdict.payload : Verdict → List Byte
  | .p payload => payload
  | .w payload _ => payload
  | .unrec => []
  | .short => []

/-- A packet's payload is a part of the packet. -/
theorem classify_payload_length_le (cfg : Config) (x : List Byte) : (classify cfg x).payload.length ≤ x.length := by
  unfold classify
  split
  · simp [Verdict.payload]
  · split
    · split
      · rename_i h0 h1 rest hx
        have hrest : rest.length + 2 ≤ x.length := by
          have := congrArg List.length hx
          simp only [List.length_drop, List.length_cons] at this
          omega
        dsimp only
        split
        · simp [Verdict.payload]
        · simp only [Verdict.payload, List.length_take]
          omega
      · simp [Verdict.payload]
    · simp [Verdict.payload]

/-- 40 R121 (a), (c). -/
theorem ilvPerm_perm_range (len : Nat) : (ilvPerm len).Perm (List.range len) :=
  (ilvLoop_perm ..).trans (by simp)

/-! ### What a command can write -/

/-- The commands whose length check can fail (60 R280). -/
def lengthChecked : List Instr := [.turboEnc, .unpack, .rsEnc, .rsDec, .parse]

/-- `CommandEffect s i t`: the command `i`, run in `s`, may leave `t`. Each constructor names what the command writes
and how many elements; everything else is as it was in `s`. -/
inductive CommandEffect (s : State) : Instr → State → Prop
  | lengthError {i : Instr} (checked : i ∈ lengthChecked) : CommandEffect s i (s.raise .length)
  | shortInput : CommandEffect s .unpack (s.raise .shortInput)
  | ilvGen (len : Half) (p : List Nat) (perm : p.Perm (List.range len.toNat)) :
      CommandEffect s (.ilvGen len) { s.storePerm p len with status := Status.ok }
  | convReset (sel : Encoder) (a b : BitVec 3) :
      CommandEffect s (.convReset sel) { s with sa := a, sb := b, status := Status.ok }
  | convParity (sel : Encoder) (bit : Bit) (a b : BitVec 3) :
      CommandEffect s (.convParity sel bit) { s with
        sa := a, sb := b, status := Status.ok
        parity := (convStep .xorBits (s.encoder sel) (encoderPoly sel) bit).1 }
  | turboEnc (bits : List Bit) (p : List Nat) (len n : Half) (a b : BitVec 3) (fits : bits.length ≤ 65535)
      (perm : p.Perm (List.range len.toNat)) :
      CommandEffect s .turboEnc { (s.writeBits 0 bits).storePerm p len with
        bitLen := n, sa := a, sb := b, status := Status.ok }
  | pack (bytes : List Byte) (n : Nat) (length : bytes.length = n) (fits : n ≤ 8192) :
      CommandEffect s .pack { s.writeOut 0 bytes with
        outLen := BitVec.ofNat 16 n, pktBits := s.bitLen, status := Status.ok }
  | unpack (bits : List Bit) (fits : bits.length ≤ 65535) :
      CommandEffect s .unpack { s.writeBits 0 bits with bitLen := s.pktBits, status := Status.ok }
  | rsEnc (frame : List Byte) (length : frame.length = 128) :
      CommandEffect s .rsEnc { s.writeOut 0 frame with outLen := 128, status := Status.ok }
  | rsDec (message : List Byte) (draws : Nat) (length : message.length = 96) :
      CommandEffect s .rsDec { s.writeOut 0 message with
        outLen := 96, draws := draws, status := Status.decoded s.inLen }
  | frameP (packet : List Byte) (length : packet.length = 131) :
      CommandEffect s .frameP { s.writeOut 0 packet with outLen := 131, status := Status.ok }
  | frameW (packet : List Byte) (n : Nat) (length : packet.length = n) (fits : n ≤ 8197) :
      CommandEffect s .frameW { s.writeOut 0 packet with outLen := BitVec.ofNat 16 n, status := Status.ok }
  | parsed (c : PClass) (payload : List Byte) (n b : Half) (p w : Word) (fits : payload.length ≤ 8197) :
      CommandEffect s .parse { s.writeIn 0 payload with
        inLen := n, pktBits := b, cntP := p, cntW := w, status := Status.parsed c }
  | unparsed (c : PClass) : CommandEffect s .parse { s with status := Status.parsed c }
  | txDone (tag : Tag) (ok : Bit) (p w : Word) :
      CommandEffect s (.txDone tag ok) { s with cntP := p, cntW := w, status := Status.ok }

section

variable (s : State)

theorem State.ilvGen_effect (len : Half) : CommandEffect s (.ilvGen len) (s.ilvGen standardConfig len) :=
  .ilvGen len _ (ilvPerm_perm_range len.toNat)

theorem State.convReset_effect (sel : Encoder) : CommandEffect s (.convReset sel) (s.convReset sel) := by
  cases sel with
  | a => exact .convReset .a 0 s.sb
  | b => exact .convReset .b s.sa 0

theorem State.convParity_effect (sel : Encoder) (bit : Bit) :
    CommandEffect s (.convParity sel bit) (s.convParity standardConfig sel bit) := by
  cases sel with
  | a => exact .convParity .a bit _ s.sb
  | b => exact .convParity .b bit s.sa _

/-- Three bits for every bit of the text fit BITMEM, since the length check passed (42 R161). -/
theorem State.turboEnc_effect : CommandEffect s .turboEnc (s.turboEnc standardConfig) := by
  unfold State.turboEnc
  split
  · exact .lengthError (by decide)
  · rename_i h
    have hn : s.inLen.toNat ≤ 2730 := Nat.le_of_not_lt h
    have hlen : (BitVec.ofNat 16 (8 * s.inLen.toNat)).toNat = 8 * s.inLen.toNat := by
      simp only [BitVec.toNat_ofNat]
      omega
    have hperm : (ilvPerm (8 * s.inLen.toNat)).Perm (List.range (8 * s.inLen.toNat)) := ilvPerm_perm_range _
    have hbits : (turboCodeword standardConfig (textBits (s.inBytes s.inLen.toNat))
        (ilvPerm (8 * s.inLen.toNat))).length ≤ 65535 := by
      rw [turboCodeword_length _ _ (by simp [hperm.length_eq])]
      simp
      omega
    exact .turboEnc _ _ _ _ _ _ hbits (by rw [hlen]; exact hperm)

theorem State.pack_effect : CommandEffect s .pack s.pack :=
  .pack _ _ (by rw [bitsToBytes_length, State.bits_length]) (ceil8_toNat_le s.bitLen)

theorem State.unpack_effect : CommandEffect s .unpack (s.unpack standardConfig) := by
  unfold State.unpack
  split
  · exact .lengthError (by decide)
  · split
    · exact .shortInput
    · exact .unpack _ (by rw [bytesToBits_length]; omega)

theorem State.rsEnc_effect : CommandEffect s .rsEnc (s.rsEnc standardConfig) := by
  unfold State.rsEnc
  split
  · exact .lengthError (by decide)
  · exact .rsEnc _ (by rw [List.length_append, rsEcc_length _ (pad96_length _ _), pad96_length])

theorem State.rsDec_effect : CommandEffect s .rsDec (s.rsDec standardConfig) := by
  unfold State.rsDec
  split
  · exact .lengthError (by decide)
  · exact .rsDec _ _ (rsDecode_length ..)

theorem State.frameP_effect : CommandEffect s .frameP s.frameP :=
  .frameP _ (by rw [List.length_append, State.outBytes_length]; rfl)

theorem State.frameW_effect : CommandEffect s .frameW (s.frameW standardConfig) := by
  have fits : 5 + ceil8 s.pktBits.toNat ≤ 8197 := Nat.add_le_add_left (ceil8_toNat_le s.pktBits) 5
  refine .frameW _ _ ?_ fits
  rw [List.length_append, List.length_append, hdrBytes_length, State.outBytes_length]
  rfl

theorem State.deliver_effect {v : Verdict} (fits : v.payload.length ≤ 8197) :
    CommandEffect s .parse (s.deliver standardConfig v) := by
  cases v with
  | p payload => exact .parsed .p payload _ s.pktBits _ s.cntW fits
  | w payload b => exact .parsed .w payload _ b s.cntP _ fits
  | unrec => exact .unparsed .unrec
  | short => exact .unparsed .short

theorem State.parse_effect : CommandEffect s .parse (s.parse standardConfig) := by
  unfold State.parse
  split
  · exact .lengthError (by decide)
  · rename_i h
    have hin : s.inLen.toNat ≤ 8197 := Nat.le_of_not_lt h
    have hpayload := classify_payload_length_le standardConfig (s.inBytes s.inLen.toNat)
    rw [State.inBytes_length] at hpayload
    exact s.deliver_effect (hpayload.trans hin)

theorem State.txDone_effect (tag : Tag) (ok : Bit) :
    CommandEffect s (.txDone tag ok) (s.txDone standardConfig tag ok) := by
  unfold State.txDone
  split
  · cases tag with
    | p => exact .txDone .p ok _ s.cntW
    | w => exact .txDone .w ok s.cntP _
  · exact .txDone tag ok s.cntP s.cntW

end

variable {i : Instr} {s t : State}

/-- Everything a command can do. -/
theorem exec_effect (h : exec i s = .next t) : CommandEffect s i t := by
  cases i <;> cases h
  case ilvGen len => exact s.ilvGen_effect len
  case convReset sel => exact s.convReset_effect sel
  case convParity sel bit => exact s.convParity_effect sel bit
  case turboEnc => exact s.turboEnc_effect
  case pack => exact s.pack_effect
  case unpack => exact s.unpack_effect
  case rsEnc => exact s.rsEnc_effect
  case rsDec => exact s.rsDec_effect
  case frameP => exact s.frameP_effect
  case frameW => exact s.frameW_effect
  case parse => exact s.parse_effect
  case txDone tag ok => exact s.txDone_effect tag ok

/-- A command word executes a command or leaves a decoding error. -/
theorem execWord_next_cases {v : Word} (h : execWord standardConfig v s = .next t) :
    (∃ i, exec i s = .next t) ∨ ∃ e, t = s.raise e := by
  cases hv : decode v with
  | ok i => exact .inl ⟨i, by rw [← execWord_standardConfig s hv]; exact h⟩
  | error e =>
    rw [execWord_error s hv] at h
    cases h
    exact .inr ⟨e, rfl⟩

/-- A property of states that a reset establishes, and that taking an event off the queue and every transaction keep,
is kept by every step. -/
theorem step_keeps {P : State → Prop} (restart : ∀ s : State, P s.restart)
    (take : ∀ (s : State) rest, P s → P (s.takeEvent rest))
    (txn : ∀ s t x, P s → transact standardConfig s x = .next t → P t) (hs : P s) (h : step s = .next t) : P t := by
  rcases step_next_cases h with ⟨_, rfl⟩ | ⟨rest, _, rfl⟩ | ⟨rest, x, _, ht⟩
  · exact hs
  · exact restart _
  · exact txn _ t x (take s rest hs) ht

end Sys2Proof.Machine
end

section
/-!
PROOFS. O25: every step keeps PERM[0..PERM_LEN-1] a permutation (10 R32, R36). Only ILV_GEN and TURBO_ENC write PERM or
PERM_LEN, and both store a permutation with its length.
-/

namespace Sys2Proof.Machine

variable {s t : State}

theorem State.permAt_storePerm (s : State) {p : List Nat} (len : Half) {k : Nat} (hk : k < p.length) :
    (s.storePerm p len).permAt k = BitVec.ofNat 16 p[k] := by
  have hwrite : (s.storePerm p len).permAt k = (s.writePerm 0 (p.map (BitVec.ofNat 16))).permAt k :=
    State.permAt_congr rfl rfl k
  simp [hwrite, State.permAt_writePerm, hk]

theorem State.permEntries_storePerm (s : State) (p : List Nat) (len : Half) :
    (s.storePerm p len).permEntries p.length = p.map (BitVec.ofNat 16) := by
  refine List.ext_getElem (by simp) fun k hk _ => ?_
  have hkp : k < p.length := by simpa using hk
  simp [State.permEntries, s.permAt_storePerm len hkp]

/-- Indices below a 16-bit length are stored without loss. -/
theorem State.storePerm_permValid (s : State) {p : List Nat} {len : Half} (h : p.Perm (List.range len.toNat)) :
    (s.storePerm p len).permValid := by
  have hlen : p.length = len.toNat := by simp [h.length_eq]
  have hback : (p.map (BitVec.ofNat 16)).map BitVec.toNat = p := by
    rw [List.map_map, List.map_congr_left (g := id), List.map_id]
    intro j hj
    have hj : j < len.toNat := by simpa using h.mem_iff.1 hj
    simp only [Function.comp_apply, BitVec.toNat_ofNat, id_eq]
    omega
  have hentries : ((s.storePerm p len).permEntries len.toNat).map BitVec.toNat = p := by
    rw [← hlen, State.permEntries_storePerm, hback]
  rw [State.permValid, State.storePerm_permLen, hentries]
  exact h

/-- Whether PERM holds a permutation depends on PERM, its reset draws and PERM_LEN alone. -/
theorem State.permValid_congr (hb : t.permBuf = s.permBuf) (hl : t.permLen = s.permLen) (hr : t.boot = s.boot)
    (h : s.permValid) : t.permValid := by
  have hentries : t.permEntries s.permLen.toNat = s.permEntries s.permLen.toNat :=
    List.map_congr_left fun k _ => State.permAt_congr hb hr k
  rw [State.permValid, hl, hentries]
  exact h

theorem State.restart_permValid (s : State) : s.restart.permValid := List.Perm.refl []

theorem exec_keeps_permValid {i : Instr} (hs : s.permValid) (h : exec i s = .next t) : t.permValid := by
  cases exec_effect h with
  | ilvGen len p perm => exact State.permValid_congr rfl rfl rfl (s.storePerm_permValid perm)
  | turboEnc bits p len n a b fits perm =>
    exact State.permValid_congr rfl rfl rfl ((s.writeBits 0 bits).storePerm_permValid perm)
  | lengthError | shortInput | convReset | convParity | pack | unpack | rsEnc | rsDec | frameP | frameW | parsed
  | unparsed | txDone => exact State.permValid_congr rfl rfl rfl hs

theorem transact_keeps_permValid {x : HostTxn} (hs : s.permValid) (h : transact standardConfig s x = .next t) :
    t.permValid := by
  rcases transact_next_cases h with ⟨_, _, _, _, rfl⟩ | ⟨_, _, _, _, hword⟩ | ⟨_, _, _, rfl⟩ | ⟨_, _, _, rfl⟩ |
    ⟨_, rfl⟩ | ⟨_, rfl⟩ | ⟨_, rfl⟩
  case inr.inl =>
    rcases execWord_next_cases hword with ⟨i, hi⟩ | ⟨e, rfl⟩
    · exact exec_keeps_permValid hs hi
    · exact State.permValid_congr rfl rfl rfl hs
  all_goals exact State.permValid_congr rfl rfl rfl hs

/-- Settles O25: only ILV_GEN, TURBO_ENC and the reset write PERM or PERM_LEN. -/
theorem stepsKeepPermAPermutation : Obligations.StepsKeepPermAPermutation := fun _ _ hs h =>
  step_keeps State.restart_permValid (fun _ _ => State.permValid_congr rfl rfl rfl)
    (fun _ _ _ => transact_keeps_permValid) hs h

end Sys2Proof.Machine
end

section
/-!
SUPPORT. The STATUS every command leaves (10 R23–R26), and that each is a combination the spec allows.
-/

namespace Sys2Proof.Machine

variable {i : Instr} {s t : State}

/-- Which of the four forms of STATUS a command leaves. -/
theorem exec_status (h : exec i s = .next t) :
    (∃ e, t.status = Status.failed e) ∨ (i ≠ .rsDec ∧ i ≠ .parse ∧ t.status = Status.ok) ∨
      (i = .rsDec ∧ t.status = Status.decoded s.inLen) ∨ (i = .parse ∧ ∃ c, t.status = Status.parsed c) := by
  cases exec_effect h with
  | lengthError | shortInput => exact .inl ⟨_, rfl⟩
  | rsDec => exact .inr (.inr (.inl ⟨rfl, rfl⟩))
  | parsed c | unparsed c => exact .inr (.inr (.inr ⟨rfl, c, rfl⟩))
  | ilvGen | convReset | convParity | turboEnc | pack | unpack | rsEnc | frameP | frameW | txDone =>
    exact .inr (.inl ⟨nofun, nofun, rfl⟩)

theorem Status.ok_legal : Status.ok.legal = true := rfl

theorem Status.failed_legal (e : CmdError) : (Status.failed e).legal = true := by
  cases e <;> rfl

theorem Status.decoded_legal (n : Half) : (Status.decoded n).legal = true := by
  unfold Status.decoded
  split <;> rfl

theorem Status.parsed_legal (c : PClass) : (Status.parsed c).legal = true := by
  cases c <;> rfl

theorem exec_status_legal (h : exec i s = .next t) : t.status.legal = true := by
  rcases exec_status h with ⟨e, he⟩ | ⟨_, _, hok⟩ | ⟨_, hdec⟩ | ⟨_, c, hc⟩
  · exact he ▸ Status.failed_legal e
  · exact hok ▸ Status.ok_legal
  · exact hdec ▸ Status.decoded_legal s.inLen
  · exact hc ▸ Status.parsed_legal c

end Sys2Proof.Machine
end

section
/-!
PROOFS. O55: every step keeps the buffers canonical, STATUS legal and OUT_LEN within OUT (10 R24, R26, R36).
-/

namespace Sys2Proof.Machine

variable {s t : State}

theorem State.wf_iff (s : State) :
    s.wf = true ↔ s.buffersWf = true ∧ s.status.legal = true ∧ s.outLen.toNat ≤ 8197 := by
  simp [State.wf, and_assoc]

theorem State.restart_wf (s : State) : s.restart.wf = true := rfl

theorem State.raise_wf (e : CmdError) (hs : s.wf = true) : (s.raise e).wf = true := by
  obtain ⟨hbuf, _, hout⟩ := s.wf_iff.1 hs
  exact (State.wf_iff _).2 ⟨hbuf, Status.failed_legal e, hout⟩

theorem exec_keeps_buffersWf {i : Instr} (hs : s.buffersWf = true) (h : exec i s = .next t) :
    t.buffersWf = true := by
  cases exec_effect h with
  | lengthError | shortInput | convReset | convParity | unparsed | txDone => exact hs
  | ilvGen len p perm =>
    exact State.buffersWf_writePerm hs 0 _ (by simp [perm.length_eq]; omega)
  | turboEnc bits p len n a b fits perm =>
    have hbits := State.buffersWf_writeBits hs 0 bits (by omega)
    exact State.buffersWf_writePerm hbits 0 _ (by simp [perm.length_eq]; omega)
  | unpack bits fits => exact State.buffersWf_writeBits hs 0 bits (by omega)
  | parsed c payload n b p w fits => exact State.buffersWf_writeIn hs 0 payload (by omega)
  | pack bytes n length fits | frameW bytes n length fits => exact State.buffersWf_writeOut hs 0 bytes (by omega)
  | rsEnc bytes length | rsDec bytes draws length | frameP bytes length =>
    exact State.buffersWf_writeOut hs 0 bytes (by omega)

theorem exec_keeps_outLen_le {i : Instr} (hs : s.outLen.toNat ≤ 8197) (h : exec i s = .next t) :
    t.outLen.toNat ≤ 8197 := by
  cases exec_effect h with
  | pack bytes n length fits | frameW bytes n length fits =>
    show n % 2 ^ 16 ≤ 8197
    omega
  | rsEnc | rsDec | frameP =>
    dsimp only
    decide
  | lengthError | shortInput | ilvGen | convReset | convParity | turboEnc | unpack | parsed | unparsed | txDone =>
    exact hs

theorem exec_keeps_wf {i : Instr} (hs : s.wf = true) (h : exec i s = .next t) : t.wf = true := by
  obtain ⟨hbuf, _, hout⟩ := s.wf_iff.1 hs
  exact t.wf_iff.2 ⟨exec_keeps_buffersWf hbuf h, exec_status_legal h, exec_keeps_outLen_le hout h⟩

theorem transact_keeps_wf {x : HostTxn} (hs : s.wf = true) (h : transact standardConfig s x = .next t) :
    t.wf = true := by
  obtain ⟨hbuf, hst, hout⟩ := s.wf_iff.1 hs
  rcases transact_next_cases h with ⟨_, _, _, _, rfl⟩ | ⟨_, _, _, _, hword⟩ | ⟨k, v, hk, rfl⟩ | ⟨k, v, hk, rfl⟩ |
    ⟨_, rfl⟩ | ⟨_, rfl⟩ | ⟨_, rfl⟩
  case inr.inl =>
    rcases execWord_next_cases hword with ⟨i, hi⟩ | ⟨e, rfl⟩
    · exact exec_keeps_wf hs hi
    · exact State.raise_wf e hs
  case inr.inr.inl =>
    exact (State.wf_iff _).2 ⟨State.buffersWf_writeIn hbuf k [v] (Nat.succ_le_succ hk), hst, hout⟩
  case inr.inr.inr.inl =>
    exact (State.wf_iff _).2 ⟨State.buffersWf_writeBits hbuf k [v] (Nat.succ_le_succ hk), hst, hout⟩
  all_goals exact hs

/-- Settles O55: every write of a command or of the host is inside its buffer, and every command leaves a legal STATUS
and an OUT_LEN of a packet it wrote. -/
theorem stepsKeepTheStateWellFormed : Obligations.StepsKeepTheStateWellFormed := fun _ _ hs h =>
  step_keeps State.restart_wf (fun _ _ hs => hs) (fun _ _ _ => transact_keeps_wf) hs h

end Sys2Proof.Machine
end

section
/-!
PROOFS. O31, O54 and O53: what a command says in RESULT and STATUS, and that it reads no STATUS (10 R23–R27, R39).
-/

namespace Sys2Proof.Machine

/-- Settles O31: no effect but that of CONV_PARITY names RESULT. -/
theorem onlyConvParityWritesResult : Obligations.OnlyConvParityWritesResult := by
  intro i s t h
  cases exec_effect h with
  | convParity sel bit =>
    refine ⟨fun sel' bit' hi => ?_, fun hi => absurd rfl (hi sel bit)⟩
    cases hi
    rfl
  | lengthError checked =>
    refine ⟨fun sel bit hi => ?_, fun _ => rfl⟩
    subst hi
    simp [lengthChecked] at checked
  | shortInput | ilvGen | convReset | turboEnc | pack | unpack | rsEnc | rsDec | frameP | frameW | parsed | unparsed
  | txDone => exact ⟨nofun, fun _ => rfl⟩

theorem Status.failed_err_ne_zero (e : CmdError) : (Status.failed e).err ≠ 0 := by
  cases e <;> decide

theorem Status.parsed_pclass_ne_zero (c : PClass) : (Status.parsed c).pclass ≠ 0 := by
  cases c <;> decide

theorem Status.decoded_warnLen_iff (n : Half) : (Status.decoded n).warnLen = 1 ↔ n ≠ 128 := by
  have h128 : n.toNat ≠ 128 ↔ n ≠ 128 := not_congr (BitVec.toNat_inj (y := 128))
  rw [← h128]
  unfold Status.decoded
  split <;> simp_all

theorem Status.le_of_legal {st : Status} (h : st.legal = true) : st.err ≤ 4 ∧ st.pclass ≤ 4 := by
  simp only [Status.legal, Bool.and_eq_true, decide_eq_true_eq] at h
  obtain ⟨⟨⟨herr, hpclass⟩, _⟩, _⟩ := h
  exact ⟨herr, hpclass⟩

/-- Settles O54: by the four forms of STATUS. -/
theorem statusReportsTheCommandThatWroteIt : Obligations.StatusReportsTheCommandThatWroteIt := by
  intro i s t h
  rw [← and_assoc]
  refine ⟨?_, Status.le_of_legal (exec_status_legal h)⟩
  rcases exec_status h with ⟨e, he⟩ | ⟨hdec, hparse, hok⟩ | ⟨rfl, hdec⟩ | ⟨rfl, c, hc⟩
  · have herr := Status.failed_err_ne_zero e
    rw [he]
    exact ⟨iff_of_false nofun fun ⟨_, h0, _⟩ => herr h0, iff_of_false (fun hp => hp rfl) fun ⟨_, h0⟩ => herr h0⟩
  · rw [hok]
    exact ⟨iff_of_false nofun fun ⟨hi, _⟩ => hdec hi, iff_of_false (fun hp => hp rfl) fun ⟨hi, _⟩ => hparse hi⟩
  · rw [hdec, Status.decoded_warnLen_iff]
    exact ⟨⟨fun hn => ⟨rfl, rfl, hn⟩, fun ⟨_, _, hn⟩ => hn⟩, iff_of_false (fun hp => hp rfl) nofun⟩
  · rw [hc]
    exact ⟨iff_of_false nofun nofun, iff_of_true (Status.parsed_pclass_ne_zero c) ⟨rfl, rfl⟩⟩

/-- Settles O53: what a command does with the state is computed from other fields than STATUS, which it writes whole. -/
theorem noCommandReadsStatus : Obligations.NoCommandReadsStatus := by
  intro i s st
  cases i with
  | convReset sel | convParity sel bit => cases sel <;> rfl
  | txDone tag ok =>
    simp only [exec_txDone, State.txDone]
    split
    · cases tag <;> rfl
    · rfl
  | ilvGen | turboEnc | pack | unpack | rsEnc | rsDec | frameP | frameW | parse => rfl

end Sys2Proof.Machine
end

section
/-!
PROOFS. O5: a step runs the host's next transaction, and a write to CMD the command of its word (10 R22, 20 R72).
-/

namespace Sys2Proof.Machine

theorem standardConfig_wf : standardConfig.wf = true := by decide

/-- CMD cannot be read (10 R22, 20 R66). -/
theorem transact_read_cmd (s : State) (w : Width) :
    transact standardConfig s (.read w 0x00000) = .fault .busError := by
  cases w <;> rfl

/-- The code in STATUS of a word that does not decode (10 R24). -/
theorem failed_of_decode_error {v : Word} {e : CmdError} (h : decode v = .error e) :
    Status.failed e = { err := if e = .illegalOpcode then 1 else 2, warnLen := 0, pclass := 0 } := by
  rcases decode_error h with rfl | rfl <;> rfl

/-- Settles O5: a step is the transaction at the head of the queue, and CMD is at address 0. -/
theorem stepExecutesTheWordWrittenToCmd : Obligations.StepExecutesTheWordWrittenToCmd := by
  refine ⟨fun s x rest h => step_txn h, fun s v rest h => ?_, fun s w rest h => ?_⟩
  · have hstep : step s = execWord standardConfig v (s.takeEvent rest) := by
      rw [step_txn h, transact_write_cmd standardConfig_wf]
    refine ⟨fun i hi => ?_, fun e he => ?_⟩
    · rw [hstep, execWord_standardConfig _ hi]
      rfl
    · rw [hstep, execWord_error _ he, ← failed_of_decode_error he]
      rfl
  · rw [step_txn h, transact_read_cmd]

end Sys2Proof.Machine
end

section
/-!
PROOFS. O14, O10 and O19: the registers on the bus (10 R21, R35, 20 R61).
-/

namespace Sys2Proof.Machine

theorem lenWord_eq_append (v : Half) : lenWord v = (0 : Half) ++ v :=
  BitVec.setWidth_eq_append (by decide)

theorem parityWord_eq_append (b : Bit) : b.setWidth 32 = (0 : BitVec 31) ++ b :=
  BitVec.setWidth_eq_append (by decide)

theorem locate_reg {r : Reg} {n : Nat} (h : regAt n = some r) :
    locate standardConfig .w32 (4 * n) = some (.reg r) := by
  rw [locate_standardConfig]
  simp [placeAt, h]

/-- A read of a register's address answers what the register reads. -/
theorem transact_read_reg {s : State} {r : Reg} {n : Nat} {v : Word} (hr : regAt n = some r)
    (hv : s.readReg r = some v) :
    transact standardConfig s (.read .w32 (4 * n)) = .next { s with resp := some v } := by
  simp only [transact, locate_reg hr, Option.bind_some, State.readPlace, hv]

theorem transact_write_reg (s : State) {r : Reg} {n : Nat} (v : Word) (hr : regAt n = some r) :
    transact standardConfig s (.write .w32 (4 * n) v) = s.writeReg standardConfig v r := by
  simp only [transact, locate_reg hr, State.writePlace]

/-- Settles O14: each register's word is its fields in order. -/
theorem registerReadsFollowTheLayout : Obligations.RegisterReadsFollowTheLayout := by
  intro s
  simp only [← lenWord_eq_append, ← parityWord_eq_append]
  exact ⟨transact_read_reg (n := 1) rfl rfl, transact_read_reg (n := 2) rfl rfl, transact_read_reg (n := 3) rfl rfl,
    transact_read_reg (n := 4) rfl rfl, transact_read_reg (n := 5) rfl rfl, transact_read_reg (n := 6) rfl rfl,
    transact_read_reg (n := 7) rfl rfl, transact_read_reg (n := 8) rfl rfl, transact_read_reg (n := 9) rfl rfl,
    transact_read_reg (n := 10) rfl rfl, transact_read_reg (n := 11) rfl rfl⟩

/-- Settles O10: the layout of every register, at the reset values. -/
theorem resetRegistersReadTheirTableValues : Obligations.ResetRegistersReadTheirTableValues :=
  registerReadsFollowTheLayout State.reset

/-- Settles O19: at the three addresses stand the registers that take a write. -/
theorem hostWritesToLengthRegisters : Obligations.HostWritesToLengthRegisters := by
  intro s v
  rw [← BitVec.setWidth_eq_extractLsb' (by decide)]
  exact ⟨transact_write_reg s (n := 3) v rfl, transact_write_reg s (n := 5) v rfl,
    transact_write_reg s (n := 6) v rfl⟩

end Sys2Proof.Machine
end

section
/-!
SUPPORT. The map of the default block read by its places (20 R60): the one width and the one address at which each
place is reached, and which transactions of the map are a place's (20 R66).
-/

namespace Sys2Proof.Machine

/-- A register's word index (10 R21). -/
def Reg.index : Reg → Nat
  | .cmd => 0
  | .status => 1
  | .result => 2
  | .inLen => 3
  | .outLen => 4
  | .bitLen => 5
  | .pktBits => 6
  | .permLen => 7
  | .cntP => 8
  | .cntW => 9
  | .encState => 10
  | .poly => 11

/-- The width at which a place is reached (20 R60). -/
def Place.width : Place → Width
  | .reg _ => .w32
  | .input _ => .w8
  | .output _ => .w8
  | .bit _ => .w8
  | .perm _ => .w16

/-- The address at which a place is reached (20 R60). -/
def Place.address : Place → Nat
  | .reg r => 4 * r.index
  | .input k => 0x10000 + k
  | .output k => 0x20000 + k
  | .bit i => 0x40000 + i
  | .perm i => 0x80000 + 2 * i

/-- The place is one of the default block: its index is inside the buffer (10 R36). -/
def Place.onMap : Place → Prop
  | .reg _ => True
  | .input k => k ≤ 8196
  | .output k => k ≤ 8196
  | .bit i => i ≤ 65534
  | .perm i => i ≤ 65534

/-- The places a host write reaches (20 R61–R65). -/
def Place.writable : Place → Bool
  | .reg .cmd => true
  | .reg .inLen => true
  | .reg .bitLen => true
  | .reg .pktBits => true
  | .reg _ => false
  | .input _ => true
  | .output _ => false
  | .bit _ => true
  | .perm _ => false

/-! ### Where a place is -/

theorem regAt_eq_some_iff {n : Nat} {r : Reg} : regAt n = some r ↔ n = r.index := by
  constructor
  · intro h
    unfold regAt at h
    split at h <;> cases h <;> rfl
  · rintro rfl
    cases r <;> rfl

theorem Reg.exists_index {n : Nat} (h : n < 12) : ∃ r : Reg, n = r.index := by
  have hall : ∀ m < 12, (regAt m).isSome = true := by decide
  obtain ⟨r, hr⟩ := Option.isSome_iff_exists.1 (hall n h)
  exact ⟨r, regAt_eq_some_iff.1 hr⟩

theorem Reg.index_lt (r : Reg) : r.index < 12 := regAt_lt (regAt_eq_some_iff.2 rfl)

theorem Place.locate_address {p : Place} (hp : p.onMap) : locate standardConfig p.width p.address = some p := by
  cases p with
  | reg r => exact locate_reg (regAt_eq_some_iff.2 rfl)
  | input k =>
    rw [locate_standardConfig]
    exact placeAt_of_input rfl (Nat.lt_succ_of_le hp)
  | output k =>
    rw [locate_standardConfig]
    exact placeAt_of_output rfl (Nat.lt_succ_of_le hp) (by decide)
  | bit i =>
    rw [locate_standardConfig]
    exact placeAt_of_bit rfl (Nat.lt_succ_of_le hp) (by decide) (by decide)
  | perm i =>
    rw [locate_standardConfig]
    exact placeAt_of_perm rfl (Nat.lt_succ_of_le hp)

/-- A transaction reaches a place at the place's width and address, and nowhere else. -/
theorem locate_eq_some_iff {w : Width} {a : Nat} {p : Place} :
    locate standardConfig w a = some p ↔ w = p.width ∧ a = p.address ∧ p.onMap := by
  constructor
  · intro h
    have hplace := placeAt_of_locate h
    cases p with
    | reg r =>
      obtain ⟨hw, h4, hr⟩ := placeAt_reg hplace
      have hn : a / 4 = r.index := regAt_eq_some_iff.1 hr
      refine ⟨hw, ?_, trivial⟩
      show a = 4 * r.index
      omega
    | input k =>
      obtain ⟨hw, ha, hk⟩ := placeAt_input hplace
      exact ⟨hw, ha, Nat.le_of_lt_succ hk⟩
    | output k =>
      obtain ⟨hw, ha, hk⟩ := placeAt_output hplace
      exact ⟨hw, ha, Nat.le_of_lt_succ hk⟩
    | bit i =>
      obtain ⟨hw, ha, hi⟩ := placeAt_bit hplace
      exact ⟨hw, ha, Nat.le_of_lt_succ hi⟩
    | perm i =>
      obtain ⟨hw, ha, hi⟩ := placeAt_perm hplace
      exact ⟨hw, ha, Nat.le_of_lt_succ hi⟩
  · rintro ⟨rfl, rfl, hp⟩
    exact Place.locate_address hp

/-- Registers, byte-wide elements and PERM stand in three ranges of the map, in this order. -/
theorem Place.width_eq_of_address {p : Place} (hp : p.onMap) :
    p.width = if p.address < 0x10000 then .w32 else if p.address < 0x80000 then .w8 else .w16 := by
  cases p with
  | reg r =>
    have := r.index_lt
    exact (if_pos (show 4 * r.index < 0x10000 by omega)).symm
  | input k | output k | bit k =>
    simp only [Place.onMap] at hp
    rw [if_neg, if_pos]
    · rfl
    all_goals simp only [Place.address]; omega
  | perm i =>
    rw [if_neg, if_neg]
    · rfl
    all_goals simp only [Place.address]; omega

/-- No two places share an address (20 R60). -/
theorem Place.eq_of_address_eq {p q : Place} (hp : p.onMap) (hq : q.onMap) (h : p.address = q.address) : p = q := by
  have hw : p.width = q.width := by rw [width_eq_of_address hp, width_eq_of_address hq, h]
  have hloc := locate_address hp
  rw [hw, h, locate_address hq] at hloc
  exact (Option.some.inj hloc).symm

/-! ### The admitted transactions -/

theorem Place.admitted_read {p : Place} (hp : p.onMap) (hcmd : p ≠ .reg .cmd) :
    admitted (.read p.width p.address) = true := by
  cases p with
  | reg r =>
    cases r with
    | cmd => exact absurd rfl hcmd
    | status | result | inLen | outLen | bitLen | pktBits | permLen | cntP | cntW | encState | poly => rfl
  | input k | output k | bit k | perm k =>
    simp only [onMap] at hp
    simp only [width, address, admitted, Bool.or_eq_true, Bool.and_eq_true, decide_eq_true_eq]
    omega

theorem Place.admitted_write {p : Place} (hp : p.onMap) (hwritable : p.writable = true) (v : Word) :
    admitted (.write p.width p.address v) = true := by
  cases p with
  | reg r =>
    cases r with
    | cmd | inLen | bitLen | pktBits => rfl
    | status | result | outLen | permLen | cntP | cntW | encState | poly => cases hwritable
  | input k | bit k =>
    simp only [onMap] at hp
    simp only [width, address, admitted, Bool.or_eq_true, Bool.and_eq_true, decide_eq_true_eq]
    omega
  | output k | perm k => cases hwritable

/-- The reads the map admits are those of a place other than CMD. -/
theorem admitted_read_iff {w : Width} {a : Nat} :
    admitted (.read w a) = true ↔ ∃ p, locate standardConfig w a = some p ∧ p ≠ .reg .cmd := by
  simp only [locate_eq_some_iff]
  constructor
  · intro h
    cases w with
    | w8 =>
      simp only [admitted, Bool.or_eq_true, Bool.and_eq_true, decide_eq_true_eq] at h
      obtain (⟨hlo, hhi⟩ | ⟨hlo, hhi⟩) | ⟨hlo, hhi⟩ := h
      · exact ⟨.input (a - 0x10000), ⟨rfl, (Nat.add_sub_of_le hlo).symm, Nat.sub_le_of_le_add hhi⟩, nofun⟩
      · exact ⟨.output (a - 0x20000), ⟨rfl, (Nat.add_sub_of_le hlo).symm, Nat.sub_le_of_le_add hhi⟩, nofun⟩
      · exact ⟨.bit (a - 0x40000), ⟨rfl, (Nat.add_sub_of_le hlo).symm, Nat.sub_le_of_le_add hhi⟩, nofun⟩
    | w16 =>
      simp only [admitted, Bool.and_eq_true, decide_eq_true_eq] at h
      refine ⟨.perm ((a - 0x80000) / 2), ⟨rfl, ?_, ?_⟩, nofun⟩ <;> simp only [Place.address, Place.onMap] <;> omega
    | w32 =>
      simp only [admitted, Bool.and_eq_true, decide_eq_true_eq] at h
      obtain ⟨r, hr⟩ := Reg.exists_index (n := a / 4) (by omega)
      refine ⟨.reg r, ⟨rfl, show a = 4 * r.index by omega, trivial⟩, ?_⟩
      rintro ⟨rfl⟩
      simp only [Reg.index] at hr
      omega
  · rintro ⟨p, ⟨rfl, rfl, hp⟩, hcmd⟩
    exact Place.admitted_read hp hcmd

/-- The writes the map admits are those of a writable place. -/
theorem admitted_write_iff {w : Width} {a : Nat} {v : Word} :
    admitted (.write w a v) = true ↔ ∃ p, locate standardConfig w a = some p ∧ p.writable = true := by
  simp only [locate_eq_some_iff]
  constructor
  · intro h
    cases w with
    | w8 =>
      simp only [admitted, Bool.or_eq_true, Bool.and_eq_true, decide_eq_true_eq] at h
      obtain ⟨hlo, hhi⟩ | ⟨hlo, hhi⟩ := h
      · exact ⟨.input (a - 0x10000), ⟨rfl, (Nat.add_sub_of_le hlo).symm, Nat.sub_le_of_le_add hhi⟩, rfl⟩
      · exact ⟨.bit (a - 0x40000), ⟨rfl, (Nat.add_sub_of_le hlo).symm, Nat.sub_le_of_le_add hhi⟩, rfl⟩
    | w16 => cases h
    | w32 =>
      simp only [admitted, Bool.or_eq_true, decide_eq_true_eq] at h
      obtain ((rfl | rfl) | rfl) | rfl := h
      · exact ⟨.reg .cmd, ⟨rfl, rfl, trivial⟩, rfl⟩
      · exact ⟨.reg .inLen, ⟨rfl, rfl, trivial⟩, rfl⟩
      · exact ⟨.reg .bitLen, ⟨rfl, rfl, trivial⟩, rfl⟩
      · exact ⟨.reg .pktBits, ⟨rfl, rfl, trivial⟩, rfl⟩
  · rintro ⟨p, ⟨rfl, rfl, hp⟩, hwritable⟩
    exact Place.admitted_write hp hwritable v

end Sys2Proof.Machine
end

section
/-!
SUPPORT. What a transaction does at the place it reaches (20 R61–R66), and what one element written leaves of its
buffer.
-/

namespace Sys2Proof.Machine

variable {cfg : Config} {w : Width} {a : Nat} {p : Place}

/-! ### A place read or written -/

/-- Only CMD cannot be read (10 R22). -/
theorem State.readPlace_of_ne_cmd (s : State) (hp : p ≠ .reg .cmd) : ∃ v, s.readPlace p = some v := by
  cases p with
  | reg r =>
    cases r with
    | cmd => exact absurd rfl hp
    | status | result | inLen | outLen | bitLen | pktBits | permLen | cntP | cntW | encState | poly => exact ⟨_, rfl⟩
  | input k | output k | bit k | perm k => exact ⟨_, rfl⟩

/-- The host's latest answer is no part of what it reads. -/
theorem State.readPlace_resp (s : State) (r : Option Word) (p : Place) :
    { s with resp := r }.readPlace p = s.readPlace p := by
  cases p with
  | reg x => cases x <;> rfl
  | input k | output k | bit k | perm k => rfl

theorem State.writePlace_of_writable (s : State) (v : Word) (hp : p.writable = true) :
    ∃ t, s.writePlace cfg v p = .next t := by
  cases p with
  | reg r =>
    cases r with
    | cmd => exact execWord_total s v
    | inLen | bitLen | pktBits => exact ⟨_, rfl⟩
    | status | result | outLen | permLen | cntP | cntW | encState | poly => cases hp
  | input k | bit k => exact ⟨_, rfl⟩
  | output k | perm k => cases hp

theorem State.writePlace_of_not_writable (s : State) (v : Word) (hp : p.writable = false) :
    s.writePlace cfg v p = .fault .busError := by
  cases p with
  | reg r =>
    cases r with
    | cmd | inLen | bitLen | pktBits => cases hp
    | status | result | outLen | permLen | cntP | cntW | encState | poly => rfl
  | input k | bit k => cases hp
  | output k | perm k => rfl

/-! ### A transaction at a place -/

theorem transact_read_of_locate {s : State} {v : Word} (h : locate cfg w a = some p) (hv : s.readPlace p = some v) :
    transact cfg s (.read w a) = .next { s with resp := some v } := by
  simp only [transact, h, Option.bind_some, hv]

theorem transact_write_of_locate (s : State) (v : Word) (h : locate cfg w a = some p) :
    transact cfg s (.write w a v) = s.writePlace cfg v p := by
  simp only [transact, h]

theorem transact_read_of_locate_none (s : State) (h : locate cfg w a = none) :
    transact cfg s (.read w a) = .fault .busError := by
  simp only [transact, h, Option.bind_none]

theorem transact_write_of_locate_none (s : State) (v : Word) (h : locate cfg w a = none) :
    transact cfg s (.write w a v) = .fault .busError := by
  simp only [transact, h]

/-- A read that answers answers the value of the place it reaches. -/
theorem transact_read_next {s t : State} (h : transact cfg s (.read w a) = .next t) :
    ∃ p v, locate cfg w a = some p ∧ s.readPlace p = some v ∧ t = { s with resp := some v } := by
  simp only [transact] at h
  split at h
  · rename_i v hv
    obtain ⟨p, hp, hread⟩ := Option.bind_eq_some_iff.1 hv
    cases h
    exact ⟨p, v, hp, hread, rfl⟩
  · cases h

/-- A write that answers writes the place it reaches. -/
theorem transact_write_next {s t : State} {v : Word} (h : transact cfg s (.write w a v) = .next t) :
    ∃ p, locate cfg w a = some p ∧ s.writePlace cfg v p = .next t := by
  cases hloc : locate cfg w a with
  | none => rw [transact_write_of_locate_none s v hloc] at h; cases h
  | some p => exact ⟨p, rfl, by rw [← transact_write_of_locate s v hloc]; exact h⟩

theorem transact_read_place {s : State} {v : Word} (hp : p.onMap) (hv : s.readPlace p = some v) :
    transact standardConfig s (.read p.width p.address) = .next { s with resp := some v } :=
  transact_read_of_locate (Place.locate_address hp) hv

theorem transact_write_place (s : State) (v : Word) (hp : p.onMap) :
    transact standardConfig s (.write p.width p.address v) = s.writePlace standardConfig v p :=
  transact_write_of_locate s v (Place.locate_address hp)

/-- At the address of a read-only place a write of any width is a bus error: no other place is there (20 R66). -/
theorem transact_write_readOnly (s : State) (w : Width) (v : Word) (hp : p.onMap) (hro : p.writable = false) :
    transact standardConfig s (.write w p.address v) = .fault .busError := by
  cases hloc : locate standardConfig w p.address with
  | none => exact transact_write_of_locate_none s v hloc
  | some q =>
    obtain ⟨_, haddr, hq⟩ := locate_eq_some_iff.1 hloc
    obtain rfl : p = q := Place.eq_of_address_eq hp hq haddr
    rw [transact_write_of_locate s v hloc, s.writePlace_of_not_writable v hro]

/-! ### One element written -/

theorem State.inAt_writeIn_one (s : State) (k j : Nat) (v : Byte) :
    (s.writeIn k [v]).inAt j = if j = k then v else s.inAt j := by
  rw [State.inAt_writeIn]
  by_cases h : j = k
  · simp [h]
  · rw [if_neg (by simp; omega), if_neg h]

theorem State.bitAt_writeBits_one (s : State) (i j : Nat) (v : Bit) :
    (s.writeBits i [v]).bitAt j = if j = i then v else s.bitAt j := by
  rw [State.bitAt_writeBits]
  by_cases h : j = i
  · simp [h]
  · rw [if_neg (by simp; omega), if_neg h]

theorem bitWord_eq_ite (b : Bit) : b.setWidth 32 = if b = 1 then (1 : Word) else 0 := by
  revert b
  decide

end Sys2Proof.Machine
end

section
/-!
PROOFS. O13 and O9: a transaction, and so a step, stops exactly at an access that is not admitted (20 R66).
-/

namespace Sys2Proof.Machine

variable {x : HostTxn}

theorem transact_of_admitted (s : State) (h : admitted x = true) : ∃ t, transact standardConfig s x = .next t := by
  cases x with
  | read w a =>
    obtain ⟨p, hloc, hp⟩ := admitted_read_iff.1 h
    obtain ⟨v, hv⟩ := s.readPlace_of_ne_cmd hp
    exact ⟨_, transact_read_of_locate hloc hv⟩
  | write w a v =>
    obtain ⟨p, hloc, hp⟩ := admitted_write_iff.1 h
    rw [transact_write_of_locate s v hloc]
    exact s.writePlace_of_writable v hp

theorem transact_of_not_admitted (s : State) (h : admitted x = false) :
    transact standardConfig s x = .fault .busError := by
  cases x with
  | read w a =>
    cases hloc : locate standardConfig w a with
    | none => exact transact_read_of_locate_none s hloc
    | some p =>
      obtain rfl : p = .reg .cmd := by
        by_contra hp
        exact Bool.eq_false_iff.1 h (admitted_read_iff.2 ⟨p, hloc, hp⟩)
      simp only [transact, hloc]
      rfl
  | write w a v =>
    cases hloc : locate standardConfig w a with
    | none => exact transact_write_of_locate_none s v hloc
    | some p =>
      have hp : p.writable = false := by
        by_contra hp
        exact Bool.eq_false_iff.1 h (admitted_write_iff.2 ⟨p, hloc, eq_true_of_ne_false hp⟩)
      rw [transact_write_of_locate s v hloc, s.writePlace_of_not_writable v hp]

/-- Settles O13: the admitted transactions are those of a place that takes them. -/
theorem busErrorsAreTheUnadmittedTransactions : Obligations.BusErrorsAreTheUnadmittedTransactions := fun s _ =>
  ⟨transact_of_not_admitted s, transact_of_admitted s⟩

/-- Settles O9: of the three events only a transaction can stop a step. -/
theorem stepsStopOnlyOnBusErrors : Obligations.StepsStopOnlyOnBusErrors := by
  intro s
  match hh : s.host with
  | [] => exact .inl ⟨s, step_idle hh⟩
  | .reset :: rest => exact .inl ⟨_, step_reset hh⟩
  | .txn x :: rest =>
    rw [step_txn hh]
    cases hx : admitted x with
    | true => exact .inl (transact_of_admitted _ hx)
    | false => exact .inr ⟨transact_of_not_admitted _ hx, x, rest, rfl, hx⟩

end Sys2Proof.Machine
end

section
/-!
PROOFS. O20 and O21: a read changes nothing, and a write other than a command changes only what its address names
(20 R68).
-/

namespace Sys2Proof.Machine

/-- Settles O20: what a read leaves differs only in the answer, which no read depends on. -/
theorem readsHaveNoSideEffect : Obligations.ReadsHaveNoSideEffect := by
  intro s t w a h
  obtain ⟨p, v, hloc, hv, rfl⟩ := transact_read_next h
  exact ⟨rfl, transact_read_of_locate hloc (by rw [State.readPlace_resp, hv])⟩

/-- Settles O21: by the place the write reaches. -/
theorem hostWritesHaveNoFurtherEffect : Obligations.HostWritesHaveNoFurtherEffect := by
  intro s t w a v ha h
  obtain ⟨p, hloc, hwrite⟩ := transact_write_next h
  obtain ⟨_, haddr, _⟩ := locate_eq_some_iff.1 hloc
  cases p with
  | reg r =>
    cases r with
    | cmd => exact absurd haddr ha
    | inLen => cases hwrite; exact .inr (.inr (.inl ⟨hloc, haddr, rfl⟩))
    | bitLen => cases hwrite; exact .inr (.inr (.inr (.inl ⟨hloc, haddr, rfl⟩)))
    | pktBits => cases hwrite; exact .inr (.inr (.inr (.inr ⟨hloc, haddr, rfl⟩)))
    | status | result | outLen | permLen | cntP | cntW | encState | poly => cases hwrite
  | input k =>
    cases hwrite
    exact .inl ⟨k, hloc, haddr, fun j hj => by rw [State.inAt_writeIn_one, if_neg hj], rfl⟩
  | bit i =>
    cases hwrite
    exact .inr (.inl ⟨i, hloc, haddr, fun j hj => by rw [State.bitAt_writeBits_one, if_neg hj], rfl⟩)
  | output k | perm k => cases hwrite

end Sys2Proof.Machine
end

section
/-!
PROOFS. O15 to O18: the four buffers on the bus (20 R62–R65).
-/

namespace Sys2Proof.Machine

/-- Settles O15: at 0x10000 + k stands IN[k]. -/
theorem hostAccessToIn : Obligations.HostAccessToIn := by
  intro s k v hk
  rw [← BitVec.setWidth_eq_extractLsb' (by decide)]
  refine ⟨transact_read_place (p := .input k) hk rfl, s.writeIn k [v.setWidth 8],
    transact_write_place (p := .input k) s v hk, ?_, fun j hj => ?_, rfl⟩
  · rw [State.inAt_writeIn_one, if_pos rfl]
  · rw [State.inAt_writeIn_one, if_neg hj]

/-- Settles O18: at 0x40000 + i stands BITMEM[i]. -/
theorem hostAccessToBitmem : Obligations.HostAccessToBitmem := by
  intro s i v hi
  rw [← BitVec.setWidth_eq_extractLsb' (by decide), ← bitWord_eq_ite]
  refine ⟨transact_read_place (p := .bit i) hi rfl, s.writeBits i [v.setWidth 1],
    transact_write_place (p := .bit i) s v hi, ?_, fun j hj => ?_, rfl⟩
  · rw [State.bitAt_writeBits_one, if_pos rfl]
  · rw [State.bitAt_writeBits_one, if_neg hj]

/-- Settles O16: at 0x20000 + k stands OUT[k], read-only, and no other place's write is one to OUT. -/
theorem hostAccessToOut : Obligations.HostAccessToOut := by
  refine ⟨fun s k v w hk => ⟨transact_read_place (p := .output k) hk rfl,
    transact_write_readOnly (p := .output k) s w v hk rfl⟩, fun s t w a v ha h k => ?_⟩
  rcases hostWritesHaveNoFurtherEffect s t w a v ha h with ⟨_, _, _, _, ht⟩ | ⟨_, _, _, _, ht⟩ | ⟨_, _, ht⟩ |
    ⟨_, _, ht⟩ | ⟨_, _, ht⟩ <;>
    exact State.outAt_congr (congrArg State.outBuf ht) (congrArg State.boot ht) k

/-- Settles O17: at 0x80000 + 2i stands PERM[i], read-only. -/
theorem hostAccessToPerm : Obligations.HostAccessToPerm := fun s i v w hi =>
  ⟨transact_read_place (p := .perm i) hi rfl, transact_write_readOnly (p := .perm i) s w v hi rfl⟩

end Sys2Proof.Machine
end

section
/-!
SUPPORT. Which words are commands (30 R94, R95, R97): the command of a word encodes to the word's opcode and free
bits, so every word is of one of three kinds; and a row of the opcode table fixes every bit its opcode does not free.
-/

namespace Sys2Proof

section

variable {v : Word} {i : Instr}

/-- The bits of a word that the word's opcode does not reserve (30 R97). -/
def openBits (v : Word) : Word := 0x000000FF#32 ||| freeBits (v.extractLsb' 0 8)

/-- The opcode of a word is none of the map's (30 R95). -/
def IllegalOpcode (v : Word) : Prop := v.extractLsb' 0 8 = (0x00 : Byte) ∨ (0x0C : Byte) < v.extractLsb' 0 8

/-! ### The command of a word takes its opcode and its free bits -/

/-- The five fields of a word, put together, are the word (30 R90). -/
theorem fields_append (v : Word) :
    v.extractLsb' 16 16 ++ v.extractLsb' 10 6 ++ v.extractLsb' 9 1 ++ v.extractLsb' 8 1 ++ v.extractLsb' 0 8 = v := by
  rw [BitVec.extractLsb'_append_extractLsb'_eq_extractLsb' (start₂ := 16) (by decide),
    BitVec.extractLsb'_append_extractLsb'_eq_extractLsb' (start₂ := 10) (by decide),
    BitVec.extractLsb'_append_extractLsb'_eq_extractLsb' (start₂ := 9) (by decide),
    BitVec.extractLsb'_append_extractLsb'_eq_extractLsb' (start₂ := 8) (by decide)]
  exact BitVec.extractLsb'_eq_self

/-- A mask that frees no bit of RSV acts field by field (30 R90). -/
theorem and_cmdWord (v : Word) (opc : Byte) (sel bit : Bit) (imm : Half) :
    v &&& cmdWord opc sel bit imm = cmdWord (v.extractLsb' 0 8 &&& opc) (v.extractLsb' 8 1 &&& sel)
      (v.extractLsb' 9 1 &&& bit) (v.extractLsb' 16 16 &&& imm) := by
  conv_lhs => rw [← fields_append v]
  refine BitVec.and_append.trans ?_
  simp only [cmdWord, BitVec.and_append]
  rw [show v.extractLsb' 10 6 &&& 0 = 0 from BitVec.and_zero]

/-- The opcode and the free fields of a word, all others cleared (30 R97). -/
theorem and_openBits {n : Nat} (hopc : (v.extractLsb' 0 8).toNat = n) (sel bit : Bit) (imm : Half)
    (hfree : 0x000000FF#32 ||| freeBits (BitVec.ofNat 8 n) = cmdWord (BitVec.allOnes 8) sel bit imm) :
    v &&& openBits v = cmdWord (BitVec.ofNat 8 n) (v.extractLsb' 8 1 &&& sel)
      (v.extractLsb' 9 1 &&& bit) (v.extractLsb' 16 16 &&& imm) := by
  have hbyte : v.extractLsb' 0 8 = BitVec.ofNat 8 n := by rw [← hopc, BitVec.ofNat_toNat, BitVec.setWidth_eq]
  rw [openBits, hbyte, hfree, and_cmdWord, hbyte, BitVec.and_allOnes]

@[simp] theorem encoderSel_selEncoder (sel : Bit) : encoderSel (selEncoder sel) = sel := by
  revert sel
  decide

@[simp] theorem tagSel_selTag (sel : Bit) : tagSel (selTag sel) = sel := by
  revert sel
  decide

/-- By opcode, with a mask of 1s for each field the opcode uses (30 R93). -/
theorem encode_of_commandOf (h : commandOf v = .ok i) :
    encode i = v &&& openBits v := by
  unfold commandOf at h
  split at h <;> cases h
  case h_1 hopc =>
    rw [and_openBits hopc 0 0 (BitVec.allOnes 16) (by decide), BitVec.and_allOnes]
    simp [encode]
  case h_2 hopc =>
    rw [and_openBits hopc (BitVec.allOnes 1) 0 0 (by decide), BitVec.and_allOnes]
    simp [encode]
  case h_3 hopc | h_12 hopc =>
    rw [and_openBits hopc (BitVec.allOnes 1) (BitVec.allOnes 1) 0 (by decide), BitVec.and_allOnes,
      BitVec.and_allOnes]
    simp [encode]
  case h_4 hopc | h_5 hopc | h_6 hopc | h_7 hopc | h_8 hopc | h_9 hopc | h_10 hopc | h_11 hopc =>
    rw [and_openBits hopc 0 0 0 (by decide)]
    simp [encode]

/-! ### The three kinds of words -/

theorem and_eq_self_of_and_not_eq_zero {x : Word} (h : v &&& ~~~x = 0) : v &&& x = v := by
  calc v &&& x = v &&& x ||| v &&& ~~~x := by simp [h]
    _ = v &&& (x ||| ~~~x) := BitVec.and_or_distrib_left.symm
    _ = v := by rw [BitVec.or_not_self, BitVec.and_allOnes]

/-- Every word is illegal, or has a reserved bit set, or decodes to a command whose word it is (30 R95). -/
theorem decode_trichotomy (v : Word) :
    (IllegalOpcode v ∧ decode v = .error .illegalOpcode) ∨
    (¬ IllegalOpcode v ∧ v &&& ~~~openBits v ≠ 0 ∧ decode v = .error .reservedField) ∨
    (¬ IllegalOpcode v ∧ ∃ i, decode v = .ok i ∧ encode i = v) := by
  by_cases hl : IllegalOpcode v
  · exact .inl ⟨hl, decode_illegal hl⟩
  by_cases hr : v &&& ~~~openBits v = 0
  · obtain ⟨i, hi⟩ := commandOf_ok hl
    exact .inr (.inr ⟨hl, i, (decode_command hl hr).trans hi,
      (encode_of_commandOf hi).trans (and_eq_self_of_and_not_eq_zero hr)⟩)
  · exact .inr (.inl ⟨hl, hr, decode_reserved hl hr⟩)

/-- A word that decodes has no reserved bit (30 R94, R97). -/
theorem encode_of_decode (h : decode v = .ok i) : encode i = v := by
  rcases decode_trichotomy v with ⟨_, hd⟩ | ⟨_, _, hd⟩ | ⟨_, j, hd, hv⟩ <;> rw [hd] at h <;> cases h
  exact hv

/-! ### The rows of the opcode table -/

theorem tableMask_eq_not_freeBits (i : Instr) : i.tableMask = ~~~ freeBits (i.tableMatch.extractLsb' 0 8) := by
  cases i <;> simp only [Instr.tableMask, Instr.tableMatch] <;> decide

theorem tableMask_opcode (i : Instr) : i.tableMask.extractLsb' 0 8 = BitVec.allOnes 8 := by
  cases i <;> simp only [Instr.tableMask] <;> decide

theorem tableMatch_and_not_opcode (i : Instr) : i.tableMatch &&& ~~~0x000000FF#32 = 0 := by
  cases i <;> simp only [Instr.tableMatch] <;> decide

/-- A word in a command's row has no reserved bit set (30 R94). -/
theorem reserved_eq_zero_of_row (h : v &&& i.tableMask = i.tableMatch) :
    v &&& ~~~openBits v = 0 := by
  have hopc : v.extractLsb' 0 8 = i.tableMatch.extractLsb' 0 8 := by
    rw [← h, BitVec.extractLsb'_and, tableMask_opcode, BitVec.and_allOnes]
  rw [openBits, hopc, BitVec.not_or, ← tableMask_eq_not_freeBits, BitVec.and_comm (~~~_), ← BitVec.and_assoc, h,
    tableMatch_and_not_opcode]

/-- The word of a command, with any operand, is in the command's row (30 R94). -/
theorem encode_row (i : Instr) : encode i &&& i.tableMask = i.tableMatch := by
  cases i with
  | ilvGen len => exact Laws.TableRow.ilvGen len
  | convReset sel => exact Laws.TableRow.convReset sel
  | convParity sel bit => exact Laws.TableRow.convParity sel bit
  | turboEnc => exact Laws.TableRow.turboEnc
  | pack => exact Laws.TableRow.pack
  | unpack => exact Laws.TableRow.unpack
  | rsEnc => exact Laws.TableRow.rsEnc
  | rsDec => exact Laws.TableRow.rsDec
  | frameP => exact Laws.TableRow.frameP
  | frameW => exact Laws.TableRow.frameW
  | parse => exact Laws.TableRow.parse
  | txDone tag ok => exact Laws.TableRow.txDone tag ok

theorem row_of_decode (h : decode v = .ok i) : v &&& i.tableMask = i.tableMatch := by
  rw [← encode_of_decode h, encode_row]

/-! ### The two errors -/

theorem decode_eq_illegalOpcode_iff : decode v = .error .illegalOpcode ↔ IllegalOpcode v := by
  rcases decode_trichotomy v with ⟨hl, hd⟩ | ⟨hl, _, hd⟩ | ⟨hl, _, hd, _⟩ <;> simp [hd, hl]

/-- A legal word without a reserved bit is in its command's row, and one with a reserved bit in none. -/
theorem decode_eq_reservedField_iff :
    decode v = .error .reservedField ↔ ¬ IllegalOpcode v ∧ ∀ i : Instr, v &&& i.tableMask ≠ i.tableMatch := by
  rcases decode_trichotomy v with ⟨hl, hd⟩ | ⟨hl, hr, hd⟩ | ⟨_, i, hd, _⟩
  · simp [hd, hl]
  · exact iff_of_true hd ⟨hl, fun _ hrow => hr (reserved_eq_zero_of_row hrow)⟩
  · exact iff_of_false (by simp [hd]) fun ⟨_, hnone⟩ => hnone i (row_of_decode hd)

theorem illegalOpcode_iff :
    IllegalOpcode v ↔ v.extractLsb' 0 8 = (0x00 : Byte) ∨ (0x0D : Byte) ≤ v.extractLsb' 0 8 := by
  unfold IllegalOpcode
  bv_omega

theorem not_illegalOpcode_iff :
    ¬ IllegalOpcode v ↔ (0x01 : Byte) ≤ v.extractLsb' 0 8 ∧ v.extractLsb' 0 8 ≤ (0x0C : Byte) := by
  unfold IllegalOpcode
  bv_omega

end

end Sys2Proof
end

section
/-!
PROOFS. O1 to O4: the words of the commands, the words that are no command, and the words of the syntax table
(30 R90–R98).
-/

namespace Sys2Proof

/-- Settles O1: by command; the operands of one or two bits are tried, and IMM16 is read back from its field. -/
theorem encodedCommandsDecodeToThemselves : Obligations.EncodedCommandsDecodeToThemselves := decode_encode

/-- Settles O2: the command's word has the word's opcode and free bits, and a word that decodes has no others. -/
theorem decodedWordsEncodeToThemselves : Obligations.DecodedWordsEncodeToThemselves := fun _ _ => encode_of_decode

/-- Settles O3: by the three kinds of words. -/
theorem everyWordIsCommandIllegalOrReserved : Obligations.EveryWordIsCommandIllegalOrReserved := by
  intro v
  refine ⟨decode_eq_illegalOpcode_iff.trans illegalOpcode_iff,
    decode_eq_reservedField_iff.trans (and_congr_left' not_illegalOpcode_iff), fun _ => row_of_decode,
    fun h => ?_, fun h => ?_⟩
  · rcases decode_error h with he | he <;> cases he
  · rcases decode_error h with he | he <;> cases he

/-- Settles O4: each word is the one the encoder gives its command. -/
theorem syntaxTableWordsDecode : Obligations.SyntaxTableWordsDecode :=
  ⟨decode_encode (.ilvGen 8), decode_encode (.ilvGen 65535), decode_encode (.convReset .a),
    decode_encode (.convReset .b), decode_encode (.convParity .a 1), decode_encode (.convParity .b 0),
    decode_encode .turboEnc, decode_encode .pack, decode_encode .unpack, decode_encode .rsEnc, decode_encode .rsDec,
    decode_encode .frameP, decode_encode .frameW, decode_encode .parse, decode_encode (.txDone .w 1),
    decode_encode (.txDone .p 1)⟩

end Sys2Proof
end

section
/-!
PROOFS. O23 and O24: the reference generator's trace for L = 8 (40 R120, R124), and the permutation ILV_GEN stores
(40 R122).
-/

namespace Sys2Proof.Machine

/-- Every value of a permutation of [0, L) is below a 16-bit L, so PERM holds it without loss. -/
theorem State.toNat_permAt_storePerm (s : State) {p : List Nat} {len : Half} (h : p.Perm (List.range len.toNat))
    {k : Nat} (hk : k < len.toNat) : ((s.storePerm p len).permAt k).toNat = p.getD k 0 := by
  have hkp : k < p.length := by simpa [h.length_eq] using hk
  have hfit : p[k] < len.toNat := List.mem_range.1 (h.mem_iff.1 (List.getElem_mem hkp))
  rw [s.permAt_storePerm len hkp, BitVec.toNat_ofNat, Nat.mod_eq_of_lt (hfit.trans len.isLt),
    List.getD_eq_getElem _ _ hkp]

theorem State.permAt_storePerm_of_length_le (s : State) {p : List Nat} (len : Half) {k : Nat} (hk : p.length ≤ k) :
    (s.storePerm p len).permAt k = s.permAt k := by
  have hwrite : (s.storePerm p len).permAt k = (s.writePerm 0 (p.map (BitVec.ofNat 16))).permAt k :=
    State.permAt_congr rfl rfl k
  simp [hwrite, State.permAt_writePerm, Nat.not_lt.2 hk]

/-- STATUS is no part of PERM. -/
@[simp] theorem State.permAt_finish (s : State) (st : Status) (k : Nat) : (s.finish st).permAt k = s.permAt k :=
  State.permAt_congr rfl rfl k

end Sys2Proof.Machine

namespace Sys2Proof

open Machine

/-- Settles O23: seven draws and seven swaps, computed. -/
theorem referenceInterleaverTraceOfEight : Obligations.ReferenceInterleaverTraceOfEight := by
  refine ⟨?trace, ?permutation⟩
  case trace => decide
  case permutation => decide

/-- Settles O24: ILV_GEN stores the generator's list, which is a permutation of [0, L) and so has L values below L. -/
theorem ilvGenStoresThePermutation : Obligations.IlvGenStoresThePermutation := by
  intro s len
  have hperm : (ilvPerm len.toNat).Perm (List.range len.toNat) := ilvPerm_perm_range len.toNat
  refine ⟨s.ilvGen standardConfig len, exec_ilvGen s len, fun k hk => ?stored, fun k hk => ?kept, rfl, rfl, rfl⟩
  case stored =>
    rw [State.ilvGen, State.permAt_finish]
    exact s.toNat_permAt_storePerm hperm hk
  case kept =>
    have hlen : (ilvPerm len.toNat).length ≤ k := by simpa [hperm.length_eq] using hk
    rw [State.ilvGen, State.permAt_finish]
    exact s.permAt_storePerm_of_length_le len hlen

end Sys2Proof
end

section
/-!
SUPPORT. One step of an encoder: the bits of the working value, each reading of a term as a number, and the closed
forms of the parity bit and of the next state (41 R141–R143).
-/

namespace Sys2Proof.Machine

/-! ### The working value {S, b} -/

@[simp] theorem workingValue_extractLsb'_zero (st : BitVec 3) (b : Bit) : (workingValue st b).extractLsb' 0 1 = b :=
  BitVec.extractLsb'_append_eq_right

@[simp] theorem workingValue_extractLsb'_succ (st : BitVec 3) (b : Bit) (i : Nat) :
    (workingValue st b).extractLsb' (i + 1) 1 = st.extractLsb' i 1 :=
  BitVec.extractLsb'_append_eq_of_le (Nat.le_add_left 1 i)

/-! ### The parity bit and its terms as numbers -/

theorem toNat_xor_bit (a b : Bit) : (a ^^^ b).toNat = (a.toNat + b.toNat) % 2 := by
  revert a b
  decide

theorem toNat_extractLsb'_one {n : Nat} (x : BitVec n) (i : Nat) :
    (x.extractLsb' i 1).toNat = if x.getLsbD i then 1 else 0 := by
  calc (x.extractLsb' i 1).toNat = x.toNat / 2 ^ i % 2 := by
        rw [BitVec.extractLsb'_toNat, Nat.shiftRight_eq_div_pow, pow_one]
    _ = (x.getLsbD i).toNat := (Nat.toNat_testBit x.toNat i).symm
    _ = if x.getLsbD i then 1 else 0 := Bool.cond_eq_ite ..

theorem toNat_xorOfBits (t : Byte) : (xorOfBits t).toNat = (List.range 8).countP (fun j => t.getLsbD j) % 2 := by
  simp only [xorOfBits, toNat_xor_bit, toNat_extractLsb'_one, List.range, List.range.loop, List.countP_cons,
    List.countP_nil]
  omega

theorem toNat_reduceTerm_nonZero (i : Nat) (t : Byte) :
    (reduceTerm .nonZero i t).toNat = if t = 0 then 0 else 1 := by
  rw [reduceTerm, ite_not]
  split <;> rfl

theorem toNat_convParityBit (reading : ParityReading) (g w : BitVec 4) : (convParityBit reading g w).toNat =
    ((reduceTerm reading 0 (convTerm g w 0)).toNat + (reduceTerm reading 1 (convTerm g w 1)).toNat +
      (reduceTerm reading 2 (convTerm g w 2)).toNat + (reduceTerm reading 3 (convTerm g w 3)).toNat) % 2 := by
  simp only [convParityBit, toNat_xor_bit]
  omega

/-! ### Closed forms -/

/-- Encoder A's taps under XORBITS are 0b1001 (41 R143). -/
theorem convParityBit_xorBits_polyA (w : BitVec 4) :
    convParityBit .xorBits polyA w = w.extractLsb' 0 1 ^^^ w.extractLsb' 3 1 := by
  revert w
  decide

/-- Encoder B's taps under XORBITS are 0b0101 (41 R143). -/
theorem convParityBit_xorBits_polyB (w : BitVec 4) :
    convParityBit .xorBits polyB w = w.extractLsb' 0 1 ^^^ w.extractLsb' 2 1 := by
  revert w
  decide

/-- Bit i of term i is bit i of the working value under bit 0 of the polynomial (41 R142, BITI). -/
theorem reduceTerm_bitI_convTerm (g w : BitVec 4) (i : Nat) (hi : i < 4) :
    reduceTerm .bitI i (convTerm g w i) = w.extractLsb' i 1 &&& g.extractLsb' 0 1 := by
  ext j hj
  obtain rfl : j = 0 := by omega
  have hi8 : i < 8 := by omega
  simp [reduceTerm, convTerm, hi8]

theorem convParityBit_bitI {g : BitVec 4} (hg : g.extractLsb' 0 1 = 1) (w : BitVec 4) : convParityBit .bitI g w =
    w.extractLsb' 0 1 ^^^ w.extractLsb' 1 1 ^^^ w.extractLsb' 2 1 ^^^ w.extractLsb' 3 1 := by
  have term (i : Nat) (hi : i < 4) : reduceTerm .bitI i (convTerm g w i) = w.extractLsb' i 1 := by
    rw [reduceTerm_bitI_convTerm g w i hi, hg]
    exact BitVec.and_allOnes
  simp only [convParityBit, term, Nat.reduceLT]

theorem convStep_fst_xorBits_polyA (st : BitVec 3) (b : Bit) :
    (convStep .xorBits st polyA b).1 = b ^^^ st.extractLsb' 2 1 := by
  simp [convStep, convParityBit_xorBits_polyA]

theorem convStep_fst_xorBits_polyB (st : BitVec 3) (b : Bit) :
    (convStep .xorBits st polyB b).1 = b ^^^ st.extractLsb' 1 1 := by
  simp [convStep, convParityBit_xorBits_polyB]

theorem convStep_fst_bitI {g : BitVec 4} (hg : g.extractLsb' 0 1 = 1) (st : BitVec 3) (b : Bit) :
    (convStep .bitI st g b).1 = b ^^^ st.extractLsb' 0 1 ^^^ st.extractLsb' 1 1 ^^^ st.extractLsb' 2 1 := by
  simp [convStep, convParityBit_bitI hg]

/-- The next state shifts the bit in, whatever the reading and the polynomial (41 R141). -/
theorem convStep_snd (reading : ParityReading) (st : BitVec 3) (g : BitVec 4) (b : Bit) :
    (convStep reading st g b).2 = st.extractLsb' 0 2 ++ b := by
  calc (convStep reading st g b).2 = (st ++ b).setWidth (2 + 1) := rfl
    _ = st.setWidth 2 ++ b.setWidth 1 := BitVec.setWidth_append_of_eq rfl
    _ = st.extractLsb' 0 2 ++ b := by rw [BitVec.setWidth_eq_extractLsb' (by decide), BitVec.setWidth_eq]

end Sys2Proof.Machine
end

section
/-!
SUPPORT. An encoder fed a sequence from state 0: its state is the last three bits, and each parity bit is that of one
step from the state so far (41 R146).
-/

namespace Sys2Proof.Machine

/-- `u[n - k]` of a sequence u that is 0 before its start (41 R146). -/
def delayedBit (u : List Bit) (n k : Nat) : Bit := if k ≤ n then u.getD (n - k) 0 else 0

@[simp] theorem delayedBit_zero (u : List Bit) (n : Nat) : delayedBit u n 0 = u.getD n 0 := rfl

@[simp] theorem delayedBit_succ_succ (u : List Bit) (n k : Nat) : delayedBit u (n + 1) (k + 1) = delayedBit u n k := by
  simp [delayedBit]

theorem convParities_getD (reading : ParityReading) (g : BitVec 4) (st : BitVec 3) {u : List Bit} {n : Nat}
    (h : n < u.length) : (convParities reading g st u).getD n 0 =
      (convStep reading (convFinal reading g st (u.take n)) g (u.getD n 0)).1 := by
  induction u generalizing st n with
  | nil => cases h
  | cons b u ih =>
    cases n with
    | zero => rfl
    | succ n => exact ih _ (Nat.lt_of_succ_lt_succ h)

/-! ### The bits of a state {x, y, z} -/

section

variable (x y z : Bit)

theorem extractLsb'_append_append_low : (x ++ y ++ z).extractLsb' 0 2 = y ++ z := by
  revert x y z
  decide

theorem extractLsb'_append_append_one : (x ++ y ++ z).extractLsb' 1 1 = y :=
  (BitVec.extractLsb'_append_eq_of_le le_rfl).trans BitVec.extractLsb'_append_eq_right

theorem extractLsb'_append_append_two : (x ++ y ++ z).extractLsb' 2 1 = x :=
  (BitVec.extractLsb'_append_eq_of_le (by decide)).trans BitVec.extractLsb'_append_eq_left

end

/-- The state before step n is {u[n-3], u[n-2], u[n-1]} (41 R146). -/
theorem convFinal_take (reading : ParityReading) (g : BitVec 4) {u : List Bit} {n : Nat} (h : n ≤ u.length) :
    convFinal reading g 0 (u.take n) = delayedBit u n 3 ++ delayedBit u n 2 ++ delayedBit u n 1 := by
  induction n with
  | zero =>
    simp [delayedBit]
  | succ n ih =>
    rw [List.take_succ_eq_append_getElem h, ← List.getD_eq_getElem u 0 h, convFinal_append, ih (Nat.le_of_succ_le h),
      convFinal_cons, convFinal_nil, convStep_snd, extractLsb'_append_append_low]
    simp

/-- Encoder A's parity takes u[n-3] from the oldest bit of its state (41 R146). -/
theorem convParities_polyA_getD {u : List Bit} {n : Nat} (h : n < u.length) :
    (convParities .xorBits polyA 0 u).getD n 0 = u.getD n 0 ^^^ delayedBit u n 3 := by
  rw [convParities_getD _ _ _ h, convStep_fst_xorBits_polyA, convFinal_take _ _ h.le,
    extractLsb'_append_append_two]

/-- Encoder B's parity takes u[n-2] from the middle bit of its state (41 R146). -/
theorem convParities_polyB_getD {u : List Bit} {n : Nat} (h : n < u.length) :
    (convParities .xorBits polyB 0 u).getD n 0 = u.getD n 0 ^^^ delayedBit u n 2 := by
  rw [convParities_getD _ _ _ h, convStep_fst_xorBits_polyB, convFinal_take _ _ h.le,
    extractLsb'_append_append_one]

end Sys2Proof.Machine
end

section
/-!
PROOFS. O26 to O30: the step of an encoder, CONV_RESET, CONV_PARITY, and an encoder fed a sequence (41 R140–R146).
-/

namespace Sys2Proof.Machine

theorem State.convParity_a (s : State) (bit : Bit) : s.convParity standardConfig .a bit = { s with
    sa := s.sa.extractLsb' 0 2 ++ bit, parity := bit ^^^ s.sa.extractLsb' 2 1, status := Status.ok } := by
  rw [← convStep_snd .xorBits s.sa polyA bit, ← convStep_fst_xorBits_polyA]
  rfl

theorem State.convParity_b (s : State) (bit : Bit) : s.convParity standardConfig .b bit = { s with
    sb := s.sb.extractLsb' 0 2 ++ bit, parity := bit ^^^ s.sb.extractLsb' 1 1, status := Status.ok } := by
  rw [← convStep_snd .xorBits s.sb polyB bit, ← convStep_fst_xorBits_polyB]
  rfl

/-- Settles O26: the parity bit is the sum modulo 2 of its four terms, and each reading of a term is its number. -/
theorem convStepFollowsTheParityReadings : Obligations.ConvStepFollowsTheParityReadings := by
  refine ⟨rfl, fun reading st g b => ⟨(toNat_convParityBit reading g _).trans ?parity, ?state⟩⟩
  case state => exact BitVec.setWidth_eq_extractLsb' (x := st ++ b) (by decide)
  case parity =>
    cases reading with
    | xorBits =>
      simp only [reduceTerm, toNat_xorOfBits]
      rfl
    | nonZero =>
      simp only [toNat_reduceTerm_nonZero]
      rfl
    | bitI =>
      simp only [reduceTerm, toNat_extractLsb'_one]
      rfl

/-- Settles O27: both polynomials have g[0] = 1, which BITI asks for. -/
theorem convStepHasItsClosedForms : Obligations.ConvStepHasItsClosedForms := by
  refine fun st b => ⟨convStep_fst_xorBits_polyA st b, convStep_fst_xorBits_polyB st b, fun g hg => ?_,
    fun reading g => convStep_snd reading st g b⟩
  rcases hg with rfl | rfl
  · exact convStep_fst_bitI (by decide) st b
  · exact convStep_fst_bitI (by decide) st b

/-- Settles O28: the state after step n is the one before step n + 1. -/
theorem encoderSequencesHaveTheirClosedForms : Obligations.EncoderSequencesHaveTheirClosedForms := by
  refine fun u n hn => ⟨convParities_polyA_getD hn, convParities_polyB_getD hn, fun reading g => ?_⟩
  rw [convFinal_take reading g hn]
  simp only [delayedBit_succ_succ]
  rfl

/-- Settles O29: each encoder's `State.convReset` is that update. -/
theorem convResetClearsOneEncoder : Obligations.ConvResetClearsOneEncoder := fun s =>
  ⟨exec_convReset s .a, exec_convReset s .b⟩

/-- Settles O30: by encoder, with the step's closed forms. -/
theorem convParityStepsOneEncoder : Obligations.ConvParityStepsOneEncoder := fun s bit =>
  ⟨congrArg Host.Outcome.next (s.convParity_a bit), congrArg Host.Outcome.next (s.convParity_b bit)⟩

end Sys2Proof.Machine
end

section
/-!
SUPPORT. TURBO_ENC of a text whose codeword fits BIT_LEN: the two bit sequences the encoders are fed, and what
`State.turboStore` leaves in BITMEM, BIT_LEN, PERM, PERM_LEN and the encoder states (42 R160–R162).
-/

namespace Sys2Proof.Machine

/-! ### The sequences the encoders are fed -/

/-- The bit sequence u of the text of n bytes in IN (42 R160), which encoder A is fed. -/
def State.textSeq (s : State) (n : Nat) : List Bit := textBits (s.inBytes n)

/-- The bit sequence of the text in the interleaver's order, which encoder B is fed (42 R161, step 4). -/
def State.interleavedSeq (cfg : Config) (s : State) (n : Nat) : List Bit :=
  permuteBits (s.textSeq n) (cfg.ilvFn (8 * n))

section

variable {cfg : Config} {s : State} {n : Nat}

@[simp] theorem State.textSeq_length (s : State) (n : Nat) : (s.textSeq n).length = 8 * n := by
  simp [State.textSeq]

theorem State.textSeq_getD (s : State) {i : Nat} (hi : i < 8 * n) : (s.textSeq n).getD i 0 = s.textBit i := by
  rw [State.textSeq, textBits_getD _ (by simpa using hi), s.inBytes_getD _ (by omega), State.textBit]

/-- The sequence depends on the bytes of the text alone. -/
theorem State.textSeq_congr {s₁ s₂ : State} (h : ∀ k, k < n → s₁.inAt k = s₂.inAt k) :
    s₁.textSeq n = s₂.textSeq n :=
  congrArg textBits (List.map_congr_left fun k hk => h k (List.mem_range.1 hk))

theorem getD_lt_of_perm_range {p : List Nat} {m i : Nat} (h : p.Perm (List.range m)) (hi : i < m) :
    p.getD i 0 < m := by
  have hip : i < p.length := by simpa [h.length_eq] using hi
  rw [List.getD_eq_getElem _ _ hip]
  exact List.mem_range.1 (h.mem_iff.1 (List.getElem_mem hip))

section

variable (hperm : (cfg.ilvFn (8 * n)).Perm (List.range (8 * n)))
include hperm

theorem State.interleavedSeq_length (s : State) : (s.interleavedSeq cfg n).length = 8 * n := by
  simp [State.interleavedSeq, hperm.length_eq]

theorem State.interleavedSeq_getD (s : State) {i : Nat} (hi : i < 8 * n) :
    (s.interleavedSeq cfg n).getD i 0 = s.textBit ((cfg.ilvFn (8 * n)).getD i 0) := by
  rw [State.interleavedSeq, permuteBits_getD _ (by simpa [hperm.length_eq] using hi),
    s.textSeq_getD (getD_lt_of_perm_range hperm hi)]

end

/-! ### Encoders fed a sequence with known bits (41 R146) -/

section

variable {u : List Bit} {f : Nat → Bit} (hu : ∀ j, j < u.length → u.getD j 0 = f j)
include hu

theorem delayedBit_eq_ite {i k : Nat} (hi : i - k < u.length) :
    delayedBit u i k = if k ≤ i then f (i - k) else 0 := by
  rw [delayedBit, hu _ hi]

/-- The final state is the last three bits. -/
theorem convFinal_eq_last_three (reading : ParityReading) (g : BitVec 4) (h : 3 ≤ u.length) :
    convFinal reading g 0 u = f (u.length - 3) ++ f (u.length - 2) ++ f (u.length - 1) := by
  have last (k : Nat) (hk : 0 < k) (hk3 : k ≤ 3) : delayedBit u u.length k = f (u.length - k) := by
    rw [delayedBit_eq_ite hu (by omega), if_pos (hk3.trans h)]
  conv_lhs => rw [← List.take_length (l := u), convFinal_take reading g le_rfl]
  rw [last 3 (by decide) (by decide), last 2 (by decide) (by decide), last 1 (by decide) (by decide)]

end

/-! ### The length check -/

theorem State.turboEnc_of_lt (h : cfg.turboMaxText < s.inLen.toNat) : s.turboEnc cfg = s.raise .length :=
  if_pos h

theorem State.turboEnc_of_le (h : s.inLen.toNat ≤ cfg.turboMaxText) :
    s.turboEnc cfg = s.turboStore cfg s.inLen.toNat :=
  if_neg h.not_gt

/-! ### What the command leaves -/

@[simp] theorem State.turboStore_status (cfg : Config) (s : State) (n : Nat) :
    (s.turboStore cfg n).status = Status.ok := rfl

@[simp] theorem State.turboStore_sa (cfg : Config) (s : State) (n : Nat) :
    (s.turboStore cfg n).sa = convFinal cfg.parityReading polyA 0 (s.textSeq n) := rfl

@[simp] theorem State.turboStore_sb (cfg : Config) (s : State) (n : Nat) :
    (s.turboStore cfg n).sb = convFinal cfg.parityReading polyB 0 (s.interleavedSeq cfg n) := rfl

/-- The start states of the encoders are no input (42 R162). -/
theorem State.turboStore_of_encoders (cfg : Config) (s : State) (n : Nat) (a b : BitVec 3) :
    ({ s with sa := a, sb := b } : State).turboStore cfg n = s.turboStore cfg n := rfl

theorem State.toNat_bitLen_turboStore (cfg : Config) (s : State) (hn : 24 * n ≤ 65535) :
    (s.turboStore cfg n).bitLen.toNat = 24 * n := by
  have hlen : (s.turboStore cfg n).bitLen.toNat = 3 * (8 * n) % 2 ^ 16 := BitVec.toNat_ofNat ..
  omega

/-- The number of bits of a text is stored in PERM_LEN without loss. -/
theorem toNat_ofNat_bitCount (hn : 24 * n ≤ 65535) : (BitVec.ofNat 16 (8 * n)).toNat = 8 * n := by
  rw [BitVec.toNat_ofNat]
  omega

theorem State.toNat_permLen_turboStore (cfg : Config) (s : State) (hn : 24 * n ≤ 65535) :
    (s.turboStore cfg n).permLen.toNat = 8 * n :=
  toNat_ofNat_bitCount hn

theorem State.permAt_turboStore (cfg : Config) (s : State) (n k : Nat) : (s.turboStore cfg n).permAt k =
    (s.storePerm (cfg.ilvFn (8 * n)) (BitVec.ofNat 16 (8 * n))).permAt k :=
  State.permAt_congr rfl rfl k

theorem State.bitAt_turboStore (cfg : Config) (s : State) (n j : Nat) : (s.turboStore cfg n).bitAt j =
    (s.writeBits 0 (turboCodeword cfg (s.textSeq n) (cfg.ilvFn (8 * n)))).bitAt j :=
  State.bitAt_congr rfl rfl j

section

variable (hperm : (cfg.ilvFn (8 * n)).Perm (List.range (8 * n)))
include hperm

/-- 24 bits per byte of text (42 R163). -/
theorem State.turboCodeword_textSeq_length (s : State) :
    (turboCodeword cfg (s.textSeq n) (cfg.ilvFn (8 * n))).length = 24 * n := by
  rw [turboCodeword_length _ _ (by simp [hperm.length_eq]), State.textSeq_length]
  omega

theorem State.bitAt_turboStore_of_lt (s : State) {j : Nat} (hj : j < 24 * n) : (s.turboStore cfg n).bitAt j =
    (turboCodeword cfg (s.textSeq n) (cfg.ilvFn (8 * n))).getD j 0 := by
  rw [s.bitAt_turboStore, State.bitAt_writeBits, s.turboCodeword_textSeq_length hperm, if_pos (by omega), Nat.sub_zero]

theorem State.bitAt_turboStore_of_le (s : State) {j : Nat} (hj : 24 * n ≤ j) :
    (s.turboStore cfg n).bitAt j = s.bitAt j := by
  rw [s.bitAt_turboStore, State.bitAt_writeBits, s.turboCodeword_textSeq_length hperm, if_neg (by omega)]

/-- BITMEM holds a triple of each text bit and its two parities, in the text's order (42 R161, step 6). -/
theorem State.bitAt_turboStore_triple (s : State) {i : Nat} (hi : i < 8 * n) :
    (s.turboStore cfg n).bitAt (3 * i) = s.textBit i ∧
      (s.turboStore cfg n).bitAt (3 * i + 1) =
        (convParities cfg.parityReading polyA 0 (s.textSeq n)).getD i 0 ∧
      (s.turboStore cfg n).bitAt (3 * i + 2) =
        (convParities cfg.parityReading polyB 0 (s.interleavedSeq cfg n)).getD i 0 := by
  rw [s.bitAt_turboStore_of_lt hperm (by omega), s.bitAt_turboStore_of_lt hperm (by omega),
    s.bitAt_turboStore_of_lt hperm (by omega), ← s.textSeq_getD hi]
  exact triples_getD (by simp) (by simp [hperm.length_eq]) (by simpa using hi)

theorem State.permAt_turboStore_of_le (s : State) {k : Nat} (hk : 8 * n ≤ k) :
    (s.turboStore cfg n).permAt k = s.permAt k := by
  rw [s.permAt_turboStore, s.permAt_storePerm_of_length_le _ (by simpa [hperm.length_eq] using hk)]

theorem State.toNat_permAt_turboStore (s : State) (hn : 24 * n ≤ 65535) {k : Nat} (hk : k < 8 * n) :
    ((s.turboStore cfg n).permAt k).toNat = (cfg.ilvFn (8 * n)).getD k 0 := by
  rw [← toNat_ofNat_bitCount hn] at hk
  rw [s.permAt_turboStore, s.toNat_permAt_storePerm (by rwa [toNat_ofNat_bitCount hn]) hk]

theorem State.turboStore_permValid (s : State) (hn : 24 * n ≤ 65535) : (s.turboStore cfg n).permValid :=
  have stored : (s.storePerm (cfg.ilvFn (8 * n)) (BitVec.ofNat 16 (8 * n))).permValid :=
    s.storePerm_permValid (by rwa [toNat_ofNat_bitCount hn])
  State.permValid_congr rfl rfl rfl stored

end

end

end Sys2Proof.Machine
end

section
/-!
PROOFS. O32 to O34: the codeword of TURBO_ENC, that it depends on the text alone, and its laws under every admissible
interleaver (42 R161–R165).
-/

namespace Sys2Proof.Machine

/-- The longest codeword fits the 16-bit BIT_LEN (42 R161). -/
theorem Config.codeword_fits_bitLen {cfg : Config} (h : cfg.wf = true) : 24 * cfg.turboMaxText ≤ 65535 := by
  simp only [Config.wf, Config.turboFits, Bool.and_eq_true, decide_eq_true_eq, and_assoc] at h
  exact h.1

/-- Settles O32: each parity of the triple and each final state is the closed form of an encoder fed its sequence. -/
theorem turboEncWritesTheCodeword : Obligations.TurboEncWritesTheCodeword := by
  refine ⟨fun s hs => congrArg Host.Outcome.next (State.turboEnc_of_lt hs), fun s hs => ?_⟩
  intro n p u
  have hn : 24 * n ≤ 65535 := by omega
  have hperm : (standardConfig.ilvFn (8 * n)).Perm (List.range (8 * n)) := ilvPerm_perm_range _
  have hA : (s.textSeq n).length = 8 * n := s.textSeq_length n
  have hB : (s.interleavedSeq standardConfig n).length = 8 * n := s.interleavedSeq_length hperm
  have bitA : ∀ j, j < (s.textSeq n).length → (s.textSeq n).getD j 0 = u j :=
    fun j hj => s.textSeq_getD (hA ▸ hj)
  have bitB : ∀ j, j < (s.interleavedSeq standardConfig n).length →
      (s.interleavedSeq standardConfig n).getD j 0 = u (p j) :=
    fun j hj => s.interleavedSeq_getD hperm (hB ▸ hj)
  refine ⟨s.turboStore standardConfig n, congrArg Host.Outcome.next (State.turboEnc_of_le hs),
    fun i hi => ?triple, fun j hj => s.bitAt_turboStore_of_le hperm hj, s.toNat_bitLen_turboStore _ hn,
    fun k hk => s.toNat_permAt_turboStore hperm hn hk, fun k hk => s.permAt_turboStore_of_le hperm hk,
    s.toNat_permLen_turboStore _ hn, fun h0 => ?startStates, fun hpos => ?finalStates, s.turboStore_status _ n,
    rfl⟩
  case triple =>
    obtain ⟨systematic, parity1, parity2⟩ := s.bitAt_turboStore_triple hperm hi
    refine ⟨systematic, parity1.trans ?_, parity2.trans ?_⟩
    · exact (convParities_polyA_getD (hA ▸ hi)).trans
        (congrArg₂ _ (bitA i (hA ▸ hi)) (delayedBit_eq_ite bitA (by omega)))
    · exact (convParities_polyB_getD (hB ▸ hi)).trans
        (congrArg₂ _ (bitB i (hB ▸ hi)) (delayedBit_eq_ite bitB (by omega)))
  case startStates =>
    rw [State.turboStore_sa, State.turboStore_sb, List.eq_nil_of_length_eq_zero (hA.trans (by omega)),
      List.eq_nil_of_length_eq_zero (hB.trans (by omega))]
    exact ⟨rfl, rfl⟩
  case finalStates =>
    rw [State.turboStore_sa, State.turboStore_sb, convFinal_eq_last_three bitA _ _ (by omega),
      convFinal_eq_last_three bitB _ _ (by omega), hA, hB]
    exact ⟨rfl, rfl⟩

/-- Settles O33: everything the command writes is built from the text's bit sequence and the generator's list. -/
theorem turboEncDependsOnItsTextOnly : Obligations.TurboEncDependsOnItsTextOnly := by
  intro s₁ s₂ hlen hle htext
  obtain ⟨n, hn⟩ : ∃ n, s₁.inLen.toNat = n := ⟨_, rfl⟩
  have hfit : 24 * n ≤ 65535 := by omega
  have hperm : (standardConfig.ilvFn (8 * n)).Perm (List.range (8 * n)) := ilvPerm_perm_range _
  have hseq : s₁.textSeq n = s₂.textSeq n := State.textSeq_congr (hn ▸ htext)
  have run (s : State) (hs : s.inLen.toNat = n) : exec .turboEnc s = .next (s.turboStore standardConfig n) := by
    rw [exec_turboEnc, State.turboEnc_of_le (show s.inLen.toNat ≤ 2730 by omega), hs]
  refine ⟨_, _, run s₁ hn, run s₂ (hlen ▸ hn), rfl, fun j hj => ?codeword, rfl, fun k hk => ?permutation, ?sa, ?sb⟩
  case codeword =>
    rw [s₁.toNat_bitLen_turboStore _ hfit] at hj
    rw [s₁.bitAt_turboStore_of_lt hperm hj, s₂.bitAt_turboStore_of_lt hperm hj, hseq]
  case permutation =>
    rw [s₁.toNat_permLen_turboStore _ hfit] at hk
    apply BitVec.eq_of_toNat_eq
    rw [s₁.toNat_permAt_turboStore hperm hfit hk, s₂.toNat_permAt_turboStore hperm hfit hk]
  case sa => rw [State.turboStore_sa, State.turboStore_sa, hseq]
  case sb => rw [State.turboStore_sb, State.turboStore_sb, State.interleavedSeq, State.interleavedSeq, hseq]

/-- Settles O34: a well-formed configuration bounds the codeword by a 16-bit BIT_LEN, so no length or index wraps. -/
theorem turboLawsHoldForEveryAdmissibleInterleaver : Obligations.TurboLawsHoldForEveryAdmissibleInterleaver := by
  intro cfg s hwf hilv hle n t
  have hfit : 24 * n ≤ 65535 := (Nat.mul_le_mul_left 24 hle).trans (Config.codeword_fits_bitLen hwf)
  have hperm : (cfg.ilvFn (8 * n)).Perm (List.range (8 * n)) := hilv _ (by omega)
  have ht : t = s.turboStore cfg n := State.turboEnc_of_le hle
  have hpermLen : t.permLen.toNat = 8 * n := ht ▸ s.toNat_permLen_turboStore cfg hfit
  refine ⟨ht ▸ s.turboStore_status cfg n, ht ▸ s.toNat_bitLen_turboStore cfg hfit, fun i hi => ?systematic, ?permutation,
    hpermLen, fun sa sb => ?encoders⟩
  case systematic =>
    rw [ht]
    exact (s.bitAt_turboStore_triple hperm hi).1
  case permutation =>
    have hvalid : t.permValid := ht ▸ s.turboStore_permValid hperm hfit
    rwa [State.permValid, hpermLen] at hvalid
  case encoders =>
    calc ({ s with sa := sa, sb := sb } : State).turboEnc cfg
        = ({ s with sa := sa, sb := sb } : State).turboStore cfg n := State.turboEnc_of_le hle
      _ = s.turboStore cfg n := s.turboStore_of_encoders cfg n sa sb
      _ = t := ht.symm

end Sys2Proof.Machine
end

section
/-!
SUPPORT. What PACK leaves in OUT and OUT_LEN and UNPACK leaves in BITMEM, element by element (43 R180–R183).
-/

namespace Sys2Proof.Machine

/-! ### The bytes that hold a number of bits (00 R9) -/

theorem le_eight_mul_ceil8 (n : Nat) : n ≤ 8 * ceil8 n := by
  unfold ceil8
  omega

/-- The byte of a bit is among the bytes that hold the sequence. -/
theorem div_eight_lt_ceil8 {i n : Nat} (h : i < n) : i / 8 < ceil8 n := by
  unfold ceil8
  omega

/-! ### Sequences read past their end -/

section

variable {bytes : List Byte} {n : Nat} (hn : n ≤ 8 * bytes.length)
include hn

theorem bytesToBits_length_of_le : (bytesToBits bytes n).length = n := by
  rw [bytesToBits_length, Nat.min_eq_left hn]

/-- A bit of the extracted sequence, and 0 past its end. -/
theorem bytesToBits_getD_eq_ite (i : Nat) :
    (bytesToBits bytes n).getD i 0 = if i < n then (bytes.getD (i / 8) 0).extractLsb' (7 - i % 8) 1 else 0 := by
  split
  case isTrue h => exact bytesToBits_getD bytes h (h.trans_le hn)
  case isFalse h => exact List.getD_eq_default _ _ (by rwa [bytesToBits_length_of_le hn, ← Nat.not_lt])

end

section

variable {s : State}

/-- A bit of BITMEM[0..n-1], and 0 past its end. -/
theorem State.bits_getD_eq_ite (n i : Nat) : (s.bits n).getD i 0 = if i < n then s.bitAt i else 0 := by
  split
  case isTrue h => exact s.bits_getD i h 0
  case isFalse h => exact List.getD_eq_default _ _ (by rwa [State.bits_length, ← Nat.not_lt])

/-! ### PACK (43 R182) -/

theorem State.outAt_pack (s : State) (m : Nat) : s.pack.outAt m =
    if m < ceil8 s.bitLen.toNat then (bitsToBytes (s.bits s.bitLen.toNat)).getD m 0 else s.outAt m := by
  have stored : s.pack.outAt m = (s.writeOut 0 (bitsToBytes (s.bits s.bitLen.toNat))).outAt m :=
    State.outAt_congr rfl rfl m
  simp [stored, State.outAt_writeOut]

/-- Bit 8m + j is bit 7 - j of byte m, and the bits past the sequence are 0 (43 R180). -/
theorem State.outAt_pack_bit {m j : Nat} (hm : m < ceil8 s.bitLen.toNat) (hj : j < 8) :
    (s.pack.outAt m).extractLsb' (7 - j) 1 =
      if 8 * m + j < s.bitLen.toNat then s.bitAt (8 * m + j) else 0 := by
  rw [State.outAt_pack, if_pos hm, bitsToBytes_bit _ (by rwa [State.bits_length]) hj, State.bits_getD_eq_ite]

theorem State.outAt_pack_of_le {m : Nat} (hm : ceil8 s.bitLen.toNat ≤ m) : s.pack.outAt m = s.outAt m := by
  rw [State.outAt_pack, if_neg hm.not_gt]

theorem State.toNat_outLen_pack (s : State) : s.pack.outLen.toNat = ceil8 s.bitLen.toNat :=
  (BitVec.toNat_ofNat ..).trans (Nat.mod_eq_of_lt ((ceil8_toNat_le s.bitLen).trans_lt (by decide)))

/-! ### UNPACK (43 R183) -/

theorem State.unpack_of_tooLong (h : 8197 < s.inLen.toNat) : s.unpack standardConfig = s.raise .length :=
  if_pos h

theorem State.unpack_of_tooShort (hlen : s.inLen.toNat ≤ 8197) (h : s.inLen.toNat < ceil8 s.pktBits.toNat) :
    s.unpack standardConfig = s.raise .shortInput :=
  (if_neg hlen.not_gt).trans (if_pos h)

section

variable (hlen : s.inLen.toNat ≤ 8197) (henough : ceil8 s.pktBits.toNat ≤ s.inLen.toNat)
include hlen henough

theorem State.unpack_of_enough : s.unpack standardConfig =
    { s.writeBits 0 (bytesToBits (s.inBytes (ceil8 s.pktBits.toNat)) s.pktBits.toNat) with
      bitLen := s.pktBits, status := Status.ok } :=
  (if_neg hlen.not_gt).trans (if_neg henough.not_gt)

theorem State.unpack_status : (s.unpack standardConfig).status = Status.ok := by
  rw [State.unpack_of_enough hlen henough]

theorem State.unpack_bitLen : (s.unpack standardConfig).bitLen = s.pktBits := by
  rw [State.unpack_of_enough hlen henough]

/-- Bit i is bit 7 - (i mod 8) of byte i div 8, and BITMEM past PKT_BITS is as it was (43 R181). -/
theorem State.bitAt_unpack (i : Nat) : (s.unpack standardConfig).bitAt i =
    if i < s.pktBits.toNat then (s.inAt (i / 8)).extractLsb' (7 - i % 8) 1 else s.bitAt i := by
  have hfit : s.pktBits.toNat ≤ 8 * (s.inBytes (ceil8 s.pktBits.toNat)).length := by
    rw [State.inBytes_length]
    exact le_eight_mul_ceil8 _
  rw [State.unpack_of_enough hlen henough]
  refine (State.bitAt_congr (s := s.writeBits 0 _) rfl rfl i).trans ?_
  rw [State.bitAt_writeBits, bytesToBits_length_of_le hfit]
  by_cases hi : i < s.pktBits.toNat
  · rw [if_pos (by omega), if_pos hi, Nat.sub_zero, bytesToBits_getD_eq_ite hfit, if_pos hi,
      s.inBytes_getD _ (div_eight_lt_ceil8 hi)]
  · rw [if_neg (by omega), if_neg hi]

end

end

end Sys2Proof.Machine
end

section
/-!
PROOFS. O35 to O38: PACK, UNPACK, and each after the other (43 R180–R185).
-/

namespace Sys2Proof.Machine

/-- Settles O35: the state PACK leaves, with its bytes read bit by bit. -/
theorem packStoresBitsMsbFirst : Obligations.PackStoresBitsMsbFirst := fun s =>
  ⟨s.pack, exec_pack s, fun _ _ hm hj => State.outAt_pack_bit hm hj, fun _ hm => State.outAt_pack_of_le hm,
    s.toNat_outLen_pack, rfl, rfl, rfl⟩

/-- Settles O36: by the two length checks. -/
theorem unpackExtractsBitsMsbFirst : Obligations.UnpackExtractsBitsMsbFirst := by
  refine ⟨fun s h => ?length, fun s hlen h => ?shortInput, fun s hlen henough => ?completes⟩
  case length => exact congrArg Host.Outcome.next (State.unpack_of_tooLong h)
  case shortInput => exact congrArg Host.Outcome.next (State.unpack_of_tooShort hlen h)
  case completes =>
    refine ⟨s.unpack standardConfig, exec_unpack s, fun i hi => ?_, fun i hi => ?_,
      State.unpack_bitLen hlen henough, State.unpack_status hlen henough, ?_⟩
    · rw [State.bitAt_unpack hlen henough, if_pos hi]
    · rw [State.bitAt_unpack hlen henough, if_neg hi.not_gt]
    · rw [State.unpack_of_enough hlen henough]
      rfl

/-- Settles O37: bit i of the sequence is bit 7 - (i mod 8) of packed byte i div 8, which is the one UNPACK reads. -/
theorem packThenUnpackRestoresTheBits : Obligations.PackThenUnpackRestoresTheBits := by
  intro s t s' hexec hlen hbytes hbits
  obtain rfl : s.pack = t := Host.Outcome.next.inj hexec
  have hpkt : s'.pktBits = s.bitLen := hbits
  have hcount : s'.inLen.toNat = ceil8 s.bitLen.toNat := hlen ▸ s.toNat_outLen_pack
  have hle : s'.inLen.toNat ≤ 8197 := hcount ▸ (ceil8_toNat_le s.bitLen).trans (by decide)
  have henough : ceil8 s'.pktBits.toNat ≤ s'.inLen.toNat := by rw [hpkt, hcount]
  refine ⟨s'.unpack standardConfig, exec_unpack s', congrArg Status.err (State.unpack_status hle henough),
    (State.unpack_bitLen hle henough).trans hpkt, fun i hi => ?_⟩
  have hbyte : i / 8 < ceil8 s.bitLen.toNat := div_eight_lt_ceil8 hi
  calc (s'.unpack standardConfig).bitAt i = (s'.inAt (i / 8)).extractLsb' (7 - i % 8) 1 := by
        rw [State.bitAt_unpack hle henough, hpkt, if_pos hi]
    _ = (s.pack.outAt (i / 8)).extractLsb' (7 - i % 8) 1 := by
        rw [hbytes _ (s.toNat_outLen_pack.symm ▸ hbyte)]
    _ = s.bitAt i := by
        rw [State.outAt_pack_bit hbyte (Nat.mod_lt _ (by decide)), Nat.div_add_mod, if_pos hi]

/-- Settles O38: bit 8m + j of the sequence is read from byte m at position 7 - j and packed there again. -/
theorem unpackThenPackClearsTheUnusedBits : Obligations.UnpackThenPackClearsTheUnusedBits := by
  intro y n hy
  have hn : n ≤ 8 * y.length := hy ▸ le_eight_mul_ceil8 n
  have hcount : ceil8 (bytesToBits y n).length = y.length := by
    rw [bytesToBits_length_of_le hn]
    exact hy
  refine ⟨by rw [bitsToBytes_length, hcount], fun m j hm hj => ?_⟩
  rw [bitsToBytes_bit _ (by rwa [hcount]) hj, bytesToBits_getD_eq_ite hn, show (8 * m + j) / 8 = m by omega,
    show (8 * m + j) % 8 = j by omega]

end Sys2Proof.Machine
end

section
/-!
SUPPORT. Membership in the Reed–Solomon code by evaluation (44 R205): the members are the frames of 128 bytes that
vanish at the 32 roots of the generator. It gives the code's minimum distance, and that a message with its ECC is a
member.
-/

namespace Sys2Proof.Machine

theorem gfEvalHigh_append (a b : List Byte) (x : Byte) : gfEvalHigh 0x11D (a ++ b) x =
    gfMul 0x11D (gfEvalHigh 0x11D a x) (gfPow 0x11D x b.length) ^^^ gfEvalHigh 0x11D b x := by
  induction a with
  | nil => simp
  | cons c a ih =>
    rw [List.cons_append, gfEvalHigh_cons, gfEvalHigh_cons, ih, List.length_append, gfPow_add, gfMul_xor_left,
      gfMul_assoc, BitVec.xor_assoc]

theorem distance_le_length (x y : List Byte) : distance x y ≤ x.length := by
  induction x generalizing y with
  | nil => simp [distance]
  | cons a x ih =>
    cases y with
    | nil => simp [distance]
    | cons b y =>
      have := ih y
      simp only [distance, List.length_cons]
      split <;> omega

/-- A remainder has 32 bytes, so it is zero where it vanishes at 32 points. -/
theorem isCodeword_iff_roots (c : List Byte) : isCodeword standardConfig c = true ↔
    c.length = 128 ∧ ∀ i, i < 32 → gfEvalHigh 0x11D c (gfPow 0x11D 0x02 i) = 0 := by
  constructor
  case mp => exact fun hc => ⟨isCodeword_length _ hc, fun i hi => isCodeword_root hc hi⟩
  case mpr =>
    rintro ⟨hlen, roots⟩
    have hrem : (rsRemainder standardConfig c).length = 32 := by rw [rsRemainder_length, hlen]
    have hzero : rsRemainder standardConfig c = List.replicate 32 0 := by
      refine eq_of_close (n := 32) (by rw [hrem, List.length_replicate]) (by omega) ?_ fun i hi => ?_
      · exact (distance_le_length _ _).trans_eq hrem
      · rw [gfEvalHigh_rsRemainder hlen hi, roots i hi, gfEvalHigh_zeros]
    simp [isCodeword, hlen, hzero]

/-- A message and its ECC are a member of the code (44 R203): the ECC has the value of x^32·m(x) at every root. -/
theorem isCodeword_append_rsEcc {m : List Byte} (hm : m.length = 96) :
    isCodeword standardConfig (m ++ rsEcc standardConfig m) = true := by
  have hecc := rsEcc_length standardConfig hm
  refine (isCodeword_iff_roots _).2 ⟨by rw [List.length_append, hm, hecc], fun i hi => ?_⟩
  have value : gfEvalHigh 0x11D (rsEcc standardConfig m) (gfPow 0x11D 0x02 i) =
      gfMul 0x11D (gfEvalHigh 0x11D m (gfPow 0x11D 0x02 i)) (gfPow 0x11D (gfPow 0x11D 0x02 i) 32) := by
    rw [rsEcc, gfEvalHigh_rsRemainder (by rw [List.length_append, hm, List.length_replicate]) hi, gfEvalHigh_append,
      gfEvalHigh_zeros, List.length_replicate]
    exact BitVec.xor_zero
  rw [gfEvalHigh_append, hecc, value]
  exact BitVec.xor_self

/-- Members within distance 32 of each other are equal (44 R205). -/
theorem isCodeword_eq_of_close {c d : List Byte} (hc : isCodeword standardConfig c = true)
    (hd : isCodeword standardConfig d = true) (near : distance c d ≤ 32) : c = d := by
  have hcl := isCodeword_length _ hc
  have hdl := isCodeword_length _ hd
  refine eq_of_close (hcl.trans hdl.symm) hcl.le near fun i hi => ?_
  rw [isCodeword_root hc hi, isCodeword_root hd hi]

end Sys2Proof.Machine
end

section
/-!
SUPPORT. Polynomials over GF(2^8), lowest coefficient first, and their roots (44 R200): one with up to 16 given roots
exists in 17 coefficients, and one that is not zero has fewer roots than coefficients.
-/

namespace Sys2Proof.Machine

@[simp] theorem gfEvalLow_nil (x : Byte) : gfEvalLow 0x11D [] x = 0 := rfl

theorem gfEvalLow_cons (c : Byte) (lam : List Byte) (x : Byte) :
    gfEvalLow 0x11D (c :: lam) x = gfMul 0x11D (gfEvalLow 0x11D lam x) x ^^^ c := rfl

theorem gfEvalLow_reverse (cs : List Byte) (x : Byte) : gfEvalLow 0x11D cs.reverse x = gfEvalHigh 0x11D cs x :=
  List.foldr_reverse

theorem gfEvalLow_eq_zero {lam : List Byte} (h : ∀ c ∈ lam, c = 0) (x : Byte) : gfEvalLow 0x11D lam x = 0 := by
  induction lam with
  | nil => rfl
  | cons c lam ih =>
    obtain ⟨rfl, hlam⟩ := List.forall_mem_cons.1 h
    rw [gfEvalLow_cons, ih hlam]
    simp

/-! ### A polynomial with given roots -/

theorem gfEvalHigh_mulRoot (g : List Byte) (c x : Byte) :
    gfEvalHigh 0x11D (mulRoot 0x11D g c) x = gfMul 0x11D (gfEvalHigh 0x11D g x) (x ^^^ c) := by
  rw [mulRoot, gfEvalHigh_zipWith (by simp), gfEvalHigh_append, gfEvalHigh_cons, gfEvalHigh_cons, gfEvalHigh_scale,
    gfMul_xor_right]
  simp [gfPow]

/-- The product of the (x + z), z among `zs`, lowest coefficient first. -/
def locatorPoly (zs : List Byte) : List Byte := (zs.foldl (mulRoot 0x11D) [1]).reverse

@[simp] theorem locatorPoly_length (zs : List Byte) : (locatorPoly zs).length = zs.length + 1 := by
  have fold : ∀ g : List Byte, (zs.foldl (mulRoot 0x11D) g).length = zs.length + g.length := by
    induction zs with
    | nil => simp
    | cons z zs ih => intro g; rw [List.foldl_cons, ih, mulRoot_length, List.length_cons]; omega
  rw [locatorPoly, List.length_reverse, fold, List.length_singleton]

theorem one_mem_locatorPoly (zs : List Byte) : 1 ∈ locatorPoly zs := by
  have fold : ∀ g : List Byte, 1 ∈ (zs.foldl (mulRoot 0x11D) (1 :: g)) := by
    induction zs with
    | nil => simp
    | cons z zs ih => exact fun g => ih _
  exact List.mem_reverse.2 (fold [])

theorem gfEvalLow_locatorPoly {zs : List Byte} {z : Byte} (h : z ∈ zs) : gfEvalLow 0x11D (locatorPoly zs) z = 0 := by
  have fold : ∀ g : List Byte, gfEvalHigh 0x11D g z = 0 ∨ z ∈ zs →
      gfEvalHigh 0x11D (zs.foldl (mulRoot 0x11D) g) z = 0 := by
    clear h
    induction zs with
    | nil => simp
    | cons w zs ih =>
      intro g hg
      refine ih _ ?_
      rw [gfEvalHigh_mulRoot]
      rcases hg with hg | hg
      · exact .inl (by rw [hg]; exact gfMul_zero_left _ _)
      · rcases List.mem_cons.1 hg with rfl | hg
        · exact .inl (by rw [BitVec.xor_self]; exact gfMul_zero_right _ _)
        · exact .inr hg
  rw [locatorPoly, gfEvalLow_reverse]
  exact fold _ (.inr h)

/-- Up to n points are the roots of a nonzero polynomial of n + 1 coefficients. -/
theorem exists_poly_with_roots {n : Nat} {zs : List Byte} (h : zs.length ≤ n) :
    ∃ lam : List Byte, lam.length = n + 1 ∧ (∃ c ∈ lam, c ≠ 0) ∧ ∀ z ∈ zs, gfEvalLow 0x11D lam z = 0 := by
  refine ⟨locatorPoly (zs ++ List.replicate (n - zs.length) 0), ?_, ⟨1, one_mem_locatorPoly _, by decide⟩,
    fun z hz => gfEvalLow_locatorPoly (List.mem_append_left _ hz)⟩
  rw [locatorPoly_length, List.length_append, List.length_replicate]
  omega

/-! ### The number of roots -/

/-- The values at z of the suffixes of a polynomial: its synthetic division by (x + z), remainder first. -/
def suffixValues (z : Byte) : List Byte → List Byte
  | [] => []
  | c :: lam => gfEvalLow 0x11D (c :: lam) z :: suffixValues z lam

@[simp] theorem suffixValues_length (z : Byte) (lam : List Byte) : (suffixValues z lam).length = lam.length := by
  induction lam with
  | nil => rfl
  | cons c lam ih => rw [suffixValues, List.length_cons, ih, List.length_cons]

/-- The division with remainder by (x + z). -/
theorem gfEvalLow_divide (z c : Byte) (lam : List Byte) (x : Byte) : gfEvalLow 0x11D (c :: lam) x =
    gfMul 0x11D (gfEvalLow 0x11D (suffixValues z lam) x) (x ^^^ z) ^^^ gfEvalLow 0x11D (c :: lam) z := by
  induction lam generalizing c with
  | nil => simp [suffixValues, gfEvalLow_cons]
  | cons d lam ih =>
    rw [gfEvalLow_cons c, ih d, suffixValues, gfEvalLow_cons _ (suffixValues z lam), gfEvalLow_cons c _ z]
    generalize gfEvalLow 0x11D (suffixValues z lam) x = q
    generalize gfEvalLow 0x11D (d :: lam) z = r
    calc gfMul 0x11D (gfMul 0x11D q (x ^^^ z) ^^^ r) x ^^^ c
        = gfMul 0x11D (gfMul 0x11D q x) (x ^^^ z) ^^^ gfMul 0x11D r x ^^^ c := by
          rw [gfMul_xor_left, gfMul_assoc, gfMul_comm _ x, ← gfMul_assoc]
      _ = gfMul 0x11D (gfMul 0x11D q x) (x ^^^ z) ^^^ (gfMul 0x11D r x ^^^ gfMul 0x11D r z) ^^^
          (gfMul 0x11D r z ^^^ c) := by grind
      _ = gfMul 0x11D (gfMul 0x11D q x ^^^ r) (x ^^^ z) ^^^ (gfMul 0x11D r z ^^^ c) := by
          rw [gfMul_xor_left, gfMul_xor_right _ r]

theorem eq_zero_of_suffixValues {z : Byte} {lam : List Byte} (h : ∀ v ∈ suffixValues z lam, v = 0) :
    ∀ c ∈ lam, c = 0 := by
  induction lam with
  | nil => simp
  | cons c lam ih =>
    obtain ⟨hvalue, hrest⟩ := List.forall_mem_cons.1 h
    rw [gfEvalLow_cons, gfEvalLow_eq_zero (ih hrest)] at hvalue
    exact List.forall_mem_cons.2 ⟨by simpa using hvalue, ih hrest⟩

/-- A polynomial with as many distinct roots as coefficients is zero. -/
theorem eq_zero_of_roots {lam zs : List Byte} (distinct : zs.Nodup) (hlen : lam.length ≤ zs.length)
    (roots : ∀ z ∈ zs, gfEvalLow 0x11D lam z = 0) : ∀ c ∈ lam, c = 0 := by
  induction zs generalizing lam with
  | nil => simp [List.eq_nil_of_length_eq_zero (Nat.le_zero.1 hlen)]
  | cons z zs ih =>
    cases lam with
    | nil => simp
    | cons c lam =>
      obtain ⟨hz, distinct⟩ := List.nodup_cons.1 distinct
      obtain ⟨root, roots⟩ := List.forall_mem_cons.1 roots
      have quotient : ∀ v ∈ suffixValues z lam, v = 0 := by
        refine ih distinct (by simpa using hlen) fun w hw => ?_
        have hprod := roots w hw
        rw [gfEvalLow_divide z, root] at hprod
        refine (gfMul_eq_zero (by simpa using hprod)).resolve_right fun heq => hz ?_
        rwa [← byte_xor_eq_zero.1 heq]
      refine eq_zero_of_suffixValues (z := z) (List.forall_mem_cons.2 ⟨root, quotient⟩)

end Sys2Proof.Machine
end

section
/-!
SUPPORT. The errors of a received word against a member of the code (44 R205, R206), as terms at their locators: their
power sums are the word's values at the roots, and the decoder's three lists (the syndromes and the rows of its two
systems) are made of them.
-/

namespace Sys2Proof.Machine

/-- α^(127 - p), the locator of position p of a frame (44 R203). -/
def locator (p : Nat) : Byte := gfPow 0x11D 0x02 (127 - p)

/-- What a received word adds to a member of the code at position p. -/
def errorAt (r c : List Byte) (p : Nat) : Byte := r.getD p 0 ^^^ c.getD p 0

/-- The terms of the errors at the positions `ps`. -/
def errorTerms (r c : List Byte) (ps : List Nat) : List (Byte × Byte) := ps.map (fun p => (locator p, errorAt r c p))

/-- The positions of a frame that pass a test. -/
abbrev positions (q : Nat → Bool) : List Nat := (List.range 128).filter q

theorem gfGeometric_eq_map (q : Byte) (n : Nat) (x : Byte) :
    gfGeometric 0x11D q n x = (List.range n).map (fun k => gfMul 0x11D x (gfPow 0x11D q k)) := by
  induction n generalizing x with
  | zero => rfl
  | succ n ih =>
    rw [gfGeometric, ih, List.range_succ_eq_map, List.map_cons, List.map_map]
    refine congrArg₂ _ (gfMul_one_right x).symm (List.map_congr_left fun k _ => ?_)
    show _ = gfMul 0x11D x (gfMul 0x11D (gfPow 0x11D q k) q)
    rw [gfMul_assoc, gfMul_comm q]

theorem gfGeometric_one (q : Byte) (n : Nat) : gfGeometric 0x11D q n 1 = (List.range n).map (gfPow 0x11D q) := by
  rw [gfGeometric_eq_map]
  exact List.map_congr_left fun k _ => gfMul_one_left _

theorem rsRoots_eq : rsRoots standardConfig = (List.range 32).map (gfPow 0x11D 0x02) := gfGeometric_one 0x02 32

theorem reverse_range_map {α : Type} (f : Nat → α) (n : Nat) :
    ((List.range n).map f).reverse = (List.range n).map (fun p => f (n - 1 - p)) := by
  rw [← List.map_reverse, List.range_eq_range', List.reverse_range', List.map_map, List.range_eq_range']
  simp [Function.comp_def]

theorem rsLocators_eq : rsLocators standardConfig = (List.range 128).map locator :=
  (congrArg List.reverse (gfGeometric_one 0x02 128)).trans (reverse_range_map _ 128)

theorem locator_nodup (q : Nat → Bool) : ((positions q).map locator).Nodup := by
  refine List.Nodup.sublist (List.filter_sublist.map _) ?_
  rw [← rsLocators_eq]
  exact List.nodup_reverse.2 (gfGeometric_one 0x02 128 ▸ locators_nodup)

/-! ### Power sums of the errors -/

theorem powerSum_eq_zero {ts : List (Byte × Byte)} (h : ∀ t ∈ ts, t.2 = 0) (i : Nat) : powerSum ts i = 0 := by
  induction ts with
  | nil => rfl
  | cons t ts ih =>
    obtain ⟨ht, hts⟩ := List.forall_mem_cons.1 h
    rw [powerSum, ht, ih hts]
    simp

/-- Leaving out positions without an error does not change the power sums. -/
theorem powerSum_errorTerms_filter {r c : List Byte} {q : Nat → Bool} {ps : List Nat}
    (hq : ∀ p ∈ ps, errorAt r c p ≠ 0 → q p = true) (i : Nat) :
    powerSum (errorTerms r c (ps.filter q)) i = powerSum (errorTerms r c ps) i := by
  induction ps with
  | nil => rfl
  | cons p ps ih =>
    obtain ⟨hp, hps⟩ := List.forall_mem_cons.1 hq
    by_cases h : q p = true
    · rw [List.filter_cons_of_pos h]
      exact congrArg (_ ^^^ ·) (ih hps)
    · have hzero : errorAt r c p = 0 := by_contra fun hne => h (hp hne)
      rw [List.filter_cons_of_neg h, ih hps]
      show _ = gfMul 0x11D (errorAt r c p) _ ^^^ powerSum (errorTerms r c ps) i
      rw [hzero]
      simp

theorem frameTerms_eq_map (cs : List Byte) : frameTerms cs =
    (List.range cs.length).map (fun p => (gfPow 0x11D 0x02 (cs.length - 1 - p), cs.getD p 0)) := by
  induction cs with
  | nil => rfl
  | cons c cs ih =>
    rw [frameTerms, ih, List.length_cons, List.range_succ_eq_map, List.map_cons, List.map_map]
    refine congrArg₂ _ rfl (List.map_congr_left fun p _ => ?_)
    simp [Nat.sub_sub, Nat.add_comm]

theorem frameTerms_zipWith {r c : List Byte} (hr : r.length = 128) (hc : c.length = 128) :
    frameTerms (List.zipWith (· ^^^ ·) r c) = errorTerms r c (List.range 128) := by
  rw [frameTerms_eq_map, List.length_zipWith, hr, hc]
  refine List.map_congr_left fun p hp => ?_
  have hp : p < 128 := List.mem_range.1 hp
  simp [locator, errorAt, List.getD, hr, hc, hp]

section

variable {r c : List Byte} (hr : r.length = 128) (hc : isCodeword standardConfig c = true)
include hr hc

/-- The number of errors is the distance (44 R205). -/
theorem errorPositions_length : (positions (fun p => errorAt r c p ≠ 0)).length = distance r c := by
  have hcl := isCodeword_length _ hc
  rw [← frameTerms_weight (hr.trans hcl.symm), frameTerms_zipWith hr hcl, errorTerms, List.filter_map, List.length_map]
  rfl

variable {q : Nat → Bool} (hq : ∀ p, p < 128 → errorAt r c p ≠ 0 → q p = true)
include hq

/-- A member has the value 0 at the roots, so the received word's value is that of its errors. -/
theorem gfEvalHigh_eq_powerSum {i : Nat} (hi : i < 32) :
    gfEvalHigh 0x11D r (gfPow 0x11D 0x02 i) = powerSum (errorTerms r c (positions q)) i := by
  have hcl := isCodeword_length _ hc
  rw [powerSum_errorTerms_filter fun p hp => hq p (List.mem_range.1 hp), ← frameTerms_zipWith hr hcl,
    powerSum_frameTerms, gfEvalHigh_zipWith (hr.trans hcl.symm), isCodeword_root hc hi]
  exact BitVec.xor_zero.symm

theorem rsSyndromes_eq_powerSums :
    rsSyndromes standardConfig r = (List.range 32).map (powerSum (errorTerms r c (positions q))) := by
  rw [rsSyndromes, rsRoots_eq, List.map_map]
  exact List.map_congr_left fun i hi => gfEvalHigh_eq_powerSum hr hc hq (List.mem_range.1 hi)

end

end Sys2Proof.Machine
end

section
/-!
SUPPORT. The two systems of the decoder (44 R206): the solutions of the first vanish at every error's locator, and the
solutions of the second are the multiples of the error values.
-/

namespace Sys2Proof.Machine

/-! ### The first system: the locators of the errors -/

/-- The terms with each value multiplied by the value of a polynomial at its locator. -/
def weightedTerms (lam : List Byte) (ts : List (Byte × Byte)) : List (Byte × Byte) :=
  ts.map (fun t => (t.1, gfMul 0x11D t.2 (gfEvalLow 0x11D lam t.1)))

theorem weightedTerms_cons (lam : List Byte) (x e : Byte) (ts : List (Byte × Byte)) :
    weightedTerms lam ((x, e) :: ts) = (x, gfMul 0x11D e (gfEvalLow 0x11D lam x)) :: weightedTerms lam ts := rfl

theorem powerSum_weightedTerms_cons (l : Byte) (lam : List Byte) (ts : List (Byte × Byte)) (i : Nat) :
    powerSum (weightedTerms (l :: lam) ts) i =
      gfMul 0x11D (powerSum ts i) l ^^^ powerSum (weightedTerms lam ts) (i + 1) := by
  induction ts with
  | nil => simp [weightedTerms, powerSum]
  | cons t ts ih =>
    obtain ⟨x, e⟩ := t
    have term (v : Byte) : gfMul 0x11D (gfMul 0x11D e (gfMul 0x11D v x ^^^ l)) (gfPow 0x11D x i) =
        gfMul 0x11D (gfMul 0x11D e (gfPow 0x11D x i)) l ^^^ gfMul 0x11D (gfMul 0x11D e v) (gfPow 0x11D x (i + 1)) := by
      rw [gfMul_xor_right, gfMul_xor_left, BitVec.xor_comm, gfPow, gfMul_assoc, gfMul_comm l, gfMul_assoc, gfMul_assoc,
        gfMul_assoc, gfMul_assoc, gfMul_comm x]
    rw [weightedTerms_cons, weightedTerms_cons, powerSum, powerSum, powerSum, ih, gfEvalLow_cons, term, gfMul_xor_left]
    ac_rfl

/-- A run of power sums times the coefficients of a polynomial. -/
theorem gfDot_powerSums (ts : List (Byte × Byte)) (lam : List Byte) (i : Nat) :
    gfDot 0x11D ((List.range' i lam.length).map (powerSum ts)) lam = powerSum (weightedTerms lam ts) i := by
  induction lam generalizing i with
  | nil => exact (powerSum_eq_zero (List.forall_mem_map.2 fun _ _ => gfMul_zero_right _ _) i).symm
  | cons l lam ih => rw [List.length_cons, List.range'_succ, List.map_cons, gfDot, ih, powerSum_weightedTerms_cons]

theorem rsKeyRow_length {s row : List Byte} (hs : s.length = 32) (h : row ∈ rsKeyRows s) : row.length = 17 := by
  obtain ⟨i, hi, rfl⟩ := List.mem_map.1 h
  have := List.mem_range.1 hi
  rw [List.length_take, List.length_drop, hs]
  omega

/-- What it means for a polynomial to solve the first system. -/
theorem rsKeyRows_solved_iff (ts : List (Byte × Byte)) {lam : List Byte} (hlam : lam.length = 17) :
    (∀ row ∈ rsKeyRows ((List.range 32).map (powerSum ts)), gfDot 0x11D row lam = 0) ↔
      ∀ i, i < 16 → powerSum (weightedTerms lam ts) i = 0 := by
  have row {i : Nat} (hi : i < 16) : (((List.range 32).map (powerSum ts)).drop i).take 17 =
      (List.range' i lam.length).map (powerSum ts) := by
    refine List.ext_getElem (by simp; omega) fun j _ _ => ?_
    simp
  rw [rsKeyRows, List.forall_mem_map]
  refine forall_congr' fun i => ?_
  rw [List.mem_range]
  refine forall_congr' fun hi => ?_
  rw [row hi, gfDot_powerSums]

/-! ### The second system: the values of the errors -/

/-- The errors at the positions `ps` times y0, each against another value. -/
def valueTerms (r c : List Byte) (y0 : Byte) (ps : List Nat) (ys : List Byte) : List (Byte × Byte) :=
  List.zipWith (fun p y => (locator p, gfMul 0x11D (errorAt r c p) y0 ^^^ y)) ps ys

theorem powerSum_valueTerms (r c : List Byte) (y0 : Byte) {ps : List Nat} {ys : List Byte}
    (h : ys.length = ps.length) (i : Nat) : powerSum (valueTerms r c y0 ps ys) i =
      gfDot 0x11D (powerSum (errorTerms r c ps) i :: ps.map (fun p => gfPow 0x11D (locator p) i)) (y0 :: ys) := by
  induction ps generalizing ys with
  | nil =>
    rw [List.eq_nil_of_length_eq_zero h]
    simp [valueTerms, errorTerms, powerSum, gfDot]
  | cons p ps ih =>
    match ys, h with
    | y :: ys, h =>
      have rest := ih (Nat.succ.inj h)
      rw [gfDot] at rest
      have split : powerSum (valueTerms r c y0 (p :: ps) (y :: ys)) i =
          gfMul 0x11D (gfMul 0x11D (errorAt r c p) y0 ^^^ y) (gfPow 0x11D (locator p) i) ^^^
            powerSum (valueTerms r c y0 ps ys) i := rfl
      rw [split, rest, List.map_cons, gfDot, gfDot]
      show _ = gfMul 0x11D (gfMul 0x11D (errorAt r c p) (gfPow 0x11D (locator p) i) ^^^
        powerSum (errorTerms r c ps) i) y0 ^^^ _
      rw [gfMul_xor_left, gfMul_xor_left, gfMul_assoc, gfMul_assoc, gfMul_comm y0, gfMul_comm y]
      ac_rfl

theorem valueTerms_locators (r c : List Byte) (y0 : Byte) {ps : List Nat} {ys : List Byte}
    (h : ys.length = ps.length) : (valueTerms r c y0 ps ys).map Prod.fst = ps.map locator := by
  refine List.ext_getElem (by simp [valueTerms, h]) fun k _ _ => ?_
  simp [valueTerms]

theorem valueTerms_length (r c : List Byte) (y0 : Byte) {ps : List Nat} {ys : List Byte}
    (h : ys.length = ps.length) : (valueTerms r c y0 ps ys).length = ps.length := by
  simp [valueTerms, h]

theorem valueTerms_eq_zero_iff (r c : List Byte) (y0 : Byte) {ps : List Nat} {ys : List Byte}
    (h : ys.length = ps.length) : (∀ t ∈ valueTerms r c y0 ps ys, t.2 = 0) ↔
      ys = ps.map (fun p => gfMul 0x11D (errorAt r c p) y0) := by
  induction ps generalizing ys with
  | nil => simp [List.eq_nil_of_length_eq_zero h, valueTerms]
  | cons p ps ih =>
    match ys, h with
    | y :: ys, h =>
      rw [valueTerms, List.zipWith_cons_cons, List.forall_mem_cons, List.map_cons, List.cons_eq_cons, byte_xor_eq_zero,
        eq_comm (b := y)]
      exact and_congr_right fun _ => ih (Nat.succ.inj h)

theorem rsValueRows_eq (s : List Byte) (ps : List Nat) :
    rsValueRows standardConfig s (ps.map (fun p => (p, locator p))) =
      (List.range 32).map (fun i => s.getD i 0 :: ps.map (fun p => gfPow 0x11D (locator p) i)) := by
  refine List.map_congr_left fun i hi => congrArg _ ?_
  have hi : i < 32 := List.mem_range.1 hi
  rw [List.map_map, List.map_map]
  refine List.map_congr_left fun p _ => ?_
  show (gfGeometric 0x11D (locator p) 32 1).getD i 0 = _
  rw [gfGeometric_one]
  simp [hi]

theorem rsValueRow_length {s row : List Byte} {ps : List Nat}
    (h : row ∈ rsValueRows standardConfig s (ps.map (fun p => (p, locator p)))) : row.length = ps.length + 1 := by
  rw [rsValueRows_eq] at h
  obtain ⟨i, _, rfl⟩ := List.mem_map.1 h
  simp

/-- What it means for values to solve the second system. -/
theorem rsValueRows_solved_iff (r c : List Byte) (y0 : Byte) {ps : List Nat} {ys : List Byte}
    (h : ys.length = ps.length) :
    (∀ row ∈ rsValueRows standardConfig ((List.range 32).map (powerSum (errorTerms r c ps)))
        (ps.map (fun p => (p, locator p))), gfDot 0x11D row (y0 :: ys) = 0) ↔
      ∀ i, i < 32 → powerSum (valueTerms r c y0 ps ys) i = 0 := by
  rw [rsValueRows_eq, List.forall_mem_map]
  refine forall_congr' fun i => ?_
  rw [List.mem_range]
  refine forall_congr' fun hi => ?_
  rw [powerSum_valueTerms r c y0 h]
  simp [hi]

/-- The error values themselves solve the second system. -/
theorem rsValueRows_solved_by_errors (r c : List Byte) (ps : List Nat) :
    ∀ row ∈ rsValueRows standardConfig ((List.range 32).map (powerSum (errorTerms r c ps)))
      (ps.map (fun p => (p, locator p))), gfDot 0x11D row (1 :: ps.map (errorAt r c)) = 0 := by
  have hlen : (ps.map (errorAt r c)).length = ps.length := List.length_map _
  refine (rsValueRows_solved_iff r c 1 hlen).2 fun i _ => powerSum_eq_zero ?_ i
  exact (valueTerms_eq_zero_iff r c 1 hlen).2 (List.map_congr_left fun p _ => (gfMul_one_right _).symm)

/-- At distinct locators every nonzero solution of the second system is a nonzero multiple of the error values. -/
theorem rsValueRows_solution {r c y : List Byte} {ps : List Nat} (distinct : (ps.map locator).Nodup)
    (few : ps.length ≤ 32) (hlen : y.length = ps.length + 1) (nonzero : ∃ v ∈ y, v ≠ 0)
    (solved : ∀ row ∈ rsValueRows standardConfig ((List.range 32).map (powerSum (errorTerms r c ps)))
      (ps.map (fun p => (p, locator p))), gfDot 0x11D row y = 0) :
    ∃ y0, y0 ≠ 0 ∧ y = y0 :: ps.map (fun p => gfMul 0x11D (errorAt r c p) y0) := by
  match y, hlen with
  | y0 :: ys, hlen =>
    have hys : ys.length = ps.length := Nat.succ.inj hlen
    have values : ys = ps.map (fun p => gfMul 0x11D (errorAt r c p) y0) := by
      refine (valueTerms_eq_zero_iff r c y0 hys).1 (powerSum_independent ?_ fun i hi => ?_)
      · rwa [valueTerms_locators r c y0 hys]
      · rw [valueTerms_length r c y0 hys] at hi
        exact (rsValueRows_solved_iff r c y0 hys).1 solved i (by omega)
    subst values
    refine ⟨y0, ?_, rfl⟩
    rintro rfl
    obtain ⟨v, hv, hne⟩ := nonzero
    rcases List.mem_cons.1 hv with rfl | hv
    · exact hne rfl
    · obtain ⟨p, -, rfl⟩ := List.mem_map.1 hv
      exact hne (gfMul_zero_right _ _)

end Sys2Proof.Machine
end

section
/-!
SUPPORT. The decoder finds the member of the code within distance 16 of the word it gets (44 R206).
-/

namespace Sys2Proof.Machine

/-! ### Repairing the errors -/

theorem rsRepair_nil (p : Nat) (r : List Byte) : rsRepair p [] r = r := by
  cases r <;> rfl

/-- A position that is not among the errors' keeps its byte. -/
theorem rsRepair_cons_of_ne {p : Nat} {errors : List (Nat × Byte)} (h : ∀ e ∈ errors, e.1 ≠ p) (x : Byte)
    (r : List Byte) : rsRepair p errors (x :: r) = x :: rsRepair (p + 1) errors r := by
  cases errors with
  | nil => rw [rsRepair_nil, rsRepair_nil]
  | cons e errors => rw [rsRepair, if_neg (Ne.symm (h e (by simp)))]

/-- The repair adds every error at its position, where positions that are left out have none. -/
theorem rsRepair_filter {d : Nat → Byte} {q : Nat → Bool} (r : List Byte) (p : Nat)
    (hq : ∀ k ∈ List.range' p r.length, d k ≠ 0 → q k = true) :
    rsRepair p (((List.range' p r.length).filter q).map (fun k => (k, d k))) r =
      List.zipWith (fun k x => x ^^^ d k) (List.range' p r.length) r := by
  induction r generalizing p with
  | nil => rfl
  | cons x r ih =>
    rw [List.length_cons, List.range'_succ] at hq ⊢
    obtain ⟨hp, hrest⟩ := List.forall_mem_cons.1 hq
    rw [List.zipWith_cons_cons, ← ih (p + 1) hrest]
    by_cases h : q p = true
    · rw [List.filter_cons_of_pos h, List.map_cons, rsRepair, if_pos rfl]
    · have hzero : d p = 0 := by_contra fun hne => h (hp hne)
      rw [List.filter_cons_of_neg h, rsRepair_cons_of_ne, hzero]
      · exact congrArg (· :: _) BitVec.xor_zero.symm
      · refine List.forall_mem_map.2 fun k hk => ?_
        have := (List.mem_range'_1.1 (List.mem_filter.1 hk).1).1
        show k ≠ p
        omega

/-! ### The candidate -/

/-- The positions whose locators are roots of a polynomial. -/
def isSite (lam : List Byte) (p : Nat) : Bool := gfEvalLow 0x11D lam (locator p) = 0

theorem rsErrorSites_eq (lam : List Byte) :
    rsErrorSites standardConfig lam = (positions (isSite lam)).map (fun p => (p, locator p)) := by
  have zip : (List.range 128).zip (rsLocators standardConfig) = (List.range 128).map (fun p => (p, locator p)) := by
    rw [rsLocators_eq]
    simpa using List.zip_map' (f := id) (g := locator) (l := List.range 128)
  rw [rsErrorSites, zip, List.filter_map]
  rfl

/-- A polynomial of 17 coefficients has at most 16 roots. -/
theorem keySolution_sites_le {r lam : List Byte}
    (hlam : gfNullVec 0x11D 17 (rsKeyRows (rsSyndromes standardConfig r)) = some lam) :
    (positions (isSite lam)).length ≤ 16 := by
  obtain ⟨hlen, ⟨v, hv, hne⟩, -⟩ := gfNullVec_sound (fun row => rsKeyRow_length (rsSyndromes_length _ r)) hlam
  by_contra hmany
  refine hne (eq_zero_of_roots (locator_nodup (isSite lam)) ?_ ?_ v hv)
  · rw [List.length_map]
    omega
  · exact List.forall_mem_map.2 fun p hp => of_decide_eq_true (List.mem_filter.1 hp).2

section

variable {r c : List Byte} (hr : r.length = 128) (hc : isCodeword standardConfig c = true)
include hr hc

theorem repair_errors {q : Nat → Bool} (hq : ∀ p, p < 128 → errorAt r c p ≠ 0 → q p = true) :
    rsRepair 0 ((positions q).map (fun p => (p, errorAt r c p))) r = c := by
  have hcl := isCodeword_length _ hc
  have filtered := rsRepair_filter (d := errorAt r c) (q := q) r 0 fun k hk =>
    hq k (by have := List.mem_range'_1.1 hk; omega)
  rw [hr, ← List.range_eq_range'] at filtered
  rw [positions, filtered]
  refine List.ext_getElem (by simp [hr, hcl]) fun k hk _ => ?_
  have hk : k < 128 := by simpa [hr] using hk
  simp [errorAt, List.getD, hr, hcl, hk, ← BitVec.xor_assoc]

variable (near : distance r c ≤ 16)
include near

/-- The first system has a solution: a polynomial with a root at every error. -/
theorem exists_keySolution :
    ∃ lam, gfNullVec 0x11D 17 (rsKeyRows (rsSyndromes standardConfig r)) = some lam := by
  have few := (errorPositions_length hr hc).trans_le near
  obtain ⟨lam, hlam, nonzero, roots⟩ := exists_poly_with_roots
    (n := 16) (zs := (positions (fun p => errorAt r c p ≠ 0)).map locator) (by simpa using few)
  refine gfNullVec_complete (fun row => rsKeyRow_length (rsSyndromes_length _ r)) hlam nonzero ?_
  rw [rsSyndromes_eq_powerSums hr hc (fun p _ h => decide_eq_true h), rsKeyRows_solved_iff _ hlam]
  refine fun i _ => powerSum_eq_zero (List.forall_mem_map.2 fun t ht => ?_) i
  obtain ⟨p, hp, rfl⟩ := List.mem_map.1 ht
  show gfMul 0x11D (errorAt r c p) (gfEvalLow 0x11D lam (locator p)) = 0
  rw [roots _ (List.mem_map_of_mem hp)]
  exact gfMul_zero_right _ _

section

variable {lam : List Byte} (hlam : gfNullVec 0x11D 17 (rsKeyRows (rsSyndromes standardConfig r)) = some lam)
include hlam

/-- Every solution of the first system has a root at every error. -/
theorem keySolution_root (p : Nat) (hp : p < 128) (herr : errorAt r c p ≠ 0) : isSite lam p = true := by
  obtain ⟨hlen, -, solved⟩ := gfNullVec_sound (fun row => rsKeyRow_length (rsSyndromes_length _ r)) hlam
  rw [rsSyndromes_eq_powerSums hr hc (fun p _ h => decide_eq_true h), rsKeyRows_solved_iff _ hlen] at solved
  have few := (errorPositions_length hr hc).trans_le near
  have zero := powerSum_independent ?distinct fun i hi => solved i ?bound
  case distinct =>
    simpa [weightedTerms, errorTerms, Function.comp_def] using locator_nodup (fun p => errorAt r c p ≠ 0)
  case bound => exact hi.trans_le (by simpa [weightedTerms, errorTerms] using few)
  have hmem : p ∈ positions (fun p => errorAt r c p ≠ 0) :=
    List.mem_filter.2 ⟨List.mem_range.2 hp, decide_eq_true herr⟩
  have product := zero _ (List.mem_map_of_mem (List.mem_map_of_mem hmem))
  exact decide_eq_true ((gfMul_eq_zero product).resolve_left herr)

/-- The second system has a solution, and the solver's is a nonzero multiple of the error values. -/
theorem exists_valueSolution : ∃ y0, y0 ≠ 0 ∧
    gfNullVec 0x11D ((positions (isSite lam)).length + 1)
        (rsValueRows standardConfig (rsSyndromes standardConfig r) (rsErrorSites standardConfig lam)) =
      some (y0 :: (positions (isSite lam)).map (fun p => gfMul 0x11D (errorAt r c p) y0)) := by
  rw [rsErrorSites_eq, rsSyndromes_eq_powerSums hr hc (keySolution_root hr hc near hlam)]
  obtain ⟨y, hy⟩ := gfNullVec_complete (fun _ => rsValueRow_length) (by simp) ⟨1, by simp, by decide⟩
    (rsValueRows_solved_by_errors r c (positions (isSite lam)))
  obtain ⟨hlen, nonzero, solved⟩ := gfNullVec_sound (fun _ => rsValueRow_length) hy
  obtain ⟨y0, hy0, rfl⟩ := rsValueRows_solution (locator_nodup _)
    ((keySolution_sites_le hlam).trans (by decide)) hlen nonzero solved
  exact ⟨y0, hy0, hy⟩

end

/-- The candidate is the member within distance 16. -/
theorem rsCandidate_eq_some : rsCandidate standardConfig r = some c := by
  obtain ⟨lam, hlam⟩ := exists_keySolution hr hc near
  obtain ⟨y0, hy0, hvalues⟩ := exists_valueSolution hr hc near hlam
  have scaled (p : Nat) : gfMul 0x11D (gfMul 0x11D (errorAt r c p) y0) (gfInv 0x11D y0) = errorAt r c p := by
    rw [gfMul_assoc, gfMul_gfInv hy0]
    exact gfMul_one_right _
  have errors : List.zipWith (fun (site : Nat × Byte) y => (site.1, gfMul 0x11D y (gfInv 0x11D y0)))
      (rsErrorSites standardConfig lam) ((positions (isSite lam)).map (fun p => gfMul 0x11D (errorAt r c p) y0)) =
      (positions (isSite lam)).map (fun p => (p, errorAt r c p)) := by
    rw [rsErrorSites_eq, List.zipWith_map, List.zipWith_self]
    exact List.map_congr_left fun p _ => congrArg _ (scaled p)
  have hlen : (rsErrorSites standardConfig lam).length = (positions (isSite lam)).length := by
    rw [rsErrorSites_eq, List.length_map]
  rw [← hlen] at hvalues
  change gfNullVec standardConfig.rsPoly 17 _ = _ at hlam
  change gfNullVec standardConfig.rsPoly _ _ = _ at hvalues
  simp only [rsCandidate, hlam, hvalues]
  exact congrArg some ((congrArg (rsRepair 0 · r) errors).trans
    (repair_errors hr hc (keySolution_root hr hc near hlam)))

theorem rsNearest_eq_some : rsNearest standardConfig r = some (c.take 96) := by
  simp [rsNearest, rsCandidate_eq_some hr hc near, hc, near]

end

end Sys2Proof.Machine
end

section
/-!
SUPPORT. What RS_ENC and RS_DEC leave in OUT and the registers (44 R202–R207).
-/

namespace Sys2Proof.Machine

theorem State.outBytes_eq {s : State} {n : Nat} {bytes : List Byte} (hlen : bytes.length = n)
    (h : ∀ k, k < n → s.outAt k = bytes.getD k 0) : s.outBytes n = bytes := by
  refine List.ext_getElem (by simp [hlen]) fun k _ hk => ?_
  simpa [State.outBytes, List.getD, hk] using h k (hlen ▸ hk)

/-- The message RS_ENC encodes: the text, cut or padded to 96 bytes (44 R202). -/
def State.paddedText (s : State) : List Byte := pad96 standardConfig (s.inBytes s.inLen.toNat)

/-- The frame RS_ENC writes: the message and its ECC (44 R204). -/
def State.rsFrame (s : State) : List Byte := s.paddedText ++ rsEcc standardConfig s.paddedText

@[simp] theorem State.paddedText_length (s : State) : s.paddedText.length = 96 := pad96_length _ _

@[simp] theorem State.rsFrame_length (s : State) : s.rsFrame.length = 128 := by
  rw [State.rsFrame, List.length_append, rsEcc_length _ s.paddedText_length, s.paddedText_length]

theorem State.paddedText_getD (s : State) {k : Nat} (hk : k < 96) : s.paddedText.getD k 0 =
    if k < s.inLen.toNat then s.inAt k else if k = s.inLen.toNat then 0x2C else 0 := by
  rw [State.paddedText, pad96_getD _ _ hk, State.inBytes_length]
  split
  case isTrue h => exact s.inBytes_getD _ h 0
  case isFalse => rfl

theorem State.rsFrame_getD_message (s : State) {k : Nat} (hk : k < 96) :
    s.rsFrame.getD k 0 = s.paddedText.getD k 0 :=
  List.getD_append _ _ _ _ (by rwa [s.paddedText_length])

theorem State.rsFrame_getD_ecc (s : State) (j : Nat) :
    s.rsFrame.getD (96 + j) 0 = (rsEcc standardConfig s.paddedText).getD j 0 := by
  rw [State.rsFrame, List.getD_append_right _ _ _ _ (by rw [s.paddedText_length]; omega), s.paddedText_length,
    Nat.add_sub_cancel_left]

theorem State.isCodeword_rsFrame (s : State) : isCodeword standardConfig s.rsFrame = true :=
  isCodeword_append_rsEcc s.paddedText_length

theorem Status.decoded_eq_ite (n : Half) :
    Status.decoded n = { err := 0, warnLen := if n = 128 then 0 else 1, pclass := 0 } := by
  have toNat_iff : n.toNat = 128 ↔ n = 128 := ⟨fun h => BitVec.eq_of_toNat_eq h, fun h => h ▸ rfl⟩
  simp only [Status.decoded, ne_eq, toNat_iff, ite_not]

theorem State.rsEnc_of_tooLong {s : State} (h : 8197 < s.inLen.toNat) :
    s.rsEnc standardConfig = s.raise .length :=
  if_pos h

section

variable {s : State} (hle : s.inLen.toNat ≤ 8197)
include hle

/-! ### RS_ENC (44 R204) -/

theorem State.rsEnc_of_le :
    s.rsEnc standardConfig = { s.writeOut 0 s.rsFrame with outLen := 128, status := Status.ok } :=
  if_neg hle.not_gt

theorem State.outAt_rsEnc (k : Nat) :
    (s.rsEnc standardConfig).outAt k = if k < 128 then s.rsFrame.getD k 0 else s.outAt k := by
  rw [State.rsEnc_of_le hle]
  refine (State.outAt_congr (s := s.writeOut 0 s.rsFrame) rfl rfl k).trans ?_
  simp [State.outAt_writeOut]

theorem State.rsEnc_outBytes_frame : (s.rsEnc standardConfig).outBytes 128 = s.rsFrame :=
  State.outBytes_eq s.rsFrame_length fun k hk => by rw [State.outAt_rsEnc hle, if_pos hk]

theorem State.rsEnc_outBytes_message : (s.rsEnc standardConfig).outBytes 96 = s.paddedText :=
  State.outBytes_eq s.paddedText_length fun k hk => by
    rw [State.outAt_rsEnc hle, if_pos (by omega), s.rsFrame_getD_message hk]

/-! ### RS_DEC (44 R207) -/

theorem State.rsDec_of_le {m : List Byte} {d : Nat}
    (hdec : rsDecode standardConfig s.draws (s.inBytes 128) = (m, d)) : s.rsDec standardConfig =
      { s.writeOut 0 m with outLen := 96, draws := d, status := Status.decoded s.inLen } := by
  refine (if_neg hle.not_gt).trans ?_
  rw [hdec]

/-- RS_DEC completes with the decoder's answer in OUT, whichever branch gave it (44 R207). -/
theorem State.rsDec_completes {m : List Byte} {d : Nat}
    (hdec : rsDecode standardConfig s.draws (s.inBytes 128) = (m, d)) : ∃ t, exec .rsDec s = .next t ∧
      (∀ k, k < 96 → t.outAt k = m.getD k 0) ∧ (∀ k, 96 ≤ k → t.outAt k = s.outAt k) ∧
      t.outLen = 96 ∧ t.status = { err := 0, warnLen := if s.inLen = 128 then 0 else 1, pclass := 0 } ∧
      t = { s with outBuf := t.outBuf, outLen := t.outLen, draws := d, status := t.status } := by
  have hm : m.length = 96 := by simpa only [hdec] using rsDecode_length standardConfig s.draws (s.inBytes 128)
  have hout (k : Nat) : (s.rsDec standardConfig).outAt k = if k < 96 then m.getD k 0 else s.outAt k := by
    rw [State.rsDec_of_le hle hdec]
    refine (State.outAt_congr (s := s.writeOut 0 m) rfl rfl k).trans ?_
    simp [State.outAt_writeOut, hm]
  refine ⟨s.rsDec standardConfig, exec_rsDec s, fun k hk => by rw [hout, if_pos hk],
    fun k hk => by rw [hout, if_neg hk.not_gt], ?_⟩
  rw [State.rsDec_of_le hle hdec]
  exact ⟨rfl, Status.decoded_eq_ite s.inLen, rfl⟩

end

/-! ### The two branches of the decoder (44 R206) -/

theorem rsDecode_of_near {r c : List Byte} (hr : r.length = 128) (hc : isCodeword standardConfig c = true)
    (near : distance r c ≤ 16) (draws : Nat) : rsDecode standardConfig draws r = (c.take 96, draws) := by
  rw [rsDecode, rsNearest_eq_some hr hc near]

/-- The decoder checks what it finds, so it finds nothing where no member is near. -/
theorem rsDecode_of_far {r : List Byte} (far : ∀ c, isCodeword standardConfig c = true → 16 < distance r c)
    (draws : Nat) : rsDecode standardConfig draws r = (rsDrawn draws, draws + 96) := by
  have nothing : rsNearest standardConfig r = none := by
    refine Option.eq_none_iff_forall_ne_some.2 fun m hm => ?_
    obtain ⟨c, hc, near, -⟩ := rsNearest_some _ hm
    exact (far c hc).not_ge near
  rw [rsDecode, nothing]

theorem getD_take_of_lt (c : List Byte) {k n : Nat} (h : k < n) : (c.take n).getD k 0 = c.getD k 0 := by
  simp [List.getD, h]

end Sys2Proof.Machine
end

section
/-!
PROOFS. O39 to O45: the Reed–Solomon tables, RS_ENC, the distance of the code, RS_DEC, and one after the other
(44 R200–R209).
-/

namespace Sys2Proof.Machine

/-- Settles O39: by evaluation of the two lists. -/
theorem reedSolomonTablesAreTheSpecs : Obligations.ReedSolomonTablesAreTheSpecs := by
  unfold Obligations.ReedSolomonTablesAreTheSpecs
  decide +kernel

/-- Settles O40: OUT holds the frame, which is the padded text and its ECC. -/
theorem rsEncWritesMessageAndEcc : Obligations.RsEncWritesMessageAndEcc := by
  refine ⟨fun s hs => congrArg Host.Outcome.next (State.rsEnc_of_tooLong hs), fun s hle => ?_⟩
  refine ⟨s.rsEnc standardConfig, exec_rsEnc s, fun k hk => ?message, fun j hj => ?ecc, fun k hk => ?tail, ?_⟩
  case message =>
    rw [State.outAt_rsEnc hle, if_pos (by omega), s.rsFrame_getD_message hk, s.paddedText_getD hk]
  case ecc =>
    rw [State.outAt_rsEnc hle, if_pos (by omega), s.rsFrame_getD_ecc, State.rsEnc_outBytes_message hle]
  case tail => rw [State.outAt_rsEnc hle, if_neg hk.not_gt]
  rw [State.rsEnc_of_le hle]
  exact ⟨rfl, rfl, rfl⟩

/-- Settles O41: a message with its ECC is a member of the code, and members vanish at the generator's roots. -/
theorem rsEncFramesAreCodewords : Obligations.RsEncFramesAreCodewords := by
  intro s t hle hexec
  obtain rfl : s.rsEnc standardConfig = t := Host.Outcome.next.inj hexec
  rw [State.rsEnc_outBytes_frame hle]
  exact ⟨s.isCodeword_rsFrame, fun i hi => isCodeword_root s.isCodeword_rsFrame hi⟩

/-- Settles O42: the difference of two members vanishes at 32 points, and terms at up to 32 distinct locators with
vanishing power sums are zero. -/
theorem codewordsDifferInThirtyThreePositions : Obligations.CodewordsDifferInThirtyThreePositions := by
  intro c d hc hd hne
  by_contra hclose
  exact hne (isCodeword_eq_of_close hc hd (by omega))

/-- Settles O43: the decoder's two systems locate and evaluate up to 16 errors. -/
theorem rsDecCorrectsSixteenErrors : Obligations.RsDecCorrectsSixteenErrors := by
  intro s c hle hc near
  obtain ⟨t, hexec, message, rest⟩ :=
    State.rsDec_completes hle (rsDecode_of_near (s.inBytes_length 128) hc near s.draws)
  exact ⟨t, hexec, fun k hk => (message k hk).trans (getD_take_of_lt c hk), rest⟩

/-- Settles O44: a decoder that checks its answer has none to give here, and draws. -/
theorem rsDecBeyondTheBoundDraws : Obligations.RsDecBeyondTheBoundDraws := by
  intro s hle far
  obtain ⟨t, hexec, drawn, rest⟩ := State.rsDec_completes hle (rsDecode_of_far far s.draws)
  exact ⟨t, hexec, fun k hk => (drawn k hk).trans (rsDrawn_getD _ hk), rest⟩

/-- Settles O45: the frame RS_ENC writes is a member within 16 of what RS_DEC reads, and its message is the padded
text. -/
theorem rsRoundTripToleratesSixteenErrors : Obligations.RsRoundTripToleratesSixteenErrors := by
  intro s t s' hle hexec hlen near
  obtain rfl : s.rsEnc standardConfig = t := Host.Outcome.next.inj hexec
  rw [State.rsEnc_outBytes_frame hle] at near
  obtain ⟨t', hexec', message, -, houtLen, hstatus, -⟩ :=
    rsDecCorrectsSixteenErrors s' s.rsFrame (by rw [hlen]; decide) s.isCodeword_rsFrame near
  refine ⟨t', hexec', by rw [hstatus, if_pos hlen], houtLen, fun k hk => ?_⟩
  rw [message k hk, s.rsFrame_getD_message hk, s.paddedText_getD hk]

end Sys2Proof.Machine
end

section
/-!
SUPPORT. The framer element by element (45 R240–R246): the packets FRAME_P and FRAME_W leave in OUT, how PARSE
classifies a packet by its tag, and what a verdict leaves in IN and the counters.
-/

namespace Sys2Proof.Machine

/-- A length register holds a length of 16 bits (10 R21). -/
theorem toNat_ofNat_half {n : Nat} (h : n < 2 ^ 16) : (BitVec.ofNat 16 n).toNat = n :=
  (BitVec.toNat_ofNat ..).trans (Nat.mod_eq_of_lt h)

/-! ### The packets sent (45 R242, R243) -/

/-- The packet FRAME_P makes of OUT[0..127]. -/
def State.packetP (s : State) : List Byte := tagP ++ s.outBytes 128

/-- The packet FRAME_W makes of the bytes that hold PKT_BITS bits. -/
def State.packetW (cfg : Config) (s : State) : List Byte :=
  tagW ++ hdrBytes cfg.lenOrder s.pktBits ++ s.outBytes (ceil8 s.pktBits.toNat)

section

variable (cfg : Config) (s : State)

@[simp] theorem State.packetP_length : s.packetP.length = 131 := by
  rw [State.packetP, List.length_append, State.outBytes_length]
  rfl

@[simp] theorem State.packetW_length : (s.packetW cfg).length = 5 + ceil8 s.pktBits.toNat := by
  rw [State.packetW, List.length_append, List.length_append, hdrBytes_length, State.outBytes_length]
  rfl

/-- Behind the tag stands the old OUT. -/
theorem State.packetP_getD {k : Nat} (hk : k < 128) : s.packetP.getD (3 + k) 0 = s.outAt k := by
  rw [State.packetP, List.getD_append_right _ _ _ _ (Nat.le_add_right 3 k), show 3 + k - tagP.length = k by simp [tagP],
    s.outBytes_getD k hk]

/-- Behind the tag and the header stands the old OUT. -/
theorem State.packetW_getD {j : Nat} (hj : j < ceil8 s.pktBits.toNat) :
    (s.packetW cfg).getD (5 + j) 0 = s.outAt j := by
  have hhead : (tagW ++ hdrBytes cfg.lenOrder s.pktBits).length = 5 := by simp [tagW]
  rw [State.packetW, List.getD_append_right _ _ _ _ (by omega), hhead, Nat.add_sub_cancel_left, s.outBytes_getD j hj]

theorem State.outAt_frameP (k : Nat) : s.frameP.outAt k = if k < 131 then s.packetP.getD k 0 else s.outAt k := by
  refine (State.outAt_congr (s := s.writeOut 0 s.packetP) rfl rfl k).trans ?_
  simp [State.outAt_writeOut]

theorem State.outAt_frameW (k : Nat) : (s.frameW cfg).outAt k =
    if k < 5 + ceil8 s.pktBits.toNat then (s.packetW cfg).getD k 0 else s.outAt k := by
  refine (State.outAt_congr (s := s.writeOut 0 (s.packetW cfg)) rfl rfl k).trans ?_
  simp [State.outAt_writeOut]

/-- The longest packet has 5 + 8192 bytes, which OUT_LEN holds. -/
theorem State.toNat_outLen_frameW : (s.frameW cfg).outLen.toNat = 5 + ceil8 s.pktBits.toNat := by
  have hfit := ceil8_toNat_le s.pktBits
  exact toNat_ofNat_half (by omega)

end

/-! ### The bytes of the packet in IN -/

section

variable {s : State} {n : Nat}

theorem State.inBytes_eq {bytes : List Byte} (hlen : bytes.length = n)
    (h : ∀ k, k < n → s.inAt k = bytes.getD k 0) : s.inBytes n = bytes := by
  refine List.ext_getElem (by simp [hlen]) fun k _ hk => ?_
  simpa [State.inBytes, List.getD, hk] using h k (hlen ▸ hk)

theorem State.inBytes_take_three_eq_iff {a b c : Byte} :
    (s.inBytes n).take 3 = [a, b, c] ↔ 3 ≤ n ∧ s.inAt 0 = a ∧ s.inAt 1 = b ∧ s.inAt 2 = c := by
  by_cases hn : 3 ≤ n
  · simp [State.inBytes, ← List.map_take, List.take_range, hn, List.range_succ]
  · refine iff_of_false (fun h => ?_) fun h => hn h.1
    have hlen := congrArg List.length h
    simp only [List.length_take, State.inBytes_length, List.length_cons, List.length_nil] at hlen
    omega

theorem State.inBytes_drop_getD {m j : Nat} (h : m + j < n) : ((s.inBytes n).drop m).getD j 0 = s.inAt (m + j) := by
  rw [← s.inBytes_getD (m + j) h 0]
  simp [List.getD]

end

/-! ### The verdict (45 R244) -/

/-- The bit length a W packet's header announces (45 R241). -/
def announcedBits (cfg : Config) (x : List Byte) : Half := hdr cfg.lenOrder (x.getD 3 0) (x.getD 4 0)

section

variable {cfg : Config} {x : List Byte}

theorem classify_of_tagP (h : x.take 3 = tagP) : classify cfg x = .p (x.drop 3) := if_pos h

theorem classify_of_untagged (hp : x.take 3 ≠ tagP) (hw : x.take 3 ≠ tagW) : classify cfg x = .unrec :=
  (if_neg hp).trans (if_neg hw)

/-- A packet with room for a header is its tag, the two header bytes and the rest. -/
theorem drop_three_eq_header_cons (h : 5 ≤ x.length) :
    x.drop 3 = x.getD 3 0 :: x.getD 4 0 :: x.drop 5 := by
  rw [List.drop_eq_getElem_cons (by omega), List.drop_eq_getElem_cons (by omega), List.getD_eq_getElem,
    List.getD_eq_getElem]

/-- The announced bit length of a packet in IN, under the default byte order (45 R241). -/
theorem toNat_announcedBits_inBytes {s : State} {n : Nat} (h : 5 ≤ n) :
    (announcedBits standardConfig (s.inBytes n)).toNat = (s.inAt 3).toNat + 256 * (s.inAt 4).toNat := by
  rw [announcedBits, s.inBytes_getD 3 (by omega), s.inBytes_getD 4 (by omega)]
  exact hdr_littleEndian_toNat ..

section

variable (h : x.take 3 = tagW)
include h

theorem classify_of_header (hlen : 5 ≤ x.length) : classify cfg x =
    if x.length - 5 < ceil8 (announcedBits cfg x).toNat then .short
    else .w ((x.drop 5).take (ceil8 (announcedBits cfg x).toNat)) (announcedBits cfg x) := by
  rw [classify, if_neg (by rw [h]; decide), if_pos h, drop_three_eq_header_cons hlen, ← List.length_drop]
  rfl

theorem classify_of_payload (hlen : 5 ≤ x.length) (hpayload : ceil8 (announcedBits cfg x).toNat ≤ x.length - 5) :
    classify cfg x = .w ((x.drop 5).take (ceil8 (announcedBits cfg x).toNat)) (announcedBits cfg x) :=
  (classify_of_header h hlen).trans (if_neg hpayload.not_gt)

/-- A W packet without its header, or with one that announces more than the packet holds. -/
theorem classify_of_short (hshort : 5 ≤ x.length → x.length - 5 < ceil8 (announcedBits cfg x).toNat) :
    classify cfg x = .short := by
  by_cases hlen : 5 ≤ x.length
  · exact (classify_of_header h hlen).trans (if_pos (hshort hlen))
  · rw [classify, if_neg (by rw [h]; decide), if_pos h]
    split
    · rename_i h0 h1 payload hdrop
      have := congrArg List.length hdrop
      simp only [List.length_drop, List.length_cons] at this
      omega
    · rfl

end

end

/-- PARSE reads a packet FRAME_P made (45 R242). -/
theorem classify_packetP (cfg : Config) (s : State) : classify cfg s.packetP = .p (s.outBytes 128) :=
  classify_of_tagP rfl

theorem announcedBits_packetW (cfg : Config) (s : State) : announcedBits cfg (s.packetW cfg) = s.pktBits := by
  rw [← hdr_hdrBytes cfg.lenOrder s.pktBits, announcedBits, State.packetW]
  cases cfg.lenOrder <;> rfl

/-- PARSE reads a packet FRAME_W made, in either byte order (45 R241, R243). -/
theorem classify_packetW (cfg : Config) (s : State) :
    classify cfg (s.packetW cfg) = .w (s.outBytes (ceil8 s.pktBits.toNat)) s.pktBits := by
  have hpayload : (s.packetW cfg).drop 5 = s.outBytes (ceil8 s.pktBits.toNat) :=
    List.drop_left' (by simp [tagW])
  rw [classify_of_payload rfl (by simp) (by simp [announcedBits_packetW]), announcedBits_packetW, hpayload,
    List.take_of_length_le (by simp)]

/-! ### PARSE (45 R244) -/

section

variable {cfg : Config} {s : State}

theorem State.parse_of_tooLong (h : cfg.inSize < s.inLen.toNat) : s.parse cfg = s.raise .length := if_pos h

theorem State.parse_of_le (h : s.inLen.toNat ≤ cfg.inSize) {v : Verdict}
    (hv : classify cfg (s.inBytes s.inLen.toNat) = v) : s.parse cfg = s.deliver cfg v :=
  (if_neg h.not_gt).trans (by rw [hv])

/-- The payload moves to IN[0..], and the rest of IN keeps its bytes (45 R245). -/
theorem State.inAt_deliver (v : Verdict) (k : Nat) : (s.deliver cfg v).inAt k =
    if k < v.payload.length then v.payload.getD k 0 else s.inAt k := by
  cases v with
  | p payload | w payload =>
    refine (State.inAt_congr (s := s.writeIn 0 payload) rfl rfl k).trans ?_
    simp [State.inAt_writeIn, Verdict.payload]
  | unrec | short => exact State.inAt_congr rfl rfl k

end

end Sys2Proof.Machine
end

section
/-!
PROOFS. O46 to O50: FRAME_P, FRAME_W, PARSE, and PARSE after each (45 R240–R246).
-/

namespace Sys2Proof.Machine

/-- Settles O46: OUT holds the packet, which is the tag and the old OUT[0..127]. -/
theorem framePPrependsItsTag : Obligations.FramePPrependsItsTag := by
  refine fun s => ⟨s.frameP, exec_frameP s, ?_, ?_, ?_, fun k hk => ?moved, fun k hk => ?tail, rfl, rfl, rfl⟩
  case moved => rw [State.outAt_frameP, if_pos (by omega), s.packetP_getD (by omega)]
  case tail => rw [State.outAt_frameP, if_neg hk.not_gt]
  all_goals exact State.outAt_frameP s _

/-- Settles O47: OUT holds the packet, which is the tag, the header and the old bytes. -/
theorem frameWPrependsTagAndHeader : Obligations.FrameWPrependsTagAndHeader := by
  intro s k
  have head {j : Nat} (hj : j < 5) :
      (s.frameW standardConfig).outAt j = (s.packetW standardConfig).getD j 0 := by
    rw [State.outAt_frameW, if_pos (by omega)]
  refine ⟨s.frameW standardConfig, exec_frameW s, head (by decide), head (by decide), head (by decide), ?low, ?high,
    fun j (hj : j < ceil8 s.pktBits.toNat) => ?moved,
    fun j (hj : 5 + ceil8 s.pktBits.toNat ≤ j) => ?tail, s.toNat_outLen_frameW standardConfig, rfl, rfl⟩
  case low =>
    rw [head (by decide)]
    exact BitVec.extractLsb'_toNat ..
  case high =>
    have := s.pktBits.isLt
    rw [head (by decide)]
    refine (BitVec.extractLsb'_toNat ..).trans ?_
    rw [Nat.shiftRight_eq_div_pow, Nat.mod_eq_of_lt (by omega)]
  case moved => rw [State.outAt_frameW, if_pos (Nat.add_lt_add_left hj 5), s.packetW_getD standardConfig hj]
  case tail => rw [State.outAt_frameW, if_neg hj.not_gt]

/-- Settles O48: by the tag of the packet in IN, and for a W packet by its length. -/
theorem parseClassifiesAndStrips : Obligations.ParseClassifiesAndStrips := by
  intro s n tagged b k
  have tagged_p : tagged 0x50 ↔ (s.inBytes n).take 3 = tagP := State.inBytes_take_three_eq_iff.symm
  have tagged_w : tagged 0x57 ↔ (s.inBytes n).take 3 = tagW := State.inBytes_take_three_eq_iff.symm
  have hn : n < 65536 := s.inLen.isLt
  have header (h5 : 5 ≤ n) : ceil8 (announcedBits standardConfig (s.inBytes n)).toNat = k :=
    congrArg ceil8 (toNat_announcedBits_inBytes h5)
  refine ⟨fun h => ?length, fun hle hp => ?p, fun hle hw h5 hk => ?w, fun hle hw hshort => ?short,
    fun hle hp hw => ?unrec⟩
  case length => exact congrArg Host.Outcome.next (State.parse_of_tooLong h)
  case p =>
    have hparse := State.parse_of_le hle (classify_of_tagP (cfg := standardConfig) (tagged_p.1 hp))
    have hlen : ((s.inBytes n).drop 3).length = n - 3 := by simp
    refine ⟨_, congrArg Host.Outcome.next hparse, fun j hj => ?_, fun j hj => ?_, ?_, counterSucc_of_width rfl _, rfl,
      rfl⟩
    · rw [State.inAt_deliver, Verdict.payload, hlen, if_pos hj, State.inBytes_drop_getD (by omega), Nat.add_comm]
    · rw [State.inAt_deliver, Verdict.payload, hlen, if_neg hj.not_gt]
    · exact (toNat_ofNat_half (by rw [hlen]; omega)).trans hlen
  case w =>
    have hclass := classify_of_payload (cfg := standardConfig) (tagged_w.1 hw) (by simpa using h5)
      (by rw [header h5, State.inBytes_length]; exact hk)
    rw [header h5] at hclass
    have hlen : (((s.inBytes n).drop 5).take k).length = k := by simpa using hk
    refine ⟨_, congrArg Host.Outcome.next (State.parse_of_le hle hclass), fun j hj => ?_, fun j hj => ?_, ?_,
      toNat_announcedBits_inBytes h5, counterSucc_of_width rfl _, rfl, rfl⟩
    · rw [State.inAt_deliver, Verdict.payload, hlen, if_pos hj, getD_take_of_lt _ hj,
        State.inBytes_drop_getD (by omega)]
    · rw [State.inAt_deliver, Verdict.payload, hlen, if_neg hj.not_gt]
    · exact (toNat_ofNat_half (by rw [hlen]; omega)).trans hlen
  case short =>
    have hclass : classify standardConfig (s.inBytes n) = .short :=
      classify_of_short (tagged_w.1 hw) fun h5 => by
        rw [State.inBytes_length] at h5 ⊢
        rw [header h5]
        omega
    exact congrArg Host.Outcome.next (State.parse_of_le hle hclass)
  case unrec =>
    have hclass := classify_of_untagged (cfg := standardConfig) (mt tagged_p.2 hp) (mt tagged_w.2 hw)
    exact congrArg Host.Outcome.next (State.parse_of_le hle hclass)

/-- Settles O49: IN holds FRAME_W's packet, which PARSE reads as the payload and the bit length it was made of. -/
theorem parseRecoversWhatFrameWSent : Obligations.ParseRecoversWhatFrameWSent := by
  intro cfg s s' hsize hlen hbytes t
  have hcount : s'.inLen.toNat = 5 + ceil8 s.pktBits.toNat := by rw [hlen, State.toNat_outLen_frameW]
  have hfit := ceil8_toNat_le s.pktBits
  have hin : s'.inBytes s'.inLen.toNat = s.packetW cfg :=
    State.inBytes_eq (by rw [State.packetW_length, hcount]) fun k hk => by
      rw [hbytes k (hlen ▸ hk), State.outAt_frameW, if_pos (hcount ▸ hk)]
  have ht : t = s'.deliver cfg (.w (s.outBytes (ceil8 s.pktBits.toNat)) s.pktBits) :=
    State.parse_of_le (by omega) (by rw [hin, classify_packetW])
  have htlen : t.inLen.toNat = ceil8 s.pktBits.toNat := by
    rw [ht]
    exact (toNat_ofNat_half (by simp; omega)).trans (s.outBytes_length _)
  refine ⟨by rw [ht]; rfl, by rw [ht]; rfl, htlen, fun j hj => ?payload, fun hwidth => ?counter⟩
  case payload =>
    rw [htlen] at hj
    rw [ht, State.inAt_deliver, Verdict.payload, State.outBytes_length, if_pos hj, s.outBytes_getD j hj]
  case counter =>
    rw [ht]
    exact counterSucc_of_width hwidth _

/-- Settles O50: IN holds FRAME_P's packet, which PARSE reads as the frame it was made of. -/
theorem parseRecoversWhatFramePSent : Obligations.ParseRecoversWhatFramePSent := by
  intro s t s' hexec hlen hbytes
  obtain rfl : s.frameP = t := Host.Outcome.next.inj hexec
  have hcount : s'.inLen.toNat = 131 := congrArg BitVec.toNat hlen
  have hin : s'.inBytes s'.inLen.toNat = s.packetP :=
    State.inBytes_eq (by rw [State.packetP_length, hcount]) fun k hk => by
      rw [hbytes k (hlen ▸ hk), State.outAt_frameP, if_pos (hcount ▸ hk)]
  have hparse : s'.parse standardConfig = s'.deliver standardConfig (.p (s.outBytes 128)) :=
    State.parse_of_le (by rw [hcount]; decide) (by rw [hin, classify_packetP])
  refine ⟨_, congrArg Host.Outcome.next hparse, rfl, congrArg (BitVec.ofNat 16) (s.outBytes_length 128),
    fun k hk => ?_, counterSucc_of_width rfl _⟩
  rw [State.inAt_deliver, Verdict.payload, State.outBytes_length, if_pos hk, s.outBytes_getD k hk]

end Sys2Proof.Machine
end

section
/-!
PROOFS. O51 and O52: what a command, a transaction and a step do to the message counters (10 R33, 45 R248, R249).
-/

namespace Sys2Proof.Machine

variable {i : Instr} {s t : State}

/-- Settles O51: the counters of the default block are 32 bits wide. -/
theorem txDoneCountsSuccessfulSends : Obligations.TxDoneCountsSuccessfulSends := by
  intro s
  rw [← counterSucc_of_width (cfg := standardConfig) rfl, ← counterSucc_of_width (cfg := standardConfig) rfl]
  exact ⟨rfl, rfl, fun _ => rfl⟩

/-- The commands that count are PARSE and TX_DONE. -/
theorem exec_keeps_counters (h : exec i s = .next t) (hparse : i ≠ .parse) (htx : ∀ tag ok, i ≠ .txDone tag ok) :
    t.cntP = s.cntP ∧ t.cntW = s.cntW := by
  cases exec_effect h with
  | parsed | unparsed => exact absurd rfl hparse
  | txDone tag ok => exact absurd rfl (htx tag ok)
  | lengthError | shortInput | ilvGen | convReset | convParity | turboEnc | pack | unpack | rsEnc | rsDec | frameP
  | frameW => exact ⟨rfl, rfl⟩

/-- PARSE counts the packet in its class's counter; the class it leaves in STATUS is the verdict's. -/
theorem State.parse_counters (s : State) : let t := s.parse standardConfig
    t.cntP = (if t.status.pclass = 1 then s.cntP + 1 else s.cntP) ∧
      t.cntW = (if t.status.pclass = 2 then s.cntW + 1 else s.cntW) := by
  rcases lt_or_ge standardConfig.inSize s.inLen.toNat with h | h
  · rw [State.parse_of_tooLong h]
    exact ⟨rfl, rfl⟩
  · rw [State.parse_of_le h rfl]
    cases classify standardConfig (s.inBytes s.inLen.toNat) with
    | p => exact ⟨counterSucc_of_width rfl _, rfl⟩
    | w => exact ⟨rfl, counterSucc_of_width rfl _⟩
    | unrec | short => exact ⟨rfl, rfl⟩

theorem State.txDone_counters (s : State) (tag : Tag) (ok : Bit) : let t := s.txDone standardConfig tag ok
    t.cntP = (if tag = .p ∧ ok = 1 then s.cntP + 1 else s.cntP) ∧
      t.cntW = (if tag = .w ∧ ok = 1 then s.cntW + 1 else s.cntW) := by
  by_cases hok : ok = 1
  · subst hok
    cases tag with
    | p => exact ⟨counterSucc_of_width rfl _, rfl⟩
    | w => exact ⟨rfl, counterSucc_of_width rfl _⟩
  · simp only [State.txDone, hok, and_false, if_false]
    exact ⟨rfl, rfl⟩

/-- Each counter stays or rises by 1. -/
def CountersRise (s t : State) : Prop :=
  (t.cntP = s.cntP ∨ t.cntP = s.cntP + 1) ∧ (t.cntW = s.cntW ∨ t.cntW = s.cntW + 1)

theorem CountersRise.of_eq (h : t.cntP = s.cntP ∧ t.cntW = s.cntW) : CountersRise s t := ⟨.inl h.1, .inl h.2⟩

theorem CountersRise.of_ite {p q : Prop} [Decidable p] [Decidable q]
    (h : t.cntP = (if p then s.cntP + 1 else s.cntP) ∧ t.cntW = (if q then s.cntW + 1 else s.cntW)) :
    CountersRise s t := by
  obtain ⟨hp, hw⟩ := h
  rw [CountersRise, hp, hw]
  exact ⟨(ite_eq_or_eq ..).symm, (ite_eq_or_eq ..).symm⟩

theorem exec_countersRise (h : exec i s = .next t) : CountersRise s t := by
  by_cases hparse : i = .parse
  · subst hparse
    cases h
    exact .of_ite s.parse_counters
  by_cases htx : ∃ tag ok, i = .txDone tag ok
  · obtain ⟨tag, ok, rfl⟩ := htx
    cases h
    exact .of_ite (s.txDone_counters tag ok)
  · exact .of_eq (exec_keeps_counters h hparse fun tag ok hi => htx ⟨tag, ok, hi⟩)

/-- A transaction of the host is a command word or leaves the counters. -/
theorem transact_counters_cases {x : HostTxn} (h : transact standardConfig s x = .next t) :
    (∃ v, x = .write .w32 0x00000 v ∧ execWord standardConfig v s = .next t) ∨
      (t.cntP = s.cntP ∧ t.cntW = s.cntW) := by
  rcases transact_next_cases h with ⟨_, _, _, _, rfl⟩ | ⟨_, v, rfl, rfl, hword⟩ | ⟨_, _, _, rfl⟩ |
    ⟨_, _, _, rfl⟩ | ⟨_, rfl⟩ | ⟨_, rfl⟩ | ⟨_, rfl⟩
  case inr.inl => exact .inl ⟨v, rfl, hword⟩
  all_goals exact .inr ⟨rfl, rfl⟩

theorem transact_countersRise {x : HostTxn} (h : transact standardConfig s x = .next t) : CountersRise s t := by
  rcases transact_counters_cases h with ⟨v, -, hword⟩ | heq
  · rcases execWord_next_cases hword with ⟨i, hi⟩ | ⟨e, rfl⟩
    · exact exec_countersRise hi
    · exact .of_eq ⟨rfl, rfl⟩
  · exact .of_eq heq

/-- Settles O52: by command, by transaction, and by the event a step takes. -/
theorem countersRiseOnlyByParseAndTxDone : Obligations.CountersRiseOnlyByParseAndTxDone := by
  refine ⟨fun i s t h => ⟨exec_keeps_counters h, ?parse, ?txDone⟩, fun s t x hx h => ?transaction,
    fun s t h hreset => ?step⟩
  case parse =>
    rintro rfl
    cases h
    exact s.parse_counters
  case txDone =>
    rintro tag ok rfl
    cases h
    exact s.txDone_counters tag ok
  case transaction =>
    rcases transact_counters_cases h with ⟨v, hv, -⟩ | heq
    · exact absurd hv (hx v)
    · exact heq
  case step =>
    rcases step_next_cases h with ⟨-, rfl⟩ | ⟨rest, hhost, -⟩ | ⟨rest, x, -, htxn⟩
    · exact CountersRise.of_eq ⟨rfl, rfl⟩
    · exact absurd hhost (hreset rest)
    · exact transact_countersRise (s := s.takeEvent rest) htxn

end Sys2Proof.Machine
end

section
/-!
SUPPORT. The code a command leaves in STATUS.ERR, by the length of its input (60 R280, R282), and the opcode of the
word that runs it.
-/

namespace Sys2Proof.Machine

/-- The code that the length of the input gives a command with the opcode `opc`: LENGTH before SHORT_INPUT, and 0
without either (60 R280, R282). -/
def State.inputErr (s : State) (opc : Byte) : BitVec 4 :=
  if ((opc = 0x06 ∨ opc = 0x07 ∨ opc = 0x08 ∨ opc = 0x0B) ∧ 8197 < s.inLen.toNat) ∨
    (opc = 0x04 ∧ 2730 < s.inLen.toNat) then 3
  else if opc = 0x06 ∧ s.inLen.toNat < ceil8 s.pktBits.toNat then 4
  else 0

section

variable (s : State)

@[simp] theorem State.turboEnc_err : (s.turboEnc standardConfig).status.err =
    if 2730 < s.inLen.toNat then 3 else 0 := by
  split
  case isTrue h => rw [State.turboEnc_of_lt h]; rfl
  case isFalse h => rw [State.turboEnc_of_le (Nat.le_of_not_lt h)]; rfl

@[simp] theorem State.unpack_err : (s.unpack standardConfig).status.err =
    if 8197 < s.inLen.toNat then 3 else if s.inLen.toNat < ceil8 s.pktBits.toNat then 4 else 0 := by
  split
  case isTrue h => rw [State.unpack_of_tooLong h]; rfl
  case isFalse h =>
    have hle := Nat.le_of_not_lt h
    split
    case isTrue hshort => rw [State.unpack_of_tooShort hle hshort]; rfl
    case isFalse henough => rw [State.unpack_status hle (Nat.le_of_not_lt henough)]; rfl

@[simp] theorem State.rsEnc_err : (s.rsEnc standardConfig).status.err = if 8197 < s.inLen.toNat then 3 else 0 := by
  split
  case isTrue h => rw [State.rsEnc_of_tooLong h]; rfl
  case isFalse h => rw [State.rsEnc_of_le (Nat.le_of_not_lt h)]; rfl

theorem State.rsDec_of_tooLong (h : 8197 < s.inLen.toNat) : s.rsDec standardConfig = s.raise .length := if_pos h

@[simp] theorem State.rsDec_err : (s.rsDec standardConfig).status.err = if 8197 < s.inLen.toNat then 3 else 0 := by
  split
  case isTrue h => rw [State.rsDec_of_tooLong s h]; rfl
  case isFalse h => rw [State.rsDec_of_le (Nat.le_of_not_lt h) rfl]; rfl

@[simp] theorem State.parse_err : (s.parse standardConfig).status.err = if 8197 < s.inLen.toNat then 3 else 0 := by
  split
  case isTrue h => rw [State.parse_of_tooLong h]; rfl
  case isFalse h =>
    rw [State.parse_of_le (Nat.le_of_not_lt h) rfl]
    cases classify standardConfig (s.inBytes s.inLen.toNat) <;> rfl

end

variable {i : Instr} {s t : State} {v : Word}

/-- Five commands check their input; the opcodes of the others have no cause in `inputErr`. -/
theorem exec_err (h : exec i s = .next t) : t.status.err = s.inputErr (i.tableMatch.extractLsb' 0 8) := by
  cases i <;> cases h
  case turboEnc | unpack | rsEnc | rsDec | parse => simp [State.inputErr, Instr.tableMatch]
  case ilvGen | convReset | convParity | pack | frameP | frameW | txDone => rfl

/-- A command raises an error, writing STATUS alone, or leaves ERR 0 (60 R281). -/
theorem exec_raises_or_succeeds (h : exec i s = .next t) : (∃ e, t = s.raise e) ∨ t.status.err = 0 := by
  cases exec_effect h with
  | lengthError | shortInput => exact .inl ⟨_, rfl⟩
  | ilvGen | convReset | convParity | turboEnc | pack | unpack | rsEnc | rsDec | frameP | frameW | parsed | unparsed
  | txDone => exact .inr rfl

/-- A word that decodes has the opcode of its command's row (30 R94). -/
theorem opcode_of_decode (h : decode v = .ok i) : v.extractLsb' 0 8 = i.tableMatch.extractLsb' 0 8 := by
  rw [← row_of_decode h, BitVec.extractLsb'_and, tableMask_opcode, BitVec.and_allOnes]

end Sys2Proof.Machine
end

section
/-!
PROOFS. O6 and O7: the error of a command word, and what it leaves unchanged (60 R280–R282).
-/

namespace Sys2Proof.Machine

/-- Settles O6: a word that leaves an error has raised it, in decoding or in its command. -/
theorem failedCommandWordsWriteStatusOnly : Obligations.FailedCommandWordsWriteStatusOnly := by
  intro v s
  obtain ⟨t, ht⟩ := execWord_total s (cfg := standardConfig) v
  refine ⟨t, ht, fun herr => ?_⟩
  have raised : ∃ e, t = s.raise e := by
    rcases execWord_next_cases ht with ⟨i, hi⟩ | he
    · exact (exec_raises_or_succeeds hi).resolve_right herr
    · exact he
  obtain ⟨e, rfl⟩ := raised
  rfl

/-- Settles O7: by what the word decodes to; a word that decodes has the opcode by which `inputErr` is told. -/
theorem commandWordsFailExactlyForTheListedCauses : Obligations.CommandWordsFailExactlyForTheListedCauses := by
  intro v s opc illegal reserved tooLong tooShort
  have illegal_iff : decode v = .error .illegalOpcode ↔ illegal := decode_eq_illegalOpcode_iff.trans illegalOpcode_iff
  cases hd : decode v with
  | error e =>
    refine ⟨s.raise e, execWord_error s hd, ?_⟩
    rcases decode_error hd with rfl | rfl
    · have hillegal := illegal_iff.1 hd
      exact ⟨fun _ => rfl, (absurd hillegal ·), (absurd hillegal ·), (absurd hillegal ·), (absurd hillegal ·)⟩
    · obtain ⟨hlegal, hreserved⟩ := decode_eq_reservedField_iff.1 hd
      exact ⟨fun h => absurd (illegalOpcode_iff.2 h) hlegal, fun _ _ => rfl, fun _ h => absurd hreserved h,
        fun _ h => absurd hreserved h, fun _ h => absurd hreserved h⟩
  | ok i =>
    have hlegal : ¬ illegal := fun h => by simpa [hd] using illegal_iff.2 h
    have hrow : ¬ reserved := fun h => h i (row_of_decode hd)
    obtain ⟨t, ht⟩ := exec_total s i
    have herr : t.status.err = if tooLong then 3 else if tooShort then 4 else 0 := by
      rw [exec_err ht, ← opcode_of_decode hd]
      rfl
    refine ⟨t, (execWord_standardConfig s hd).trans ht, (absurd · hlegal), fun _ h => absurd h hrow, ?_, ?_, ?_⟩
    · exact fun _ _ hlong => herr.trans (if_pos hlong)
    · exact fun _ _ hfits hshort => herr.trans ((if_neg hfits).trans (if_pos hshort))
    · exact fun _ _ hfits henough => herr.trans ((if_neg hfits).trans (if_neg henough))

end Sys2Proof.Machine
end

section
/-!
SUPPORT. What a block whose buffers nothing has written holds (70 R310).
-/

namespace Sys2Proof.Machine

variable {s : State}

/-- An element nothing has written since the latest reset is that reset's draw (70 R310 b, log 3). -/
theorem State.elements_eq_draws (hin : s.inBuf = []) (hout : s.outBuf = []) (hbit : s.bitMem = [])
    (hperm : s.permBuf = []) (k : Nat) :
    s.inAt k = Config.resetIn s.boot k ∧ s.outAt k = Config.resetOut s.boot k ∧
      s.bitAt k = Config.resetBit s.boot k ∧ s.permAt k = Config.resetPerm s.boot k := by
  refine ⟨?_, ?_, ?_, ?_⟩
  · simp [State.inAt, hin, Buf.find]
  · simp [State.outAt, hout, Buf.find]
  · simp [State.bitAt, hbit, Buf.find]
  · simp [State.permAt, hperm, Buf.find]

/-- With PERM_LEN 0 there is no entry of PERM to be valid (10 R36). -/
theorem State.permValid_of_permLen_eq_zero (h : s.permLen = 0) : s.permValid := by
  simp [State.permValid, State.permEntries, h]

end Sys2Proof.Machine
end

section
/-!
PROOFS. O11, O12 and O56: the state after power-on and after a reset during a run (70 R310). O8: a step with no event
left. O22: the reference generator yields a permutation (40 R121).
-/

namespace Sys2Proof.Machine

/-- Settles O22: the generator starts from [0, L) in order, and its loop only swaps entries. -/
theorem referenceInterleaverIsABijection : Obligations.ReferenceInterleaverIsABijection := ilvPerm_perm_range

/-- Settles O11: the state after power-on has nothing written in any buffer. -/
theorem resetBuffersHoldDraws : Obligations.ResetBuffersHoldDraws :=
  State.elements_eq_draws (s := State.reset) rfl rfl rfl rfl

/-- Settles O12: the step restarts the block, which empties every buffer and counts one more reset. -/
theorem platformResetRestoresTheBlock : Obligations.PlatformResetRestoresTheBlock := fun s rest h =>
  ⟨(s.takeEvent rest).restart, step_reset h, rfl,
    State.elements_eq_draws (s := (s.takeEvent rest).restart) rfl rfl rfl rfl⟩

/-- Settles O56: the buffers are unwritten, STATUS has no error, and OUT_LEN and PERM_LEN are 0. -/
theorem resetStateIsWellFormed : Obligations.ResetStateIsWellFormed :=
  ⟨State.reset.wf_iff.2 ⟨State.reset_buffersWf, Status.ok_legal, Nat.zero_le _⟩,
    State.permValid_of_permLen_eq_zero rfl⟩

/-- Settles O8: with an empty queue a step is idle. -/
theorem stepWithoutEventsHoldsTheState : Obligations.StepWithoutEventsHoldsTheState := fun _ => step_idle

end Sys2Proof.Machine
end
